-- ==== Sys2Proof/Word.lean ====
section
/-! DEFINITION. The machine's words: bytes, half words, words and addresses (rules R2, R8). -/

namespace Sys2Proof

/-- An 8-bit value. -/
abbrev Byte := BitVec 8

/-- A 16-bit value. -/
abbrev Half := BitVec 16

/-- A 32-bit value ("double-word", R19). -/
abbrev Word := BitVec 32

/-- A 32-bit address of one byte (R70). -/
abbrev Addr := BitVec 32

end Sys2Proof
end

