-- ==== Sys2Proof/Syntax.lean ====
section
/-! DEFINITION. The instructions as terms: one constructor of `Instr` for each of the 88 opcode patterns of rule R119,
over register operands (R21, R23) and execution conditions (R115). -/

namespace Sys2Proof

/-- The four full general registers (R20). -/
inductive Full where
  | A | B | C | D
  deriving DecidableEq, Repr

/-- The four ways to access a full register (R21): all 32 bits, `W` the low half, `H` bits 15:8, `L` bits 7:0. -/
inductive View where
  | full | word | high | low
  deriving DecidableEq, Repr

/-- The width in bits of a view (R21). -/
def View.bits : View → Nat
  | .full => 32
  | .word => 16
  | .high => 8
  | .low  => 8

/-- The lowest bit of the full register that a view names (R21). -/
def View.lsb : View → Nat
  | .full => 0
  | .word => 0
  | .high => 8
  | .low  => 0

/-- A register operand: one of the sixteen names of R21. -/
structure Reg where
  full : Full
  view : View
  deriving DecidableEq, Repr

/-- `w(n)`: the width in bits of the register a code names (R10, R23). -/
abbrev Reg.bits (r : Reg) : Nat := r.view.bits

/-- The number of bytes a register moves (R82). -/
def Reg.bytes (r : Reg) : Nat := r.bits / 8

/-- The execution conditions (R115): nine have a meaning, seven of the sixteen codes are not assigned. -/
inductive Cond where
  | nc | zc | cc | pc | sc | u5 | u6 | u7
  | u8 | zs | cs | ps | ss | uD | uE | uF
  deriving DecidableEq, Repr

/-- The instructions (R119). A register, condition or bit number that its instruction does not allow (R122) is still a
term: the instruction then raises `INVALID_ARGUMENT`. An `IMM` operand is held zero-extended (R113). -/
inductive Instr where
  -- General instructions (40_general.md)
  /-- `NOP`, `0x0000` (R150). -/
  | nop
  /-- `STOP`, `0x0100` (R151). -/
  | stop
  /-- `HALT`, `0x0200` (R152). -/
  | halt
  /-- `SEC XX`, `0x03XX` (R153). -/
  | sec (xx : Byte)
  /-- `CEC`, `0x0400` (R154). -/
  | cec
  /-- `DI`, `0x0500` (R155). -/
  | di
  /-- `EI`, `0x0600` (R156). -/
  | ei
  /-- `DAA`, `0x0700` (R157). -/
  | daa
  /-- `SCF`, `0x0800` (R158). -/
  | scf
  /-- `CCF`, `0x0900` (R159). -/
  | ccf
  /-- `FLG X`, `0x0AX0` (R160). -/
  | flg (k : BitVec 4)
  /-- `STF X`, `0x0BX0` (R161). -/
  | stf (k : BitVec 4)
  /-- `CLF X`, `0x0CX0` (R162). -/
  | clf (k : BitVec 4)
  -- Data transfer (41_data_transfer.md)
  /-- `LD X, IMM`, `0x10X0` (R171). -/
  | ldImm (x : Reg) (imm : Word)
  /-- `LD X, [ADDR32]`, `0x11X0` (R172). -/
  | ldAbs (x : Reg) (addr : Addr)
  /-- `LD X, [Y32]`, `0x12XY` (R173). -/
  | ldInd (x : Reg) (y : Reg)
  /-- `LDH X, [ADDR16]`, `0x13X0` (R174). -/
  | ldhAbs (x : Reg) (addr : Half)
  /-- `LDH X, [Y16]`, `0x14XY` (R175). -/
  | ldhInd (x : Reg) (y : Reg)
  /-- `LDP X8, [ADDR8]`, `0x15X0` (R176). -/
  | ldpAbs (x : Reg) (addr : Byte)
  /-- `LDP X8, [Y8]`, `0x16XY` (R177). -/
  | ldpInd (x : Reg) (y : Reg)
  /-- `ST [ADDR32], Y`, `0x170Y` (R178). -/
  | stAbs (addr : Addr) (y : Reg)
  /-- `ST [X32], Y`, `0x18XY` (R179). -/
  | stInd (x : Reg) (y : Reg)
  /-- `STH [ADDR16], Y`, `0x190Y` (R180). -/
  | sthAbs (addr : Half) (y : Reg)
  /-- `STH [X16], Y`, `0x1AXY` (R181). -/
  | sthInd (x : Reg) (y : Reg)
  /-- `STP [ADDR8], Y8`, `0x1B0Y` (R182). -/
  | stpAbs (addr : Byte) (y : Reg)
  /-- `STP [X8], Y8`, `0x1CXY` (R183). -/
  | stpInd (x : Reg) (y : Reg)
  /-- `MV X, Y`, `0x1DXY` (R184). -/
  | mv (x : Reg) (y : Reg)
  /-- `POP X32`, `0x1EX0` (R185). -/
  | pop (x : Reg)
  /-- `PUSH Y32`, `0x1F0Y` (R186). -/
  | push (y : Reg)
  -- Control transfer (42_control_transfer.md)
  /-- `JMP Z, IMM32`, `0x20Z0` (R201). -/
  | jmpImm (z : Cond) (target : Addr)
  /-- `JMP Z, X32`, `0x21ZX` (R202). -/
  | jmpReg (z : Cond) (y : Reg)
  /-- `JPB Z, SIMM16`, `0x22Z0` (R203). -/
  | jpb (z : Cond) (disp : Half)
  /-- `CALL Z, IMM32`, `0x23Z0` (R204). -/
  | call (z : Cond) (target : Addr)
  /-- `INT XX`, `0x24XX` (R205). -/
  | intVec (xx : Byte)
  /-- `RET Z`, `0x25Z0` (R206). -/
  | ret (z : Cond)
  /-- `RETI`, `0x2600` (R207). -/
  | reti
  -- Arithmetic (43_arithmetic.md)
  /-- `INC X`, `0x30X0` (R221). -/
  | incReg (x : Reg)
  /-- `INC [X32]`, `0x31X0` (R222). -/
  | incMem (x : Reg)
  /-- `DEC X`, `0x32X0` (R223). -/
  | decReg (x : Reg)
  /-- `DEC [X32]`, `0x33X0` (R224). -/
  | decMem (x : Reg)
  /-- `ADD X, IMM`, `0x34X0` (R225). -/
  | addImm (x : Reg) (imm : Word)
  /-- `ADD X, [ADDR32]`, `0x35X0` (R226). -/
  | addAbs (x : Reg) (addr : Addr)
  /-- `ADD X, [Y32]`, `0x36XY` (R227). -/
  | addInd (x : Reg) (y : Reg)
  /-- `ADC X, IMM`, `0x37X0` (R228). -/
  | adcImm (x : Reg) (imm : Word)
  /-- `ADC X, [ADDR32]`, `0x38X0` (R229). -/
  | adcAbs (x : Reg) (addr : Addr)
  /-- `ADC X, [Y32]`, `0x39XY` (R230). -/
  | adcInd (x : Reg) (y : Reg)
  /-- `SUB X, IMM`, `0x3AX0` (R231). -/
  | subImm (x : Reg) (imm : Word)
  /-- `SUB X, [ADDR32]`, `0x3BX0` (R232). -/
  | subAbs (x : Reg) (addr : Addr)
  /-- `SUB X, [Y32]`, `0x3CXY` (R233). -/
  | subInd (x : Reg) (y : Reg)
  /-- `SBC X, IMM`, `0x3DX0` (R234). -/
  | sbcImm (x : Reg) (imm : Word)
  /-- `SBC X, [ADDR32]`, `0x3EX0` (R235). -/
  | sbcAbs (x : Reg) (addr : Addr)
  /-- `SBC X, [Y32]`, `0x3FXY` (R236). -/
  | sbcInd (x : Reg) (y : Reg)
  -- Bitwise (44_bitwise.md)
  /-- `AND X, IMM`, `0x40X0` (R251). -/
  | andImm (x : Reg) (imm : Word)
  /-- `AND X, [ADDR32]`, `0x41X0` (R252). -/
  | andAbs (x : Reg) (addr : Addr)
  /-- `AND X, [Y32]`, `0x42XY` (R253). -/
  | andInd (x : Reg) (y : Reg)
  /-- `OR X, IMM`, `0x43X0` (R254). -/
  | orImm (x : Reg) (imm : Word)
  /-- `OR X, [ADDR32]`, `0x44X0` (R255). -/
  | orAbs (x : Reg) (addr : Addr)
  /-- `OR X, [Y32]`, `0x45XY` (R256). -/
  | orInd (x : Reg) (y : Reg)
  /-- `XOR X, IMM`, `0x46X0` (R257). -/
  | xorImm (x : Reg) (imm : Word)
  /-- `XOR X, [ADDR32]`, `0x47X0` (R258). -/
  | xorAbs (x : Reg) (addr : Addr)
  /-- `XOR X, [Y32]`, `0x48XY` (R259). -/
  | xorInd (x : Reg) (y : Reg)
  /-- `NOT X`, `0x4CX0` (R260). -/
  | notReg (x : Reg)
  /-- `NOT [X32]`, `0x4DX0` (R261). -/
  | notMem (x : Reg)
  -- Comparison (45_comparison.md)
  /-- `CMP X, IMM`, `0x50X0` (R270). -/
  | cmpImm (x : Reg) (imm : Word)
  /-- `CMP X, [ADDR32]`, `0x51X0` (R271). -/
  | cmpAbs (x : Reg) (addr : Addr)
  /-- `CMP X, [Y32]`, `0x52XY` (R272). -/
  | cmpInd (x : Reg) (y : Reg)
  -- Shifts and rotates (46_shift_rotate.md)
  /-- `SLA X`, `0x60X0` (R281). -/
  | slaReg (x : Reg)
  /-- `SLA [X32]`, `0x61X0` (R282). -/
  | slaMem (x : Reg)
  /-- `SRA X`, `0x62X0` (R283). -/
  | sraReg (x : Reg)
  /-- `SRA [X32]`, `0x63X0` (R284). -/
  | sraMem (x : Reg)
  /-- `SRL X`, `0x64X0` (R285). -/
  | srlReg (x : Reg)
  /-- `SRL [X32]`, `0x65X0` (R286). -/
  | srlMem (x : Reg)
  /-- `RL X`, `0x66X0` (R287). -/
  | rlReg (x : Reg)
  /-- `RL [X32]`, `0x67X0` (R288). -/
  | rlMem (x : Reg)
  /-- `RLC X`, `0x68X0` (R289). -/
  | rlcReg (x : Reg)
  /-- `RLC [X32]`, `0x69X0` (R290). -/
  | rlcMem (x : Reg)
  /-- `RR X`, `0x6AX0` (R291). -/
  | rrReg (x : Reg)
  /-- `RR [X32]`, `0x6BX0` (R292). -/
  | rrMem (x : Reg)
  /-- `RRC X`, `0x6CX0` (R293). -/
  | rrcReg (x : Reg)
  /-- `RRC [X32]`, `0x6DX0` (R294). -/
  | rrcMem (x : Reg)
  -- Bit testing and manipulation (47_bit_ops.md)
  /-- `BIT XD, X`, `0x70X0` (R311). -/
  | bitReg (xd : Byte) (x : Reg)
  /-- `BIT XD, [X32]`, `0x71X0` (R312). -/
  | bitMem (xd : Byte) (x : Reg)
  /-- `TOG XD, X`, `0x72X0` (R313). -/
  | togReg (xd : Byte) (x : Reg)
  /-- `TOG XD, [X32]`, `0x73X0` (R314). -/
  | togMem (xd : Byte) (x : Reg)
  /-- `SET XD, X`, `0x74X0` (R315). -/
  | setReg (xd : Byte) (x : Reg)
  /-- `SET XD, [X32]`, `0x75X0` (R316). -/
  | setMem (xd : Byte) (x : Reg)
  /-- `RES XD, X`, `0x76X0` (R317). -/
  | resReg (xd : Byte) (x : Reg)
  /-- `RES XD, [X32]`, `0x77X0` (R318). -/
  | resMem (xd : Byte) (x : Reg)
  deriving DecidableEq, Repr

end Sys2Proof
end

