-- ==== Sys2Proof/WellFormed.lean ====
section
/-! DEFINITION. Which terms of `Instr` are instructions: `wellFormed`, the terms that some bytes denote (R113), and
`argsValid`, the argument constraints of rule R122. An instruction that breaks `argsValid` has an encoding and raises
`INVALID_ARGUMENT` when it runs. -/

namespace Sys2Proof

/-- A condition code that R115 assigns. -/
def Cond.assigned : Cond → Bool
  | .nc | .zc | .zs | .cc | .cs | .pc | .ps | .sc | .ss => true
  | .u5 | .u6 | .u7 | .u8 | .uD | .uE | .uF => false

/-- An `IMM` fits the width of the register it goes with (R113). -/
def immFits (x : Reg) (imm : Word) : Bool := decide (imm.toNat < 2 ^ x.bits)

/-- The term is what some bytes denote: an `IMM` has the width of `X`. -/
def Instr.wellFormed : Instr → Bool
  | .ldImm x imm | .addImm x imm | .adcImm x imm | .subImm x imm | .sbcImm x imm | .andImm x imm | .orImm x imm
  | .xorImm x imm | .cmpImm x imm => immFits x imm
  | .nop | .stop | .halt | .sec _ | .cec | .di | .ei | .daa | .scf | .ccf | .flg _ | .stf _ | .clf _ | .ldAbs _ _
  | .ldInd _ _ | .ldhAbs _ _ | .ldhInd _ _ | .ldpAbs _ _ | .ldpInd _ _ | .stAbs _ _ | .stInd _ _ | .sthAbs _ _
  | .sthInd _ _ | .stpAbs _ _ | .stpInd _ _ | .mv _ _ | .pop _ | .push _ | .jmpImm _ _ | .jmpReg _ _ | .jpb _ _
  | .call _ _ | .intVec _ | .ret _ | .reti | .incReg _ | .incMem _ | .decReg _ | .decMem _ | .addAbs _ _
  | .addInd _ _ | .adcAbs _ _ | .adcInd _ _ | .subAbs _ _ | .subInd _ _ | .sbcAbs _ _ | .sbcInd _ _ | .andAbs _ _
  | .andInd _ _ | .orAbs _ _ | .orInd _ _ | .xorAbs _ _ | .xorInd _ _ | .notReg _ | .notMem _ | .cmpAbs _ _
  | .cmpInd _ _ | .slaReg _ | .slaMem _ | .sraReg _ | .sraMem _ | .srlReg _ | .srlMem _ | .rlReg _ | .rlMem _
  | .rlcReg _ | .rlcMem _ | .rrReg _ | .rrMem _ | .rrcReg _ | .rrcMem _ | .bitReg _ _ | .bitMem _ _ | .togReg _ _
  | .togMem _ _ | .setReg _ _ | .setMem _ _ | .resReg _ _ | .resMem _ _ => true

/-- A bit number within an operand of `w` bits (R310(b)). -/
def bitInRange (xd : Byte) (w : Nat) : Bool := decide (xd.toNat < w)

/-- The argument constraints (R122). -/
def Instr.argsValid : Instr → Bool
  | .ldInd _ y | .push y | .addInd _ y | .adcInd _ y | .subInd _ y | .sbcInd _ y | .andInd _ y | .orInd _ y
  | .xorInd _ y | .cmpInd _ y => y.bits == 32
  | .stInd x _ | .pop x | .incMem x | .decMem x | .notMem x | .slaMem x | .sraMem x | .srlMem x | .rlMem x
  | .rlcMem x | .rrMem x | .rrcMem x => x.bits == 32
  | .ldhInd _ y => y.bits == 16
  | .sthInd x _ => x.bits == 16
  | .ldpAbs x _ => x.bits == 8
  | .stpAbs _ y => y.bits == 8
  | .ldpInd x y | .stpInd x y => x.bits == 8 && y.bits == 8
  | .jmpImm z _ | .jpb z _ | .call z _ | .ret z => z.assigned
  | .jmpReg z y => z.assigned && y.bits == 32
  | .intVec xx => decide (xx.toNat ≤ 0x1F)
  | .bitReg xd x | .togReg xd x | .setReg xd x | .resReg xd x => bitInRange xd x.bits
  | .bitMem xd x | .togMem xd x | .setMem xd x | .resMem xd x => x.bits == 32 && bitInRange xd 8
  | .nop | .stop | .halt | .sec _ | .cec | .di | .ei | .daa | .scf | .ccf | .flg _ | .stf _ | .clf _ | .ldImm _ _
  | .ldAbs _ _ | .ldhAbs _ _ | .stAbs _ _ | .sthAbs _ _ | .mv _ _ | .reti | .incReg _ | .decReg _ | .addImm _ _
  | .addAbs _ _ | .adcImm _ _ | .adcAbs _ _ | .subImm _ _ | .subAbs _ _ | .sbcImm _ _ | .sbcAbs _ _ | .andImm _ _
  | .andAbs _ _ | .orImm _ _ | .orAbs _ _ | .xorImm _ _ | .xorAbs _ _ | .notReg _ | .cmpImm _ _ | .cmpAbs _ _
  | .slaReg _ | .sraReg _ | .srlReg _ | .rlReg _ | .rlcReg _ | .rrReg _ | .rrcReg _ => true

end Sys2Proof
end

