-- ==== Sys2Proof/Decode.lean ====
section
/-! DEFINITION. From bytes to instructions and back: the opcode's fields (R110), register and condition codes (R23, R115),
lengths (R112), immediates (R113), the opcode map (R119) with the illegal encodings of R120 and R121, the decoder, and the
encoder written from the same tables. -/

namespace Sys2Proof

/-! ## The opcode's fields (R110) -/

/-- `O`, the type byte, bits 15:8. -/
def typeByte (op : Half) : Byte := op.extractLsb' 8 8

/-- `X`, bits 7:4. -/
def xField (op : Half) : BitVec 4 := op.extractLsb' 4 4

/-- `Y`, bits 3:0. -/
def yField (op : Half) : BitVec 4 := op.extractLsb' 0 4

/-- `XX`, bits 7:0 (R116). -/
def xxField (op : Half) : Byte := op.extractLsb' 0 8

/-- The opcode `0xOOXY`. -/
def opcodeXY (o : Byte) (x y : BitVec 4) : Half := o ++ x ++ y

/-- The opcode `0xOO` followed by the byte `XX`. -/
def opcodeXX (o : Byte) (xx : Byte) : Half := o ++ xx

/-! ## Register codes (R23) and condition codes (R115) -/

/-- Bits 3:2 of a register code choose the full register. -/
def Full.ofBits (b : BitVec 2) : Full :=
  if b = 0 then .A else if b = 1 then .B else if b = 2 then .C else .D

def Full.toBits : Full → BitVec 2
  | .A => 0 | .B => 1 | .C => 2 | .D => 3

/-- Bits 1:0 of a register code choose the view. -/
def View.ofBits (b : BitVec 2) : View :=
  if b = 0 then .full else if b = 1 then .word else if b = 2 then .high else .low

def View.toBits : View → BitVec 2
  | .full => 0 | .word => 1 | .high => 2 | .low => 3

/-- The register a 4-bit code names: all sixteen codes name one. -/
def Reg.ofCode (n : BitVec 4) : Reg :=
  { full := Full.ofBits (n.extractLsb' 2 2), view := View.ofBits (n.extractLsb' 0 2) }

/-- The code of a register. -/
def Reg.code (r : Reg) : BitVec 4 := r.full.toBits ++ r.view.toBits

/-- The condition a 4-bit code names. -/
def Cond.ofCode (n : BitVec 4) : Cond :=
  if n = 0x0 then .nc else if n = 0x1 then .zc else if n = 0x2 then .cc else if n = 0x3 then .pc
  else if n = 0x4 then .sc else if n = 0x5 then .u5 else if n = 0x6 then .u6 else if n = 0x7 then .u7
  else if n = 0x8 then .u8 else if n = 0x9 then .zs else if n = 0xA then .cs else if n = 0xB then .ps
  else if n = 0xC then .ss else if n = 0xD then .uD else if n = 0xE then .uE else .uF

/-- The code of a condition. -/
def Cond.code : Cond → BitVec 4
  | .nc => 0x0 | .zc => 0x1 | .cc => 0x2 | .pc => 0x3 | .sc => 0x4 | .u5 => 0x5 | .u6 => 0x6 | .u7 => 0x7
  | .u8 => 0x8 | .zs => 0x9 | .cs => 0xA | .ps => 0xB | .ss => 0xC | .uD => 0xD | .uE => 0xE | .uF => 0xF

/-! ## Lengths (R112) -/

/-- The type bytes whose immediate has the width of register `X`. -/
def typesImm : List Byte := [0x10, 0x34, 0x37, 0x3A, 0x3D, 0x40, 0x43, 0x46, 0x50]

/-- The type bytes with a 4-byte immediate (`ADDR32`, `IMM32`). -/
def typesImm32 : List Byte := [0x11, 0x17, 0x20, 0x23, 0x35, 0x38, 0x3B, 0x3E, 0x41, 0x44, 0x47, 0x51]

/-- The type bytes with a 2-byte immediate (`ADDR16`, `SIMM16`). -/
def typesImm16 : List Byte := [0x13, 0x19, 0x22]

/-- The type bytes with a 1-byte immediate (`ADDR8`, `XD`). -/
def typesImm8 : List Byte := [0x15, 0x1B, 0x70, 0x71, 0x72, 0x73, 0x74, 0x75, 0x76, 0x77]

/-- How many immediate bytes follow an opcode. -/
def immBytes (op : Half) : Nat :=
  if typeByte op ∈ typesImm then (Reg.ofCode (xField op)).bytes
  else if typeByte op ∈ typesImm32 then 4
  else if typeByte op ∈ typesImm16 then 2
  else if typeByte op ∈ typesImm8 then 1
  else 0

/-! ## The opcode map (R119) -/

/-- The instruction of an opcode and its (zero-extended) immediate; `none` where the opcode matches no row. `strict` is
the parameter `STRICT_ZERO_NIBBLE`: a nibble the pattern shows as `0` must be 0 (R121). -/
def Instr.ofOpcode (strict : Bool) (op : Half) (imm : Word) : Option Instr :=
  let o := typeByte op
  let x := Reg.ofCode (xField op)
  let y := Reg.ofCode (yField op)
  let xZero (i : Instr) : Option Instr := if strict && xField op != 0 then none else some i
  let yZero (i : Instr) : Option Instr := if strict && yField op != 0 then none else some i
  let bothZero (i : Instr) : Option Instr := if strict && xxField op != 0 then none else some i
  -- General instructions (40_general.md)
  if o = 0x00 then bothZero .nop
  else if o = 0x01 then bothZero .stop
  else if o = 0x02 then bothZero .halt
  else if o = 0x03 then some (.sec (xxField op))
  else if o = 0x04 then bothZero .cec
  else if o = 0x05 then bothZero .di
  else if o = 0x06 then bothZero .ei
  else if o = 0x07 then bothZero .daa
  else if o = 0x08 then bothZero .scf
  else if o = 0x09 then bothZero .ccf
  else if o = 0x0A then yZero (.flg (xField op))
  else if o = 0x0B then yZero (.stf (xField op))
  else if o = 0x0C then yZero (.clf (xField op))
  -- Data transfer (41_data_transfer.md)
  else if o = 0x10 then yZero (.ldImm x imm)
  else if o = 0x11 then yZero (.ldAbs x imm)
  else if o = 0x12 then some (.ldInd x y)
  else if o = 0x13 then yZero (.ldhAbs x (imm.setWidth 16))
  else if o = 0x14 then some (.ldhInd x y)
  else if o = 0x15 then yZero (.ldpAbs x (imm.setWidth 8))
  else if o = 0x16 then some (.ldpInd x y)
  else if o = 0x17 then xZero (.stAbs imm y)
  else if o = 0x18 then some (.stInd x y)
  else if o = 0x19 then xZero (.sthAbs (imm.setWidth 16) y)
  else if o = 0x1A then some (.sthInd x y)
  else if o = 0x1B then xZero (.stpAbs (imm.setWidth 8) y)
  else if o = 0x1C then some (.stpInd x y)
  else if o = 0x1D then some (.mv x y)
  else if o = 0x1E then yZero (.pop x)
  else if o = 0x1F then xZero (.push y)
  -- Control transfer (42_control_transfer.md)
  else if o = 0x20 then yZero (.jmpImm (Cond.ofCode (xField op)) imm)
  else if o = 0x21 then some (.jmpReg (Cond.ofCode (xField op)) y)
  else if o = 0x22 then yZero (.jpb (Cond.ofCode (xField op)) (imm.setWidth 16))
  else if o = 0x23 then yZero (.call (Cond.ofCode (xField op)) imm)
  else if o = 0x24 then some (.intVec (xxField op))
  else if o = 0x25 then yZero (.ret (Cond.ofCode (xField op)))
  else if o = 0x26 then bothZero .reti
  -- Arithmetic (43_arithmetic.md)
  else if o = 0x30 then yZero (.incReg x)
  else if o = 0x31 then yZero (.incMem x)
  else if o = 0x32 then yZero (.decReg x)
  else if o = 0x33 then yZero (.decMem x)
  else if o = 0x34 then yZero (.addImm x imm)
  else if o = 0x35 then yZero (.addAbs x imm)
  else if o = 0x36 then some (.addInd x y)
  else if o = 0x37 then yZero (.adcImm x imm)
  else if o = 0x38 then yZero (.adcAbs x imm)
  else if o = 0x39 then some (.adcInd x y)
  else if o = 0x3A then yZero (.subImm x imm)
  else if o = 0x3B then yZero (.subAbs x imm)
  else if o = 0x3C then some (.subInd x y)
  else if o = 0x3D then yZero (.sbcImm x imm)
  else if o = 0x3E then yZero (.sbcAbs x imm)
  else if o = 0x3F then some (.sbcInd x y)
  -- Bitwise (44_bitwise.md)
  else if o = 0x40 then yZero (.andImm x imm)
  else if o = 0x41 then yZero (.andAbs x imm)
  else if o = 0x42 then some (.andInd x y)
  else if o = 0x43 then yZero (.orImm x imm)
  else if o = 0x44 then yZero (.orAbs x imm)
  else if o = 0x45 then some (.orInd x y)
  else if o = 0x46 then yZero (.xorImm x imm)
  else if o = 0x47 then yZero (.xorAbs x imm)
  else if o = 0x48 then some (.xorInd x y)
  else if o = 0x4C then yZero (.notReg x)
  else if o = 0x4D then yZero (.notMem x)
  -- Comparison (45_comparison.md)
  else if o = 0x50 then yZero (.cmpImm x imm)
  else if o = 0x51 then yZero (.cmpAbs x imm)
  else if o = 0x52 then some (.cmpInd x y)
  -- Shifts and rotates (46_shift_rotate.md)
  else if o = 0x60 then yZero (.slaReg x)
  else if o = 0x61 then yZero (.slaMem x)
  else if o = 0x62 then yZero (.sraReg x)
  else if o = 0x63 then yZero (.sraMem x)
  else if o = 0x64 then yZero (.srlReg x)
  else if o = 0x65 then yZero (.srlMem x)
  else if o = 0x66 then yZero (.rlReg x)
  else if o = 0x67 then yZero (.rlMem x)
  else if o = 0x68 then yZero (.rlcReg x)
  else if o = 0x69 then yZero (.rlcMem x)
  else if o = 0x6A then yZero (.rrReg x)
  else if o = 0x6B then yZero (.rrMem x)
  else if o = 0x6C then yZero (.rrcReg x)
  else if o = 0x6D then yZero (.rrcMem x)
  -- Bit testing and manipulation (47_bit_ops.md)
  else if o = 0x70 then yZero (.bitReg (imm.setWidth 8) x)
  else if o = 0x71 then yZero (.bitMem (imm.setWidth 8) x)
  else if o = 0x72 then yZero (.togReg (imm.setWidth 8) x)
  else if o = 0x73 then yZero (.togMem (imm.setWidth 8) x)
  else if o = 0x74 then yZero (.setReg (imm.setWidth 8) x)
  else if o = 0x75 then yZero (.setMem (imm.setWidth 8) x)
  else if o = 0x76 then yZero (.resReg (imm.setWidth 8) x)
  else if o = 0x77 then yZero (.resMem (imm.setWidth 8) x)
  else none

/-- The little-endian value of some bytes (R71). -/
def leValue : List Byte → Word
  | []      => 0
  | b :: bs => b.setWidth 32 ||| (leValue bs <<< 8)

/-- The low `n` bytes of a value, least significant first (R71). -/
def leBytes : Nat → Word → List Byte
  | 0, _     => []
  | n + 1, v => v.setWidth 8 :: leBytes n (v >>> 8)

/-- Why some bytes are no instruction. -/
inductive DecodeError where
  /-- The opcode matches no row of R119 (R120, R121): the CPU raises `INVALID_OPCODE`. -/
  | invalidOpcode
  /-- The bytes end before the instruction does. -/
  | truncated
  deriving DecidableEq, Repr

/-- The decoder: the instruction at the head of some bytes, and the bytes after it (R111, R118). -/
def decode (strict : Bool) : List Byte → Except DecodeError (Instr × List Byte)
  | b0 :: b1 :: rest =>
    let op : Half := b1 ++ b0
    let n := immBytes op
    match Instr.ofOpcode strict op (leValue (rest.take n)) with
    | none   => .error .invalidOpcode
    | some i => if rest.length < n then .error .truncated else .ok (i, rest.drop n)
  | _ => .error .truncated

/-- The bytes of an instruction whose bits are `w`, the first byte bits 7:0. -/
def tableBytes (nbits w : Nat) : List Byte :=
  leBytes 4 (BitVec.ofNat 32 (w % 2 ^ nbits)) ++ leBytes 2 (BitVec.ofNat 32 (w % 2 ^ nbits / 2 ^ 32))

/-- The instruction the decoder reads from an instruction whose bits are `w`, of which the opcode table gives `nbits`. -/
def decodeTableWord (nbits w : Nat) : Option Instr :=
  match decode true (tableBytes nbits w) with
  | .ok (i, _) => some i
  | .error _   => none

/-! ## The encoder -/

/-- The opcode of an instruction (R119). -/
def Instr.opcode : Instr → Half
  -- General instructions (40_general.md)
  | .nop => opcodeXY 0x00 0 0
  | .stop => opcodeXY 0x01 0 0
  | .halt => opcodeXY 0x02 0 0
  | .sec xx => opcodeXX 0x03 xx
  | .cec => opcodeXY 0x04 0 0
  | .di => opcodeXY 0x05 0 0
  | .ei => opcodeXY 0x06 0 0
  | .daa => opcodeXY 0x07 0 0
  | .scf => opcodeXY 0x08 0 0
  | .ccf => opcodeXY 0x09 0 0
  | .flg k => opcodeXY 0x0A k 0
  | .stf k => opcodeXY 0x0B k 0
  | .clf k => opcodeXY 0x0C k 0
  -- Data transfer (41_data_transfer.md)
  | .ldImm x _ => opcodeXY 0x10 x.code 0
  | .ldAbs x _ => opcodeXY 0x11 x.code 0
  | .ldInd x y => opcodeXY 0x12 x.code y.code
  | .ldhAbs x _ => opcodeXY 0x13 x.code 0
  | .ldhInd x y => opcodeXY 0x14 x.code y.code
  | .ldpAbs x _ => opcodeXY 0x15 x.code 0
  | .ldpInd x y => opcodeXY 0x16 x.code y.code
  | .stAbs _ y => opcodeXY 0x17 0 y.code
  | .stInd x y => opcodeXY 0x18 x.code y.code
  | .sthAbs _ y => opcodeXY 0x19 0 y.code
  | .sthInd x y => opcodeXY 0x1A x.code y.code
  | .stpAbs _ y => opcodeXY 0x1B 0 y.code
  | .stpInd x y => opcodeXY 0x1C x.code y.code
  | .mv x y => opcodeXY 0x1D x.code y.code
  | .pop x => opcodeXY 0x1E x.code 0
  | .push y => opcodeXY 0x1F 0 y.code
  -- Control transfer (42_control_transfer.md)
  | .jmpImm z _ => opcodeXY 0x20 z.code 0
  | .jmpReg z y => opcodeXY 0x21 z.code y.code
  | .jpb z _ => opcodeXY 0x22 z.code 0
  | .call z _ => opcodeXY 0x23 z.code 0
  | .intVec xx => opcodeXX 0x24 xx
  | .ret z => opcodeXY 0x25 z.code 0
  | .reti => opcodeXY 0x26 0 0
  -- Arithmetic (43_arithmetic.md)
  | .incReg x => opcodeXY 0x30 x.code 0
  | .incMem x => opcodeXY 0x31 x.code 0
  | .decReg x => opcodeXY 0x32 x.code 0
  | .decMem x => opcodeXY 0x33 x.code 0
  | .addImm x _ => opcodeXY 0x34 x.code 0
  | .addAbs x _ => opcodeXY 0x35 x.code 0
  | .addInd x y => opcodeXY 0x36 x.code y.code
  | .adcImm x _ => opcodeXY 0x37 x.code 0
  | .adcAbs x _ => opcodeXY 0x38 x.code 0
  | .adcInd x y => opcodeXY 0x39 x.code y.code
  | .subImm x _ => opcodeXY 0x3A x.code 0
  | .subAbs x _ => opcodeXY 0x3B x.code 0
  | .subInd x y => opcodeXY 0x3C x.code y.code
  | .sbcImm x _ => opcodeXY 0x3D x.code 0
  | .sbcAbs x _ => opcodeXY 0x3E x.code 0
  | .sbcInd x y => opcodeXY 0x3F x.code y.code
  -- Bitwise (44_bitwise.md)
  | .andImm x _ => opcodeXY 0x40 x.code 0
  | .andAbs x _ => opcodeXY 0x41 x.code 0
  | .andInd x y => opcodeXY 0x42 x.code y.code
  | .orImm x _ => opcodeXY 0x43 x.code 0
  | .orAbs x _ => opcodeXY 0x44 x.code 0
  | .orInd x y => opcodeXY 0x45 x.code y.code
  | .xorImm x _ => opcodeXY 0x46 x.code 0
  | .xorAbs x _ => opcodeXY 0x47 x.code 0
  | .xorInd x y => opcodeXY 0x48 x.code y.code
  | .notReg x => opcodeXY 0x4C x.code 0
  | .notMem x => opcodeXY 0x4D x.code 0
  -- Comparison (45_comparison.md)
  | .cmpImm x _ => opcodeXY 0x50 x.code 0
  | .cmpAbs x _ => opcodeXY 0x51 x.code 0
  | .cmpInd x y => opcodeXY 0x52 x.code y.code
  -- Shifts and rotates (46_shift_rotate.md)
  | .slaReg x => opcodeXY 0x60 x.code 0
  | .slaMem x => opcodeXY 0x61 x.code 0
  | .sraReg x => opcodeXY 0x62 x.code 0
  | .sraMem x => opcodeXY 0x63 x.code 0
  | .srlReg x => opcodeXY 0x64 x.code 0
  | .srlMem x => opcodeXY 0x65 x.code 0
  | .rlReg x => opcodeXY 0x66 x.code 0
  | .rlMem x => opcodeXY 0x67 x.code 0
  | .rlcReg x => opcodeXY 0x68 x.code 0
  | .rlcMem x => opcodeXY 0x69 x.code 0
  | .rrReg x => opcodeXY 0x6A x.code 0
  | .rrMem x => opcodeXY 0x6B x.code 0
  | .rrcReg x => opcodeXY 0x6C x.code 0
  | .rrcMem x => opcodeXY 0x6D x.code 0
  -- Bit testing and manipulation (47_bit_ops.md)
  | .bitReg _ x => opcodeXY 0x70 x.code 0
  | .bitMem _ x => opcodeXY 0x71 x.code 0
  | .togReg _ x => opcodeXY 0x72 x.code 0
  | .togMem _ x => opcodeXY 0x73 x.code 0
  | .setReg _ x => opcodeXY 0x74 x.code 0
  | .setMem _ x => opcodeXY 0x75 x.code 0
  | .resReg _ x => opcodeXY 0x76 x.code 0
  | .resMem _ x => opcodeXY 0x77 x.code 0

/-- The immediate of an instruction: its number of bytes and its value (R112, R113). -/
def Instr.immediate : Instr → Nat × Word
  | .nop | .stop | .halt | .sec _ | .cec | .di | .ei | .daa | .scf | .ccf | .flg _ | .stf _ | .clf _ | .ldInd _ _
  | .ldhInd _ _ | .ldpInd _ _ | .stInd _ _ | .sthInd _ _ | .stpInd _ _ | .mv _ _ | .pop _ | .push _ | .jmpReg _ _
  | .intVec _ | .ret _ | .reti | .incReg _ | .incMem _ | .decReg _ | .decMem _ | .addInd _ _ | .adcInd _ _
  | .subInd _ _ | .sbcInd _ _ | .andInd _ _ | .orInd _ _ | .xorInd _ _ | .notReg _ | .notMem _ | .cmpInd _ _
  | .slaReg _ | .slaMem _ | .sraReg _ | .sraMem _ | .srlReg _ | .srlMem _ | .rlReg _ | .rlMem _ | .rlcReg _
  | .rlcMem _ | .rrReg _ | .rrMem _ | .rrcReg _ | .rrcMem _ => (0, 0)
  | .ldImm x imm | .addImm x imm | .adcImm x imm | .subImm x imm | .sbcImm x imm | .andImm x imm | .orImm x imm
  | .xorImm x imm | .cmpImm x imm => (x.bytes, imm)
  | .ldAbs _ addr | .stAbs addr _ | .addAbs _ addr | .adcAbs _ addr | .subAbs _ addr | .sbcAbs _ addr
  | .andAbs _ addr | .orAbs _ addr | .xorAbs _ addr | .cmpAbs _ addr => (4, addr)
  | .jmpImm _ target | .call _ target => (4, target)
  | .ldhAbs _ addr | .sthAbs addr _ => (2, addr.setWidth 32)
  | .jpb _ disp => (2, disp.setWidth 32)
  | .ldpAbs _ addr | .stpAbs addr _ => (1, addr.setWidth 32)
  | .bitReg xd _ | .bitMem xd _ | .togReg xd _ | .togMem xd _ | .setReg xd _ | .setMem xd _ | .resReg xd _
  | .resMem xd _ => (1, xd.setWidth 32)

/-- The length of an instruction in bytes (R112). -/
def Instr.length (i : Instr) : Nat := 2 + i.immediate.1

/-- The bytes of an instruction, ascending (R111). -/
def encode (i : Instr) : List Byte :=
  i.opcode.setWidth 8 :: (i.opcode >>> 8).setWidth 8 :: leBytes i.immediate.1 i.immediate.2

end Sys2Proof
end

