-- ==== Sys2Proof/Config.lean ====
section
/-! DEFINITION. What the platform fixes for the machine (the OPEN parameters of rule R7) and the one value the spec
leaves free (rule R14). A `Config` is plain data: the state carries it and no step changes it, so that a statement about
every state is a statement about every platform. -/

namespace Sys2Proof

/-- One refinement of the permissions of R73 by a platform (R76: it may narrow, never grant): the accesses it refuses in
the addresses `first` to `last`. An unpopulated range (R88) refuses all three. -/
structure Restriction where
  first   : Addr
  last    : Addr
  read    : Bool
  write   : Bool
  execute : Bool
  deriving DecidableEq, Repr

/-- The readings of `MV X, Y` between registers of different widths that the spec names (R184, U6). -/
inductive MvMixedWidth where
  /-- The default: the source zero-extended, then truncated to the destination's width. -/
  | zeroExtendTruncate
  /-- The strictest reading: `INVALID_ARGUMENT`. -/
  | invalidArgument
  deriving DecidableEq, Repr

/-- The platform's parameters (R7). -/
structure Config where
  /-- `STRICT_ZERO_NIBBLE` (R121). -/
  strictZeroNibble : Bool
  /-- `MV_MIXED_WIDTH` (R184). -/
  mvMixedWidth     : MvMixedWidth
  /-- `INT_CLEARS_IME` (R352). -/
  intClearsIme     : Bool
  /-- `Populated` and the refinements of `Perm` (R76, R88). -/
  restrictions     : List Restriction
  deriving DecidableEq, Repr

/-- The defaults of R7, the ones the spec's vectors use. -/
def Config.standard : Config :=
  { strictZeroNibble := true, mvMixedWidth := .zeroExtendTruncate, intClearsIme := false, restrictions := [] }

/-- `unspecified(1)` (R14): the value of the n-th draw. It has no body: nothing can be proved of it. -/
opaque Config.unspecifiedBit : Nat → Bool

end Sys2Proof
end

