-- ==== Sys2Proof/Machine/State.lean ====
section
/-! DEFINITION. The machine's state as plain data: every register of 10_state.md, the run state `Faulted` of rule R344,
memory, what the platform is about to do to the CPU, and three fields of the model's own; the reasons a step stops; and the
state after reset (R49). -/

namespace Sys2Proof.Machine

/-- Memory (R54, R70): the listed bytes, by rising address; every other byte reads as `unlistedByte`. -/
abbrev Memory := List Host.Cell

/-- What an unlisted byte reads as. DESIGN CHOICE, log 1: the spec leaves `InitMem` open. -/
def unlistedByte : Byte := 0

/-- What the platform may do to the CPU (R6). -/
inductive PlatformEvent where
  /-- `IF[k] <- 1` (R345). -/
  | raiseInterrupt (k : BitVec 5)
  /-- `IF[k] <- 0` by a platform path (R345, `IE_IF_ACCESS`). -/
  | clearInterrupt (k : BitVec 5)
  /-- `IE <- v` by a platform path (R50, `IE_IF_ACCESS`). -/
  | writeEnable (v : Word)
  /-- `F[31:16] <- v` (R45). -/
  | writeSoftFlags (v : Half)
  /-- A byte behind the bus changes (R83, R84). -/
  | writeByte (a : Addr) (v : Byte)
  /-- `HwError` (R340). -/
  | hwError
  deriving DecidableEq, Repr

/-- The answer of a device to the read of one byte (`IoRead`, R84): the byte, and what the read makes the platform do. -/
structure IoAnswer where
  value  : Byte
  events : List PlatformEvent
  deriving DecidableEq, Repr

/-- What the platform does in one stopped frame: registers and memory are preserved in `STOP`, but for lines that become
pending (R356) and the wake (R357). -/
structure Standby where
  /-- The bits of `IF` it sets. -/
  lines : Word
  /-- `WakeEvent`. -/
  wake  : Bool
  deriving DecidableEq, Repr

/-- The machine. -/
structure State where
  /-- `A` (R20). -/
  a         : Word
  /-- `B` (R20). -/
  b         : Word
  /-- `C` (R20). -/
  c         : Word
  /-- `D` (R20). -/
  d         : Word
  /-- `PC` (R25). -/
  pc        : Word
  /-- `IP` (R26). -/
  ip        : Word
  /-- `SP` (R27). -/
  sp        : Word
  /-- `SA` (R28). -/
  sa        : Word
  /-- `DA` (R28). -/
  da        : Word
  /-- `SD` (R28). -/
  sd        : Word
  /-- `F` (R35). -/
  f         : Word
  /-- `IF` (R34, R46). -/
  intFlags  : Word
  /-- `IE` (R50, R46). -/
  intEnable : Word
  /-- `CI` (R29). -/
  ci        : Half
  /-- `EC` (R30). -/
  ec        : Byte
  /-- `XD` (R31). -/
  xd        : Byte
  /-- `IME` (R32). -/
  ime       : Bool
  /-- `EI` (R33). -/
  ei        : Bool
  /-- The run state `Faulted` (R344). -/
  faulted   : Bool
  /-- Memory (R54). -/
  mem       : Memory
  /-- The platform's coming acts, one list for each coming cycle (R6, R17; log 2). -/
  platform  : List (List PlatformEvent)
  /-- What the platform does in the coming stopped frames, one entry for each (R356, R357; log 2). -/
  standby   : List Standby
  /-- The devices' answers to the coming reads of their bytes (`IoRead`, R7, R84; log 12). -/
  ioReads   : List IoAnswer
  /-- What the coming writes of the devices' bytes make the platform do (`IoWrite`, R7, R84; log 12). -/
  ioWrites  : List (List PlatformEvent)
  /-- A hardware error that waits for its delivery (R340; log 3). -/
  hwError   : Bool
  /-- The platform's parameters (R7); no step changes them (log 4). -/
  cfg       : Config
  /-- The model's own: how many cycles have been consumed (R17, R392; log 5). -/
  cycles    : Nat
  /-- The model's own: an exception has been entered since the frame's instruction began (R330 step 2b; log 6). -/
  raised    : Bool
  /-- The model's own: how many unspecified bits have been drawn (R14; log 7). -/
  draws     : Nat
  deriving DecidableEq, Repr

/-- Why the machine stops with a fault. -/
inductive Fault where
  /-- Raised by `step` on a state that is `Faulted` already: the stuck state of R344, U8, which only reset leaves.
  Safe (log 8). -/
  | doubleFault
  deriving DecidableEq, Repr

/-- Why the model gives an instruction no meaning. -/
inductive Refusal where
  /-- Raised by an arm of `exec` for an instruction that has no meaning yet (no arm does). Safe. -/
  | notModelled (mnemonic : String)
  deriving DecidableEq, Repr

/-- The state after reset (R49, R380): memory all `unlistedByte` (log 1), the platform still (log 2), no device (log 12),
the parameters at the defaults of R7 (log 4). -/
def State.reset : State :=
  { a := 0, b := 0, c := 0, d := 0
    pc := 0x00003000, ip := 0, sp := 0xFFFEFFFC, sa := 0, da := 0, sd := 0
    f := 0, intFlags := 0, intEnable := 0, ci := 0, ec := 0, xd := 0, ime := false, ei := false, faulted := false
    mem := [], platform := [], standby := [], ioReads := [], ioWrites := [], hwError := false, cfg := Config.standard
    cycles := 0, raised := false, draws := 0 }

end Sys2Proof.Machine
end

