-- ==== Sys2Proof/Machine/Flags.lean ====
section
/-! DEFINITION. The flags register `F` (R35), the flag helper functions (R47), the six-symbol flags column (R13, R15), and
the draw of an unspecified bit (R14). -/

namespace Sys2Proof.Machine

/-- The named bits of `F` (R35). -/
inductive Flag where
  | T | L | P | S | C | H | N | Z
  deriving DecidableEq, Repr

/-- The bit of `F` a flag is (R35). -/
def flagBit : Flag → Nat
  | .T => 0 | .L => 1 | .P => 2 | .S => 3 | .C => 4 | .H => 5 | .N => 6 | .Z => 7

/-- `v` with bit `k` set to `b`. -/
def putBit {w : Nat} (v : BitVec w) (k : Nat) (b : Bool) : BitVec w :=
  if b then v ||| (BitVec.ofNat w 1 <<< k) else v &&& ~~~(BitVec.ofNat w 1 <<< k)

/-- `F.Z`, `F.N` and so on. -/
def State.flag (s : State) (g : Flag) : Bool := s.f.getLsbD (flagBit g)

/-- `F.g <- b`. -/
def State.setFlag (s : State) (g : Flag) (b : Bool) : State := { s with f := putBit s.f (flagBit g) b }

/-! ## Flag helper functions (R47) -/

/-- `popcount` (R9). -/
def popcount {w : Nat} (v : BitVec w) : Nat := (List.range w).countP fun i => v.getLsbD i

/-- `ZeroOf(r, w)`. -/
def zeroOf {w : Nat} (r : BitVec w) : Bool := r == 0

/-- `ParityOf(r, w)`: an even number of set bits. -/
def parityOf {w : Nat} (r : BitVec w) : Bool := popcount r % 2 == 0

/-- `SignOf(r, w)`: bit `w - 1`. -/
def signOf {w : Nat} (r : BitVec w) : Bool := r.getLsbD (w - 1)

/-- `CarryAdd(x, y, c, w)`: the exact sum does not fit. -/
def carryAdd {w : Nat} (x y : BitVec w) (c : Bool) : Bool := decide (x.toNat + y.toNat + c.toNat > 2 ^ w - 1)

/-- `BorrowSub(x, y, c, w)`: the exact difference is negative. -/
def borrowSub {w : Nat} (x y : BitVec w) (c : Bool) : Bool := decide (x.toNat < y.toNat + c.toNat)

/-- `hmask(w)`: the low `w - 4` bits. -/
def hmask (w : Nat) : Nat := 2 ^ (w - 4) - 1

/-- `HalfAdd(x, y, c, w)`; at 32 bits the unspecified bit `u`. -/
def halfAdd {w : Nat} (x y : BitVec w) (c u : Bool) : Bool :=
  if w = 32 then u else decide ((x.toNat &&& hmask w) + (y.toNat &&& hmask w) + c.toNat > hmask w)

/-- `HalfSub(x, y, c, w)`; at 32 bits the unspecified bit `u`. -/
def halfSub {w : Nat} (x y : BitVec w) (c u : Bool) : Bool :=
  if w = 32 then u else decide ((x.toNat &&& hmask w) < (y.toNat &&& hmask w) + c.toNat)

/-! ## The flags column -/

/-- What an instruction does to the six condition flags, in the order `ZNHCSP`: `none` leaves a flag unchanged. -/
structure Column where
  z : Option Bool
  n : Option Bool
  h : Option Bool
  c : Option Bool
  s : Option Bool
  p : Option Bool
  deriving DecidableEq, Repr

/-- Write one flag, or leave it. -/
def State.putFlag (s : State) (g : Flag) : Option Bool → State
  | none   => s
  | some b => s.setFlag g b

/-- Write the condition flags as a column says. -/
def State.putColumn (s : State) (k : Column) : State :=
  (((((s.putFlag .Z k.z).putFlag .N k.n).putFlag .H k.h).putFlag .C k.c).putFlag .S k.s).putFlag .P k.p

/-! ## Unspecified bits (R14) -/

/-- The next unspecified bit. -/
def State.freeBit (s : State) : Bool := Config.unspecifiedBit s.draws

/-- An operation on `w` bits that computes `H` has drawn a bit if `w` is 32 (R41, D13). -/
def State.drawH (s : State) (w : Nat) : State := if w = 32 then { s with draws := s.draws + 1 } else s

/-! ## Conditions (R115) -/

/-- `cond(z)`; an unassigned code has no truth value and is never asked for one (R200(d)). -/
def State.cond (s : State) : Cond → Bool
  | .nc => true
  | .zc => !s.flag .Z
  | .zs => s.flag .Z
  | .cc => !s.flag .C
  | .cs => s.flag .C
  | .pc => !s.flag .P
  | .ps => s.flag .P
  | .sc => !s.flag .S
  | .ss => s.flag .S
  | .u5 | .u6 | .u7 | .u8 | .uD | .uE | .uF => false

end Sys2Proof.Machine
end

