-- ==== Sys2Proof/Machine/Ops.lean ====
section
/-! DEFINITION. The operations every instruction is built from: registers (R22), memory and its permissions (R71 to R88), the
platform's clock and the bus (R6, R17, R76), the stack (R80), taking an exception (R341, R344), returning (R206, R207),
interrupt entry (R347), fetch (R79), and reset (R380). -/

namespace Sys2Proof.Machine

/-- What an execute stage answers. -/
abbrev Result := Host.Outcome State Fault Refusal

/-! ## General registers (R20 to R23) -/

/-- A full register. -/
def State.full (s : State) : Full → Word
  | .A => s.a | .B => s.b | .C => s.c | .D => s.d

/-- Write a full register. -/
def State.setFull (s : State) (v : Word) : Full → State
  | .A => { s with a := v } | .B => { s with b := v } | .C => { s with c := v } | .D => { s with d := v }

/-- `old` with the `w` bits from bit `lo` replaced by `v`. -/
def putField (old : Word) (lo : Nat) {w : Nat} (v : BitVec w) : Word :=
  (old &&& ~~~((BitVec.allOnes w).setWidth 32 <<< lo)) ||| (v.setWidth 32 <<< lo)

/-- `x[n]`: the named view of the full register (R21). -/
def State.readReg (s : State) (r : Reg) : BitVec r.bits := (s.full r.full).extractLsb' r.view.lsb r.bits

/-- `x[n] <- v`: exactly the named view is replaced (R22). -/
def State.writeReg (s : State) (r : Reg) (v : BitVec r.bits) : State :=
  s.setFull (putField (s.full r.full) r.view.lsb v) r.full

/-- The value of a 32-bit register operand used as an address (R85). -/
def State.address (s : State) (r : Reg) : Addr := (s.readReg r).setWidth 32

/-! ## Bytes of memory -/

/-- The byte at an address. -/
def Memory.read : Memory → Nat → Byte
  | [], _            => unlistedByte
  | (k, b) :: m, adr => if k = adr then b else Memory.read m adr

/-- Memory with no entry at an address. -/
def Memory.drop (m : Memory) (adr : Nat) : Memory := m.filter fun c => c.1 != adr

/-- Memory with an entry at an address, in its place. -/
def Memory.put : Memory → Nat → Byte → Memory
  | [], adr, v => [(adr, v)]
  | (k, b) :: m, adr, v =>
    if adr < k then (adr, v) :: (k, b) :: m
    else if adr = k then (adr, v) :: m
    else (k, b) :: Memory.put m adr v

/-- Write one byte: the value an unlisted byte reads as is not listed. -/
def Memory.write (m : Memory) (adr : Nat) (v : Byte) : Memory :=
  if v = unlistedByte then m.drop adr else m.put adr v

/-- Every entry of memory lies above `lo`. -/
def Memory.above (lo : Nat) (m : Memory) : Bool := m.all fun c => decide (lo < c.1)

/-- The canonical form: addresses of the address space, strictly rising, no entry that need not be listed. -/
def Memory.wf : Memory → Bool
  | []          => true
  | (k, b) :: m => decide (k < 2 ^ 32) && b != unlistedByte && Memory.above k m && Memory.wf m

/-- The byte of the machine's memory at an address (R70). -/
def State.byte (s : State) (adr : Addr) : Byte := s.mem.read adr.toNat

/-- Place a list of bytes from an address (the loader's act, R383). -/
def Memory.place (m : Memory) : Addr → List Byte → Memory
  | _, []        => m
  | adr, b :: bs => Memory.place (m.write adr.toNat b) (adr + 1) bs

/-! ## The memory map and its permissions (R73 to R76, R88) -/

/-- The nine regions (R73). -/
inductive Region where
  | metadata | vectors | program | ram | execRam | hardwareRam | stack | quickRam | ioPage
  deriving DecidableEq, Repr

/-- The region of an address. -/
def regionOf (adr : Addr) : Region :=
  if adr.toNat ≤ 0x00000FFF then .metadata
  else if adr.toNat ≤ 0x00002FFF then .vectors
  else if adr.toNat ≤ 0x7FFFFFFF then .program
  else if adr.toNat ≤ 0xBFFFFFFF then .ram
  else if adr.toNat ≤ 0xEFFFFFFF then .execRam
  else if adr.toNat ≤ 0xFFFDFFFF then .hardwareRam
  else if adr.toNat ≤ 0xFFFEFFFF then .stack
  else if adr.toNat ≤ 0xFFFFFEFF then .quickRam
  else .ioPage

/-- The kinds of access a permission is about (R74). -/
inductive Access where
  | read | write | execute
  deriving DecidableEq, Repr

/-- The permissions of the regions (R73); the stack window's `*` allows none of the three (R75). -/
def regionAllows : Access → Region → Bool
  | .read, .stack => false
  | .read, .metadata | .read, .vectors | .read, .program | .read, .ram | .read, .execRam | .read, .hardwareRam
  | .read, .quickRam | .read, .ioPage => true
  | .write, .ram | .write, .execRam | .write, .hardwareRam | .write, .quickRam | .write, .ioPage => true
  | .write, .metadata | .write, .vectors | .write, .program | .write, .stack => false
  | .execute, .vectors | .execute, .program | .execute, .execRam => true
  | .execute, .metadata | .execute, .ram | .execute, .hardwareRam | .execute, .stack | .execute, .quickRam
  | .execute, .ioPage => false

/-- A platform's refinement refuses an access (R76, R88; log 12). -/
def restrictionRefuses (k : Access) (adr : Addr) (r : Restriction) : Bool :=
  decide (r.first ≤ adr) && decide (adr ≤ r.last) &&
    match k with
    | .read    => r.read
    | .write   => r.write
    | .execute => r.execute

/-- The bus answers an access at one address (R76). -/
def State.allows (s : State) (k : Access) (adr : Addr) : Bool :=
  regionAllows k (regionOf adr) && !s.cfg.restrictions.any (restrictionRefuses k adr)

/-- The bus answers an access at every one of `n` addresses (R77 to R79, R87). -/
def State.allowsAll (s : State) (k : Access) : Nat → Addr → Bool
  | 0, _       => true
  | n + 1, adr => s.allows k adr && State.allowsAll s k n (adr + 1)

/-! ## The platform and its clock (R6, R17) -/

/-- One act of the platform. -/
def State.platformEvent (s : State) : PlatformEvent → State
  | .raiseInterrupt k => { s with intFlags := putBit s.intFlags k.toNat true }
  | .clearInterrupt k => { s with intFlags := putBit s.intFlags k.toNat false }
  | .writeEnable v    => { s with intEnable := v }
  | .writeSoftFlags v => { s with f := putField s.f 16 v }
  | .writeByte adr v  => { s with mem := s.mem.write adr.toNat v }
  | .hwError          => { s with hwError := true }

/-- The acts of a list, in its order. -/
def State.acts (s : State) (es : List PlatformEvent) : State := es.foldl State.platformEvent s

/-- `Cycle()`: the platform is clocked once and acts (R17). -/
def State.clock (s : State) : State :=
  ({ s with platform := s.platform.tail, cycles := s.cycles + 1 } : State).acts (s.platform.headD [])

/-- `pc <- target; Cycle()`. -/
def State.jump (s : State) (target : Addr) : State := ({ s with pc := target } : State).clock

/-! ## The bus (R76, R84) -/

/-- A byte whose behaviour is the platform's: the I/O page and the hardware-reserved RAM (R84, R362). -/
def isDevice (adr : Addr) : Bool :=
  match regionOf adr with
  | .ioPage | .hardwareRam => true
  | .metadata | .vectors | .program | .ram | .execRam | .stack | .quickRam => false

/-- `BusRead(adr)`, the access being allowed: a device answers with its next answer; without one, and elsewhere, the byte
of memory is read (R76, R84; log 12). -/
def State.busRead (s : State) (adr : Addr) : Byte × State :=
  if isDevice adr then
    match s.ioReads with
    | []           => (s.byte adr, s)
    | r :: answers => (r.value, ({ s with ioReads := answers } : State).acts r.events)
  else (s.byte adr, s)

/-- `BusWrite(adr, v)`, the access being allowed: a device does what it does; without one, and elsewhere, the byte of
memory is written (R76, R84; log 12). -/
def State.busWrite (s : State) (adr : Addr) (v : Byte) : State :=
  if isDevice adr then
    match s.ioWrites with
    | []            => { s with mem := s.mem.write adr.toNat v }
    | es :: effects => ({ s with ioWrites := effects } : State).acts es
  else { s with mem := s.mem.write adr.toNat v }

/-- `n` bytes from an address, read in ascending order, a `Cycle()` after each, as a little-endian value (R71, R77, R86). -/
def State.readBytes (s : State) : Nat → Addr → Word × State
  | 0, _       => (0, s)
  | n + 1, adr =>
    let r := s.busRead adr
    let rest := State.readBytes r.2.clock n (adr + 1)
    (r.1.setWidth 32 ||| (rest.1 <<< 8), rest.2)

/-- The low `n` bytes of a value, written from an address in ascending order, a `Cycle()` after each (R71, R78, R86). -/
def State.writeBytes (s : State) : Nat → Addr → Word → State
  | 0, _, _       => s
  | n + 1, adr, v => State.writeBytes (s.busWrite adr (v.setWidth 8)).clock n (adr + 1) (v >>> 8)

/-! ## The stack (R80) -/

/-- The push's test. -/
def State.stackFull (s : State) : Bool := decide (s.sp ≤ 0xFFFE0000)

/-- The pop's test. -/
def State.stackEmpty (s : State) : Bool := decide (0xFFFEFFFC ≤ s.sp)

/-- `Push32(v)` once its test has passed: `sp <- sp - 4; Cycle()`, then the bytes. -/
def State.pushWord (s : State) (v : Word) : State :=
  ({ s with sp := s.sp - 4 } : State).clock.writeBytes 4 (s.sp - 4) v

/-- `Pop32()` once its test has passed: the bytes, then `sp <- sp + 4; Cycle()`. -/
def State.popWord (s : State) : Word × State :=
  let r := s.readBytes 4 s.sp
  (r.1, ({ r.2 with sp := s.sp + 4 } : State).clock)

/-! ## Exceptions (R331, R341, R344) -/

/-- The exceptions the machine raises (R331); `DIVIDE_BY_ZERO` is never raised (R339). -/
inductive Exc where
  | invalidOpcode | invalidArgument | invalidRead | invalidWrite | invalidExecute | stackOverflow | stackUnderflow
  | hardwareError
  deriving DecidableEq, Repr

/-- The code of an exception (R331). -/
def Exc.code : Exc → Byte
  | .invalidOpcode   => 0x01
  | .invalidArgument => 0x02
  | .invalidRead     => 0x03
  | .invalidWrite    => 0x04
  | .invalidExecute  => 0x05
  | .stackOverflow   => 0x06
  | .stackUnderflow  => 0x07
  | .hardwareError   => 0x09

/-- The address of interrupt vector `k` (R354). -/
def vectorAddress (k : Nat) : Addr := 0x00001000 + 0x100 * BitVec.ofNat 32 k

/-- `DoubleFault()` (R344). -/
def State.doubleFault (s : State) : State := { s with ec := Exc.stackOverflow.code, faulted := true }

/-- `INT_CLEARS_IME` (R7, R352): whether `INT XX` and exception entry clear `IME`. -/
def State.enterByInt (s : State) : State := { s with ime := s.ime && !s.cfg.intClearsIme }

/-- `ExceptionEntry(code)` (R341). -/
def State.takeException (s : State) (e : Exc) : State :=
  let t := { s with ec := e.code, raised := true }
  if t.stackFull then t.doubleFault
  else ((t.pushWord t.pc).enterByInt).jump (vectorAddress 0)

/-- `raise E`: the instruction is abandoned and the exception entered (R12). -/
def raise (e : Exc) (s : State) : Result := .next (s.takeException e)

/-- An argument constraint (R122): the rest of the instruction runs only if it holds. -/
def requireArg (ok : Bool) (s : State) (k : Result) : Result := if ok then k else raise .invalidArgument s

/-! ## The access primitives (R77 to R80) as the instruction rules use them -/

/-- `SA <- adr; SD <- MemRead(adr, n)`, every byte being allowed: the value and the state. -/
def State.dataRead (s : State) (adr : Addr) (n : Nat) : Word × State :=
  let r := ({ s with sa := adr } : State).readBytes n adr
  (r.1, { r.2 with sd := r.1 })

/-- `DA <- adr; MemWrite(adr, n, v)`, every byte being allowed. -/
def State.dataWrite (s : State) (adr : Addr) (n : Nat) (v : Word) : State :=
  ({ s with da := adr } : State).writeBytes n adr v

/-- `SA <- adr; SD <- MemRead(adr, n)`, then `k` (R77): every byte is checked before one is read. -/
def withRead (adr : Addr) (n : Nat) (s : State) (k : Word → State → Result) : Result :=
  if s.allowsAll .read n adr then k (s.dataRead adr n).1 (s.dataRead adr n).2
  else raise .invalidRead { s with sa := adr }

/-- `DA <- adr; MemWrite(adr, n, v)`, then `k` (R78): every byte is checked before one is written. -/
def withWrite (adr : Addr) (n : Nat) (v : Word) (s : State) (k : State → Result) : Result :=
  if s.allowsAll .write n adr then k (s.dataWrite adr n v)
  else raise .invalidWrite { s with da := adr }

/-- `Push32(v)`, then `k` (R80). -/
def withPush (v : Word) (s : State) (k : State → Result) : Result :=
  if s.stackFull then raise .stackOverflow s else k (s.pushWord v)

/-- `Pop32()`, then `k` with the double-word popped (R80). -/
def withPop (s : State) (k : Word → State → Result) : Result :=
  if s.stackEmpty then raise .stackUnderflow s else k s.popWord.1 s.popWord.2

/-- `t <- Pop32(); pc <- t; Cycle()`: the return of `RET` and `RETI` (R206, R207). -/
def returnFrom (s : State) : Result := withPop s fun t u => .next (u.jump t)

/-! ## Interrupt entry (R347) -/

/-- `InterruptEntry(k)`. -/
def State.takeInterrupt (s : State) (k : Nat) : State :=
  if s.stackFull then s.takeException .stackOverflow
  else
    let t := { s with intFlags := putBit s.intFlags k false, ime := false }.setFlag .H false
    (t.pushWord t.pc).jump (vectorAddress k)

/-! ## Instruction fetch (R79) -/

/-- `Fetch(n)`: the value and the state with `pc` past it, or nothing where some byte is not executable. -/
def State.fetch (s : State) (n : Nat) : Option (Word × State) :=
  if s.allowsAll .execute n s.pc then
    let r := s.readBytes n s.pc
    some (r.1, { r.2 with pc := s.pc + BitVec.ofNat 32 n })
  else none

/-! ## Reset (R380) -/

/-- `Reset()` by the host at any time: the CPU at its reset values, memory as the platform provides it (`init`); the
platform's own side stays (log 3). -/
def State.hostReset (s : State) (init : Memory) : State :=
  { State.reset with
    mem := init, platform := s.platform, standby := s.standby, ioReads := s.ioReads, ioWrites := s.ioWrites
    hwError := s.hwError, cfg := s.cfg, cycles := s.cycles, draws := s.draws }

end Sys2Proof.Machine
end

