-- ==== Sys2Proof/Machine/Operands.lean ====
section
/-! DEFINITION. The operand forms: the effective addresses of rule R85, the three forms of a second operand (R220(b)), loads
and stores over an effective address (R170 to R183), and the read-modify-write of one byte (R82, R222, R280(g), R310(f)). -/

namespace Sys2Proof.Machine

/-! ## Effective addresses (R85) -/

/-- `0xFFFF0000 + zext_32(h)`: `[ADDR16]`, `[X16]`, `[Y16]`. -/
def highPage {w : Nat} (h : BitVec w) : Addr := 0xFFFF0000 + h.setWidth 32

/-- `0xFFFFFF00 + zext_32(b)`: `[ADDR8]`, `[X8]`, `[Y8]`. -/
def portPage {w : Nat} (b : BitVec w) : Addr := 0xFFFFFF00 + b.setWidth 32

/-! ## The second operand (R220(b)) -/

/-- Form `IMM`: the immediate at the width of `X`. -/
def withImm (x : Reg) (imm : Word) (s : State) (k : BitVec x.bits → State → Result) : Result :=
  k (imm.setWidth x.bits) s

/-- Form `[ADDR32]`: the memory operand at the width of `X`. -/
def withAbs (x : Reg) (adr : Addr) (s : State) (k : BitVec x.bits → State → Result) : Result :=
  withRead adr x.bytes s fun v t => k (v.setWidth x.bits) t

/-- Form `[Y32]`: the memory operand at the width of `X`, at the address in `Y`. -/
def withInd (x y : Reg) (s : State) (k : BitVec x.bits → State → Result) : Result :=
  requireArg (y.bits == 32) s (withAbs x (s.address y) s k)

/-! ## Loads and stores -/

/-- `SA <- adr; SD <- MemRead(SA, w(X)/8); x[X] <- SD` (R170(b), R170(c)). -/
def loadFrom (x : Reg) (adr : Addr) (s : State) : Result :=
  withAbs x adr s fun v t => .next (t.writeReg x v)

/-- `DA <- adr; MemWrite(DA, w(Y)/8, x[Y])` (R170(b)). -/
def storeTo (adr : Addr) (y : Reg) (s : State) : Result :=
  withWrite adr y.bytes ((s.readReg y).setWidth 32) s fun t => .next t

/-! ## Read-modify-write of one byte -/

/-- `SA <- x[X]; DA <- x[X]; SD <- MemRead(SA, 1); MemWrite(DA, 1, g(SD)); flags`: the `[X32]` forms. `col` is the flags
column, given the byte read. -/
def modifyByte (x : Reg) (g : Byte → Byte) (col : Byte → Column) (s : State) : Result :=
  requireArg (x.bits == 32) s <|
    withRead (s.address x) 1 { s with da := s.address x } fun v t =>
      withWrite (s.address x) 1 ((g (v.setWidth 8)).setWidth 32) t fun u =>
        .next (u.putColumn (col (v.setWidth 8)))

end Sys2Proof.Machine
end

