-- ==== Sys2Proof/Machine/Alu.lean ====
section
/-! DEFINITION. The cores the arithmetic, bitwise, comparison, shift and bit instructions share: `AddOp` and `SubOp` (R220(d)),
`LogicOp` (R250), `CmpOp` (R273), the seven shifts (R280(d)), the bit operations (R311 to R318) and the decimal adjust
(R157). -/

namespace Sys2Proof.Machine

/-! ## Results -/

/-- `(x + y + c) mod 2^w` (R220(d)). -/
def addValue {w : Nat} (x y : BitVec w) (c : Bool) : BitVec w := BitVec.ofNat w (x.toNat + y.toNat + c.toNat)

/-- `(x - y - c) mod 2^w` (R220(d)). -/
def subValue {w : Nat} (x y : BitVec w) (c : Bool) : BitVec w := x - y - BitVec.ofNat w c.toNat

/-! ## Flags columns -/

/-- Column `?0??0?` of `AddOp`; `u` is the unspecified bit of the 32-bit `H`. -/
def addColumn {w : Nat} (x y : BitVec w) (c u : Bool) : Column :=
  let r := addValue x y c
  { z := some (zeroOf r), n := some false, h := some (halfAdd x y c u), c := some (carryAdd x y c), s := some false,
    p := some (parityOf r) }

/-- Column `?1????` of `SubOp`. -/
def subColumn {w : Nat} (x y : BitVec w) (c u : Bool) : Column :=
  let r := subValue x y c
  { z := some (zeroOf r), n := some true, h := some (halfSub x y c u), c := some (borrowSub x y c), s := some (signOf r),
    p := some (parityOf r) }

/-- Column `?1???-` of `CmpOp` (R273): that of `SubOp` with `P` left alone. -/
def cmpColumn {w : Nat} (x y : BitVec w) (u : Bool) : Column :=
  let r := subValue x y false
  { z := some (zeroOf r), n := some true, h := some (halfSub x y false u), c := some (borrowSub x y false),
    s := some (signOf r), p := none }

/-- Column `?0?--?` of `INC` (R221). -/
def incColumn {w : Nat} (v : BitVec w) (u : Bool) : Column :=
  let r := addValue v 1 false
  { z := some (zeroOf r), n := some false, h := some (halfAdd v 1 false u), c := none, s := none, p := some (parityOf r) }

/-- Column `?1?--?` of `DEC` (R223). -/
def decColumn {w : Nat} (v : BitVec w) (u : Bool) : Column :=
  let r := subValue v 1 false
  { z := some (zeroOf r), n := some true, h := some (halfSub v 1 false u), c := none, s := none, p := some (parityOf r) }

/-- Columns `?0100?` of `AND` (`h` true) and `?0000?` of `OR` and `XOR` (`h` false) (R250). -/
def logicColumn {w : Nat} (r : BitVec w) (h : Bool) : Column :=
  { z := some (zeroOf r), n := some false, h := some h, c := some false, s := some false, p := some (parityOf r) }

/-- Column `-11---` of `NOT` (R260). -/
def notColumn : Column := { z := none, n := some true, h := some true, c := none, s := none, p := none }

/-- Column `?00*-?` of the shifts and rotates (R280(e)). -/
def shiftColumn {w : Nat} (r : BitVec w) (cout : Bool) : Column :=
  { z := some (zeroOf r), n := some false, h := some false, c := some cout, s := none, p := some (parityOf r) }

/-- Column `*01---` of `BIT` (R311): `Z` is the complement of the tested bit. -/
def bitColumn (bit : Bool) : Column :=
  { z := some (!bit), n := some false, h := some true, c := none, s := none, p := none }

/-- A blank column. -/
def blankColumn : Column := { z := none, n := none, h := none, c := none, s := none, p := none }

/-! ## Two-operand arithmetic and logic on register `X` -/

/-- `x[X] <- AddOp(x[X], src, c, w(X))`. -/
def addInto (x : Reg) (src : BitVec x.bits) (c : Bool) (s : State) : Result :=
  let v := s.readReg x
  .next (((s.writeReg x (addValue v src c)).putColumn (addColumn v src c s.freeBit)).drawH x.bits)

/-- `x[X] <- SubOp(x[X], src, c, w(X))`. -/
def subInto (x : Reg) (src : BitVec x.bits) (c : Bool) (s : State) : Result :=
  let v := s.readReg x
  .next (((s.writeReg x (subValue v src c)).putColumn (subColumn v src c s.freeBit)).drawH x.bits)

/-- `CmpOp(x[X], src, w(X))`: no register is written. -/
def compareWith (x : Reg) (src : BitVec x.bits) (s : State) : Result :=
  .next ((s.putColumn (cmpColumn (s.readReg x) src s.freeBit)).drawH x.bits)

/-- `x[X] <- LogicOp(op, …)` with the result `r`; `h` is what the operation does to `H`. -/
def logicInto (x : Reg) (r : BitVec x.bits) (h : Bool) (s : State) : Result :=
  .next ((s.writeReg x r).putColumn (logicColumn r h))

/-! ## Shifts and rotates (R280) -/

/-- The seven shifts and rotates. -/
inductive Shift where
  | sla | sra | srl | rl | rlc | rr | rrc
  deriving DecidableEq, Repr

/-- `v[w-2:0] ++ b`. -/
def shiftLeftIn {w : Nat} (v : BitVec w) (b : Bool) : BitVec w := (v <<< 1) ||| BitVec.ofNat w b.toNat

/-- `b ++ v[w-1:1]`. -/
def shiftRightIn {w : Nat} (v : BitVec w) (b : Bool) : BitVec w := (v >>> 1) ||| (BitVec.ofNat w b.toNat <<< (w - 1))

/-- The result of a shift (R280(d)). -/
def shiftValue {w : Nat} (k : Shift) (v : BitVec w) (cin : Bool) : BitVec w :=
  match k with
  | .sla => shiftLeftIn v false
  | .sra => shiftRightIn v (v.getLsbD (w - 1))
  | .srl => shiftRightIn v false
  | .rl  => shiftLeftIn v cin
  | .rlc => shiftLeftIn v (v.getLsbD (w - 1))
  | .rr  => shiftRightIn v cin
  | .rrc => shiftRightIn v (v.getLsbD 0)

/-- The carry a shift leaves (R280(d)). -/
def shiftCarry {w : Nat} (k : Shift) (v : BitVec w) : Bool :=
  match k with
  | .sla | .rl | .rlc         => v.getLsbD (w - 1)
  | .sra | .srl | .rr | .rrc => v.getLsbD 0

/-- The register form (R280(f)). -/
def shiftReg (k : Shift) (x : Reg) (s : State) : Result :=
  let v := s.readReg x
  let r := shiftValue k v (s.flag .C)
  .next ((s.writeReg x r).putColumn (shiftColumn r (shiftCarry k v)))

/-- The memory form (R280(g)). -/
def shiftMem (k : Shift) (x : Reg) (s : State) : Result :=
  modifyByte x (fun v => shiftValue k v (s.flag .C))
    (fun v => shiftColumn (shiftValue k v (s.flag .C)) (shiftCarry k v)) s

/-! ## Bit operations (R310 to R318) -/

/-- The three that change a bit. -/
inductive BitOp where
  | tog | set | res
  deriving DecidableEq, Repr

/-- `v ^ (1 << xd)`, `v | (1 << xd)`, `v & ~(1 << xd)`. -/
def bitValue {w : Nat} (k : BitOp) (v : BitVec w) (xd : Nat) : BitVec w :=
  match k with
  | .tog => v ^^^ (BitVec.ofNat w 1 <<< xd)
  | .set => v ||| (BitVec.ofNat w 1 <<< xd)
  | .res => v &&& ~~~(BitVec.ofNat w 1 <<< xd)

/-- The register form. -/
def changeBitReg (k : BitOp) (xd : Byte) (x : Reg) (s : State) : Result :=
  requireArg (bitInRange xd x.bits) s (.next (s.writeReg x (bitValue k (s.readReg x) xd.toNat)))

/-- The memory form. -/
def changeBitMem (k : BitOp) (xd : Byte) (x : Reg) (s : State) : Result :=
  requireArg (x.bits == 32 && bitInRange xd 8) s
    (modifyByte x (fun v => bitValue k v xd.toNat) (fun _ => blankColumn) s)

/-! ## Decimal adjust (R157) -/

/-- What `DAA` adds after an addition, or subtracts after a subtraction. -/
def daaAdjustment (al : Byte) (n h c : Bool) : Byte :=
  (if h || (!n && decide ((al &&& 0x0F) > 0x09)) then 0x06 else 0x00) |||
    (if c || (!n && decide (al > 0x99)) then 0x60 else 0x00)

/-- The adjusted byte. -/
def daaValue (al : Byte) (n h c : Bool) : Byte :=
  if n then al - daaAdjustment al n h c else al + daaAdjustment al n h c

/-- The carry after the adjust: set by an addition's upper adjustment, never cleared. -/
def daaCarry (al : Byte) (n c : Bool) : Bool := c || (!n && decide (al > 0x99))

/-- Column `?-0*-?` of `DAA`. -/
def daaColumn (r : Byte) (c : Bool) : Column :=
  { z := some (zeroOf r), n := none, h := some false, c := some c, s := none, p := some (parityOf r) }

end Sys2Proof.Machine
end

