-- ==== Sys2Proof/Machine/Arithmetic.lean ====
section
/-! DEFINITION. The meanings of the arithmetic instructions (43_arithmetic.md, R220 to R236). Each runs after the fetch and
decode of rule R118: `pc` is the address of the next instruction. -/

namespace Sys2Proof.Machine

/-- `INC X` (R221). -/
def execIncReg (x : Reg) (s : State) : Result :=
  let v := s.readReg x
  .next (((s.writeReg x (addValue v 1 false)).putColumn (incColumn v s.freeBit)).drawH x.bits)

/-- `INC [X32]` (R222). -/
def execIncMem (x : Reg) (s : State) : Result :=
  modifyByte x (fun v => addValue v 1 false) (fun v => incColumn v false) s

/-- `DEC X` (R223). -/
def execDecReg (x : Reg) (s : State) : Result :=
  let v := s.readReg x
  .next (((s.writeReg x (subValue v 1 false)).putColumn (decColumn v s.freeBit)).drawH x.bits)

/-- `DEC [X32]` (R224). -/
def execDecMem (x : Reg) (s : State) : Result :=
  modifyByte x (fun v => subValue v 1 false) (fun v => decColumn v false) s

/-- `ADD X, IMM` (R225). -/
def execAddImm (x : Reg) (imm : Word) (s : State) : Result := withImm x imm s fun v t => addInto x v false t

/-- `ADD X, [ADDR32]` (R226). -/
def execAddAbs (x : Reg) (addr : Addr) (s : State) : Result := withAbs x addr s fun v t => addInto x v false t

/-- `ADD X, [Y32]` (R227). -/
def execAddInd (x : Reg) (y : Reg) (s : State) : Result := withInd x y s fun v t => addInto x v false t

/-- `ADC X, IMM` (R228). -/
def execAdcImm (x : Reg) (imm : Word) (s : State) : Result := withImm x imm s fun v t => addInto x v (s.flag .C) t

/-- `ADC X, [ADDR32]` (R229). -/
def execAdcAbs (x : Reg) (addr : Addr) (s : State) : Result := withAbs x addr s fun v t => addInto x v (s.flag .C) t

/-- `ADC X, [Y32]` (R230). -/
def execAdcInd (x : Reg) (y : Reg) (s : State) : Result := withInd x y s fun v t => addInto x v (s.flag .C) t

/-- `SUB X, IMM` (R231). -/
def execSubImm (x : Reg) (imm : Word) (s : State) : Result := withImm x imm s fun v t => subInto x v false t

/-- `SUB X, [ADDR32]` (R232). -/
def execSubAbs (x : Reg) (addr : Addr) (s : State) : Result := withAbs x addr s fun v t => subInto x v false t

/-- `SUB X, [Y32]` (R233). -/
def execSubInd (x : Reg) (y : Reg) (s : State) : Result := withInd x y s fun v t => subInto x v false t

/-- `SBC X, IMM` (R234). -/
def execSbcImm (x : Reg) (imm : Word) (s : State) : Result := withImm x imm s fun v t => subInto x v (s.flag .C) t

/-- `SBC X, [ADDR32]` (R235). -/
def execSbcAbs (x : Reg) (addr : Addr) (s : State) : Result := withAbs x addr s fun v t => subInto x v (s.flag .C) t

/-- `SBC X, [Y32]` (R236). -/
def execSbcInd (x : Reg) (y : Reg) (s : State) : Result := withInd x y s fun v t => subInto x v (s.flag .C) t

end Sys2Proof.Machine
end

