-- ==== Sys2Proof/Machine/BitOps.lean ====
section
/-! DEFINITION. The meanings of the bit testing and manipulation instructions (47_bit_ops.md, R310 to R318). Each runs after the fetch and
decode of rule R118: `pc` is the address of the next instruction. -/

namespace Sys2Proof.Machine

/-- `BIT XD, X` (R311). -/
def execBitReg (xd : Byte) (x : Reg) (s : State) : Result :=
  requireArg (bitInRange xd x.bits) s (.next (s.putColumn (bitColumn ((s.readReg x).getLsbD xd.toNat))))

/-- `BIT XD, [X32]` (R312). -/
def execBitMem (xd : Byte) (x : Reg) (s : State) : Result :=
  requireArg (x.bits == 32 && bitInRange xd 8) s
    (withRead (s.address x) 1 s fun v t => .next (t.putColumn (bitColumn (v.getLsbD xd.toNat))))

/-- `TOG XD, X` (R313). -/
def execTogReg (xd : Byte) (x : Reg) (s : State) : Result := changeBitReg .tog xd x s

/-- `TOG XD, [X32]` (R314). -/
def execTogMem (xd : Byte) (x : Reg) (s : State) : Result := changeBitMem .tog xd x s

/-- `SET XD, X` (R315). -/
def execSetReg (xd : Byte) (x : Reg) (s : State) : Result := changeBitReg .set xd x s

/-- `SET XD, [X32]` (R316). -/
def execSetMem (xd : Byte) (x : Reg) (s : State) : Result := changeBitMem .set xd x s

/-- `RES XD, X` (R317). -/
def execResReg (xd : Byte) (x : Reg) (s : State) : Result := changeBitReg .res xd x s

/-- `RES XD, [X32]` (R318). -/
def execResMem (xd : Byte) (x : Reg) (s : State) : Result := changeBitMem .res xd x s

end Sys2Proof.Machine
end

