-- ==== Sys2Proof/Machine/Bitwise.lean ====
section
/-! DEFINITION. The meanings of the bitwise instructions (44_bitwise.md, R250 to R261). Each runs after the fetch and
decode of rule R118: `pc` is the address of the next instruction. -/

namespace Sys2Proof.Machine

/-- `AND X, IMM` (R251). -/
def execAndImm (x : Reg) (imm : Word) (s : State) : Result :=
  withImm x imm s fun v t => logicInto x (t.readReg x &&& v) true t

/-- `AND X, [ADDR32]` (R252). -/
def execAndAbs (x : Reg) (addr : Addr) (s : State) : Result :=
  withAbs x addr s fun v t => logicInto x (t.readReg x &&& v) true t

/-- `AND X, [Y32]` (R253). -/
def execAndInd (x : Reg) (y : Reg) (s : State) : Result :=
  withInd x y s fun v t => logicInto x (t.readReg x &&& v) true t

/-- `OR X, IMM` (R254). -/
def execOrImm (x : Reg) (imm : Word) (s : State) : Result :=
  withImm x imm s fun v t => logicInto x (t.readReg x ||| v) false t

/-- `OR X, [ADDR32]` (R255). -/
def execOrAbs (x : Reg) (addr : Addr) (s : State) : Result :=
  withAbs x addr s fun v t => logicInto x (t.readReg x ||| v) false t

/-- `OR X, [Y32]` (R256). -/
def execOrInd (x : Reg) (y : Reg) (s : State) : Result :=
  withInd x y s fun v t => logicInto x (t.readReg x ||| v) false t

/-- `XOR X, IMM` (R257). -/
def execXorImm (x : Reg) (imm : Word) (s : State) : Result :=
  withImm x imm s fun v t => logicInto x (t.readReg x ^^^ v) false t

/-- `XOR X, [ADDR32]` (R258). -/
def execXorAbs (x : Reg) (addr : Addr) (s : State) : Result :=
  withAbs x addr s fun v t => logicInto x (t.readReg x ^^^ v) false t

/-- `XOR X, [Y32]` (R259). -/
def execXorInd (x : Reg) (y : Reg) (s : State) : Result :=
  withInd x y s fun v t => logicInto x (t.readReg x ^^^ v) false t

/-- `NOT X` (R260). -/
def execNotReg (x : Reg) (s : State) : Result := .next ((s.writeReg x (~~~s.readReg x)).putColumn notColumn)

/-- `NOT [X32]` (R261). -/
def execNotMem (x : Reg) (s : State) : Result := modifyByte x (fun v => ~~~v) (fun _ => notColumn) s

end Sys2Proof.Machine
end

