-- ==== Sys2Proof/Machine/Comparison.lean ====
section
/-! DEFINITION. The meanings of the comparison instructions (45_comparison.md, R270 to R273). Each runs after the fetch and
decode of rule R118: `pc` is the address of the next instruction. -/

namespace Sys2Proof.Machine

/-- `CMP X, IMM` (R270). -/
def execCmpImm (x : Reg) (imm : Word) (s : State) : Result := withImm x imm s fun v t => compareWith x v t

/-- `CMP X, [ADDR32]` (R271). -/
def execCmpAbs (x : Reg) (addr : Addr) (s : State) : Result := withAbs x addr s fun v t => compareWith x v t

/-- `CMP X, [Y32]` (R272). -/
def execCmpInd (x : Reg) (y : Reg) (s : State) : Result := withInd x y s fun v t => compareWith x v t

end Sys2Proof.Machine
end

