-- ==== Sys2Proof/Machine/ControlTransfer.lean ====
section
/-! DEFINITION. The meanings of the control transfer instructions (42_control_transfer.md, R200 to R208). Each runs after the fetch and
decode of rule R118: `pc` is the address of the next instruction. -/

namespace Sys2Proof.Machine

/-- `JMP Z, IMM32` (R201). -/
def execJmpImm (z : Cond) (target : Addr) (s : State) : Result :=
  requireArg z.assigned s (if s.cond z then .next (s.jump target) else .next s)

/-- `JMP Z, X32` (R202): the register stands in bits 3:0. -/
def execJmpReg (z : Cond) (y : Reg) (s : State) : Result :=
  requireArg (z.assigned && y.bits == 32) s (if s.cond z then .next (s.jump (s.address y)) else .next s)

/-- `JPB Z, SIMM16` (R203): `pc` is past the instruction when the sum is taken. -/
def execJpb (z : Cond) (disp : Half) (s : State) : Result :=
  requireArg z.assigned s (if s.cond z then .next (s.jump (s.pc + disp.signExtend 32)) else .next s)

/-- `CALL Z, IMM32` (R204): pushes the address of the next instruction. -/
def execCall (z : Cond) (target : Addr) (s : State) : Result :=
  requireArg z.assigned s (if s.cond z then withPush s.pc s fun t => .next (t.jump target) else .next s)

/-- `INT XX` (R205): a call of vector `XX`. -/
def execIntVec (xx : Byte) (s : State) : Result :=
  requireArg (decide (xx.toNat ≤ 0x1F)) s
    (withPush s.pc s fun t => .next (t.enterByInt.jump (vectorAddress xx.toNat)))

/-- `RET Z` (R206): pops `pc`. -/
def execRet (z : Cond) (s : State) : Result :=
  requireArg z.assigned s (if s.cond z then returnFrom s else .next s)

/-- `RETI` (R207): the stack is tested first, so that `IME` is untouched on failure. -/
def execReti (s : State) : Result :=
  if s.stackEmpty then raise .stackUnderflow s else returnFrom { s with ime := true }

end Sys2Proof.Machine
end

