-- ==== Sys2Proof/Machine/DataTransfer.lean ====
section
/-! DEFINITION. The meanings of the data transfer instructions (41_data_transfer.md, R170 to R186). Each runs after the fetch and
decode of rule R118: `pc` is the address of the next instruction. -/

namespace Sys2Proof.Machine

/-- `LD X, IMM` (R171). -/
def execLdImm (x : Reg) (imm : Word) (s : State) : Result := withImm x imm s fun v t => .next (t.writeReg x v)

/-- `LD X, [ADDR32]` (R172). -/
def execLdAbs (x : Reg) (addr : Addr) (s : State) : Result := loadFrom x addr s

/-- `LD X, [Y32]` (R173). -/
def execLdInd (x : Reg) (y : Reg) (s : State) : Result := requireArg (y.bits == 32) s (loadFrom x (s.address y) s)

/-- `LDH X, [ADDR16]` (R174). -/
def execLdhAbs (x : Reg) (addr : Half) (s : State) : Result := loadFrom x (highPage addr) s

/-- `LDH X, [Y16]` (R175). -/
def execLdhInd (x : Reg) (y : Reg) (s : State) : Result :=
  requireArg (y.bits == 16) s (loadFrom x (highPage (s.readReg y)) s)

/-- `LDP X8, [ADDR8]` (R176). -/
def execLdpAbs (x : Reg) (addr : Byte) (s : State) : Result :=
  requireArg (x.bits == 8) s (loadFrom x (portPage addr) s)

/-- `LDP X8, [Y8]` (R177). -/
def execLdpInd (x : Reg) (y : Reg) (s : State) : Result :=
  requireArg (x.bits == 8 && y.bits == 8) s (loadFrom x (portPage (s.readReg y)) s)

/-- `ST [ADDR32], Y` (R178). -/
def execStAbs (addr : Addr) (y : Reg) (s : State) : Result := storeTo addr y s

/-- `ST [X32], Y` (R179). -/
def execStInd (x : Reg) (y : Reg) (s : State) : Result := requireArg (x.bits == 32) s (storeTo (s.address x) y s)

/-- `STH [ADDR16], Y` (R180). -/
def execSthAbs (addr : Half) (y : Reg) (s : State) : Result := storeTo (highPage addr) y s

/-- `STH [X16], Y` (R181). -/
def execSthInd (x : Reg) (y : Reg) (s : State) : Result :=
  requireArg (x.bits == 16) s (storeTo (highPage (s.readReg x)) y s)

/-- `STP [ADDR8], Y8` (R182). -/
def execStpAbs (addr : Byte) (y : Reg) (s : State) : Result :=
  requireArg (y.bits == 8) s (storeTo (portPage addr) y s)

/-- `STP [X8], Y8` (R183). -/
def execStpInd (x : Reg) (y : Reg) (s : State) : Result :=
  requireArg (x.bits == 8 && y.bits == 8) s (storeTo (portPage (s.readReg x)) y s)

/-- `MV X, Y` (R184): between different widths the parameter `MV_MIXED_WIDTH` decides (log 10). -/
def execMv (x : Reg) (y : Reg) (s : State) : Result :=
  requireArg (x.bits == y.bits || s.cfg.mvMixedWidth == .zeroExtendTruncate) s
    (.next (s.writeReg x ((s.readReg y).setWidth x.bits)))

/-- `POP X32` (R185): the double-word on top goes to `X`. -/
def execPop (x : Reg) (s : State) : Result :=
  requireArg (x.bits == 32) s (withPop s fun v t => .next (t.writeReg x (v.setWidth x.bits)))

/-- `PUSH Y32` (R186): `Y` goes on top. -/
def execPush (y : Reg) (s : State) : Result := requireArg (y.bits == 32) s (withPush (s.address y) s fun t => .next t)

end Sys2Proof.Machine
end

