-- ==== Sys2Proof/Machine/General.lean ====
section
/-! DEFINITION. The meanings of the general instructions (40_general.md, R150 to R162). Each runs after the fetch and
decode of rule R118: `pc` is the address of the next instruction. -/

namespace Sys2Proof.Machine

/-- `AL`, the one register `DAA` works on (R24). -/
def alReg : Reg := { full := .A, view := .low }

/-- `NOP` (R150). -/
def execNop (s : State) : Result := .next s

/-- `STOP` (R151): `F.T <- 1`; the frame loop skips the rest of the frame. -/
def execStop (s : State) : Result := .next (s.setFlag .T true)

/-- `HALT` (R152): `F.L <- 1`. -/
def execHalt (s : State) : Result := .next (s.setFlag .L true)

/-- `SEC XX` (R153): `EC <- XX`; no exception is taken. -/
def execSec (xx : Byte) (s : State) : Result := .next { s with ec := xx }

/-- `CEC` (R154): `EC <- 0`. -/
def execCec (s : State) : Result := .next { s with ec := 0x00 }

/-- `DI` (R155): `IME <- 0` at once. -/
def execDi (s : State) : Result := .next { s with ime := false }

/-- `EI` (R156): `EI <- 1`; `IME` follows at the end of the frame. -/
def execEi (s : State) : Result := .next { s with ei := true }

/-- `DAA` (R157): decimal-adjusts `AL` (G1, log 13). -/
def execDaa (s : State) : Result :=
  let al := s.readReg alReg
  let r := daaValue al (s.flag .N) (s.flag .H) (s.flag .C)
  .next ((s.writeReg alReg r).putColumn (daaColumn r (daaCarry al (s.flag .N) (s.flag .C))))

/-- `SCF` (R158). -/
def execScf (s : State) : Result :=
  .next (s.putColumn { z := none, n := some false, h := some false, c := some true, s := none, p := none })

/-- `CCF` (R159). -/
def execCcf (s : State) : Result :=
  .next (s.putColumn { z := none, n := some false, h := some false, c := some (!s.flag .C), s := none, p := none })

/-- `FLG X` (R160): `Z` is the complement of bit `16 + k` of `F`. -/
def execFlg (k : BitVec 4) (s : State) : Result := .next (s.setFlag .Z (!s.f.getLsbD (16 + k.toNat)))

/-- `STF X` (R161): `F[16 + k] <- 1`. -/
def execStf (k : BitVec 4) (s : State) : Result := .next { s with f := putBit s.f (16 + k.toNat) true }

/-- `CLF X` (R162): `F[16 + k] <- 0`. -/
def execClf (k : BitVec 4) (s : State) : Result := .next { s with f := putBit s.f (16 + k.toNat) false }

end Sys2Proof.Machine
end

