-- ==== Sys2Proof/Machine/ShiftRotate.lean ====
section
/-! DEFINITION. The meanings of the shift and rotate instructions (46_shift_rotate.md, R280 to R294). Each runs after the fetch and
decode of rule R118: `pc` is the address of the next instruction. -/

namespace Sys2Proof.Machine

/-- `SLA X` (R281). -/
def execSlaReg (x : Reg) (s : State) : Result := shiftReg .sla x s

/-- `SLA [X32]` (R282). -/
def execSlaMem (x : Reg) (s : State) : Result := shiftMem .sla x s

/-- `SRA X` (R283). -/
def execSraReg (x : Reg) (s : State) : Result := shiftReg .sra x s

/-- `SRA [X32]` (R284). -/
def execSraMem (x : Reg) (s : State) : Result := shiftMem .sra x s

/-- `SRL X` (R285). -/
def execSrlReg (x : Reg) (s : State) : Result := shiftReg .srl x s

/-- `SRL [X32]` (R286). -/
def execSrlMem (x : Reg) (s : State) : Result := shiftMem .srl x s

/-- `RL X` (R287). -/
def execRlReg (x : Reg) (s : State) : Result := shiftReg .rl x s

/-- `RL [X32]` (R288). -/
def execRlMem (x : Reg) (s : State) : Result := shiftMem .rl x s

/-- `RLC X` (R289). -/
def execRlcReg (x : Reg) (s : State) : Result := shiftReg .rlc x s

/-- `RLC [X32]` (R290). -/
def execRlcMem (x : Reg) (s : State) : Result := shiftMem .rlc x s

/-- `RR X` (R291). -/
def execRrReg (x : Reg) (s : State) : Result := shiftReg .rr x s

/-- `RR [X32]` (R292). -/
def execRrMem (x : Reg) (s : State) : Result := shiftMem .rr x s

/-- `RRC X` (R293). -/
def execRrcReg (x : Reg) (s : State) : Result := shiftReg .rrc x s

/-- `RRC [X32]` (R294). -/
def execRrcMem (x : Reg) (s : State) : Result := shiftMem .rrc x s

end Sys2Proof.Machine
end

