-- ==== Sys2Proof/Machine/Dispatch.lean ====
section
/-! DEFINITION. `exec`: what each instruction does in its execute stage (the last line of rule R118), one arm per constructor. -/

namespace Sys2Proof.Machine

def exec (i : Instr) (s : State) : Host.Outcome State Fault Refusal :=
  match i with
  -- General instructions (40_general.md)
  | .nop => Sys2Proof.Machine.execNop s
  | .stop => Sys2Proof.Machine.execStop s
  | .halt => Sys2Proof.Machine.execHalt s
  | .sec xx => Sys2Proof.Machine.execSec xx s
  | .cec => Sys2Proof.Machine.execCec s
  | .di => Sys2Proof.Machine.execDi s
  | .ei => Sys2Proof.Machine.execEi s
  | .daa => Sys2Proof.Machine.execDaa s
  | .scf => Sys2Proof.Machine.execScf s
  | .ccf => Sys2Proof.Machine.execCcf s
  | .flg k => Sys2Proof.Machine.execFlg k s
  | .stf k => Sys2Proof.Machine.execStf k s
  | .clf k => Sys2Proof.Machine.execClf k s
  -- Data transfer (41_data_transfer.md)
  | .ldImm x imm => Sys2Proof.Machine.execLdImm x imm s
  | .ldAbs x addr => Sys2Proof.Machine.execLdAbs x addr s
  | .ldInd x y => Sys2Proof.Machine.execLdInd x y s
  | .ldhAbs x addr => Sys2Proof.Machine.execLdhAbs x addr s
  | .ldhInd x y => Sys2Proof.Machine.execLdhInd x y s
  | .ldpAbs x addr => Sys2Proof.Machine.execLdpAbs x addr s
  | .ldpInd x y => Sys2Proof.Machine.execLdpInd x y s
  | .stAbs addr y => Sys2Proof.Machine.execStAbs addr y s
  | .stInd x y => Sys2Proof.Machine.execStInd x y s
  | .sthAbs addr y => Sys2Proof.Machine.execSthAbs addr y s
  | .sthInd x y => Sys2Proof.Machine.execSthInd x y s
  | .stpAbs addr y => Sys2Proof.Machine.execStpAbs addr y s
  | .stpInd x y => Sys2Proof.Machine.execStpInd x y s
  | .mv x y => Sys2Proof.Machine.execMv x y s
  | .pop x => Sys2Proof.Machine.execPop x s
  | .push y => Sys2Proof.Machine.execPush y s
  -- Control transfer (42_control_transfer.md)
  | .jmpImm z target => Sys2Proof.Machine.execJmpImm z target s
  | .jmpReg z y => Sys2Proof.Machine.execJmpReg z y s
  | .jpb z disp => Sys2Proof.Machine.execJpb z disp s
  | .call z target => Sys2Proof.Machine.execCall z target s
  | .intVec xx => Sys2Proof.Machine.execIntVec xx s
  | .ret z => Sys2Proof.Machine.execRet z s
  | .reti => Sys2Proof.Machine.execReti s
  -- Arithmetic (43_arithmetic.md)
  | .incReg x => Sys2Proof.Machine.execIncReg x s
  | .incMem x => Sys2Proof.Machine.execIncMem x s
  | .decReg x => Sys2Proof.Machine.execDecReg x s
  | .decMem x => Sys2Proof.Machine.execDecMem x s
  | .addImm x imm => Sys2Proof.Machine.execAddImm x imm s
  | .addAbs x addr => Sys2Proof.Machine.execAddAbs x addr s
  | .addInd x y => Sys2Proof.Machine.execAddInd x y s
  | .adcImm x imm => Sys2Proof.Machine.execAdcImm x imm s
  | .adcAbs x addr => Sys2Proof.Machine.execAdcAbs x addr s
  | .adcInd x y => Sys2Proof.Machine.execAdcInd x y s
  | .subImm x imm => Sys2Proof.Machine.execSubImm x imm s
  | .subAbs x addr => Sys2Proof.Machine.execSubAbs x addr s
  | .subInd x y => Sys2Proof.Machine.execSubInd x y s
  | .sbcImm x imm => Sys2Proof.Machine.execSbcImm x imm s
  | .sbcAbs x addr => Sys2Proof.Machine.execSbcAbs x addr s
  | .sbcInd x y => Sys2Proof.Machine.execSbcInd x y s
  -- Bitwise (44_bitwise.md)
  | .andImm x imm => Sys2Proof.Machine.execAndImm x imm s
  | .andAbs x addr => Sys2Proof.Machine.execAndAbs x addr s
  | .andInd x y => Sys2Proof.Machine.execAndInd x y s
  | .orImm x imm => Sys2Proof.Machine.execOrImm x imm s
  | .orAbs x addr => Sys2Proof.Machine.execOrAbs x addr s
  | .orInd x y => Sys2Proof.Machine.execOrInd x y s
  | .xorImm x imm => Sys2Proof.Machine.execXorImm x imm s
  | .xorAbs x addr => Sys2Proof.Machine.execXorAbs x addr s
  | .xorInd x y => Sys2Proof.Machine.execXorInd x y s
  | .notReg x => Sys2Proof.Machine.execNotReg x s
  | .notMem x => Sys2Proof.Machine.execNotMem x s
  -- Comparison (45_comparison.md)
  | .cmpImm x imm => Sys2Proof.Machine.execCmpImm x imm s
  | .cmpAbs x addr => Sys2Proof.Machine.execCmpAbs x addr s
  | .cmpInd x y => Sys2Proof.Machine.execCmpInd x y s
  -- Shifts and rotates (46_shift_rotate.md)
  | .slaReg x => Sys2Proof.Machine.execSlaReg x s
  | .slaMem x => Sys2Proof.Machine.execSlaMem x s
  | .sraReg x => Sys2Proof.Machine.execSraReg x s
  | .sraMem x => Sys2Proof.Machine.execSraMem x s
  | .srlReg x => Sys2Proof.Machine.execSrlReg x s
  | .srlMem x => Sys2Proof.Machine.execSrlMem x s
  | .rlReg x => Sys2Proof.Machine.execRlReg x s
  | .rlMem x => Sys2Proof.Machine.execRlMem x s
  | .rlcReg x => Sys2Proof.Machine.execRlcReg x s
  | .rlcMem x => Sys2Proof.Machine.execRlcMem x s
  | .rrReg x => Sys2Proof.Machine.execRrReg x s
  | .rrMem x => Sys2Proof.Machine.execRrMem x s
  | .rrcReg x => Sys2Proof.Machine.execRrcReg x s
  | .rrcMem x => Sys2Proof.Machine.execRrcMem x s
  -- Bit testing and manipulation (47_bit_ops.md)
  | .bitReg xd x => Sys2Proof.Machine.execBitReg xd x s
  | .bitMem xd x => Sys2Proof.Machine.execBitMem xd x s
  | .togReg xd x => Sys2Proof.Machine.execTogReg xd x s
  | .togMem xd x => Sys2Proof.Machine.execTogMem xd x s
  | .setReg xd x => Sys2Proof.Machine.execSetReg xd x s
  | .setMem xd x => Sys2Proof.Machine.execSetMem xd x s
  | .resReg xd x => Sys2Proof.Machine.execResReg xd x s
  | .resMem xd x => Sys2Proof.Machine.execResMem xd x s

end Sys2Proof.Machine
end

