-- ==== Sys2Proof/Machine/Frame.lean ====
section
/-! DEFINITION. What a frame does around its one instruction (rule R330): the stopped and the halted frame, fetch and decode
(R118), the delivery of a hardware error (R340), the halt-wake test, the interrupt test (R346) and the commit of `EI` (R349).
`step` puts them together with `exec`. -/

namespace Sys2Proof.Machine

/-! ## The end of a frame (steps 3 to 5) -/

/-- Step 3: any pending interrupt ends the halt. -/
def State.haltWake (s : State) : State :=
  if s.flag .L && s.intFlags != 0 then s.setFlag .L false else s

/-- The lowest-numbered bit that is set (R348). -/
def lowestBit (v : Word) : Option Nat := (List.range 32).find? fun i => v.getLsbD i

/-- Step 4: the interrupt service test, and at most one entry. -/
def State.serviceInterrupt (s : State) : State :=
  if s.ime then
    match lowestBit (s.intFlags &&& s.intEnable) with
    | some k => s.takeInterrupt k
    | none   => s
  else s

/-- Step 5: a pending `EI` sets `IME`. -/
def State.commitEi (s : State) : State := if s.ei then { s with ime := true, ei := false } else s

/-- Steps 3 to 5. A double fault in step 4 ends the frame (log 8). -/
def State.endFrame (s : State) : State :=
  let t := s.haltWake.serviceInterrupt
  if t.faulted then t else t.commitEi

/-- Step 2b: a waiting hardware error is delivered unless the instruction raised (R340). -/
def State.deliverHwError (s : State) : State :=
  if s.hwError && !s.raised then { s with hwError := false }.takeException .hardwareError else s

/-- What follows the instruction: nothing after a double fault (log 8) or after `STOP` (D34), else steps 2b to 5. -/
def State.afterInstruction (s : State) : State :=
  if s.faulted || s.flag .T then s
  else
    let t := s.deliverHwError
    if t.faulted then t else t.endFrame

/-! ## Frames without an instruction -/

/-- A stopped frame (R356): the lines that become pending meanwhile, and the wake test (R357). -/
def State.stoppedFrame (s : State) : State :=
  let now := s.standby.headD ⟨0, false⟩
  let t := { s with standby := s.standby.tail, intFlags := s.intFlags ||| now.lines }
  if now.wake then t.setFlag .T false else t

/-- A halted frame (R355): one idle `Cycle()`, then steps 3 to 5. -/
def State.haltedFrame (s : State) : State := s.clock.endFrame

/-! ## Fetch and decode (R118) -/

/-- `ip <- pc` and the latches zeroed. -/
def State.beginInstruction (s : State) : State :=
  { s with ip := s.pc, sa := 0, da := 0, sd := 0, ci := 0, xd := 0, raised := false }

/-- The latches a fetched immediate fills (R28, R31, R310; log 14): `XD` by a bit number, `SD` by an operand or a target. -/
def State.latchImmediate (s : State) : Instr → State
  | .bitReg xd _ | .bitMem xd _ | .togReg xd _ | .togMem xd _ | .setReg xd _ | .setMem xd _ | .resReg xd _
  | .resMem xd _ => { s with xd := xd }
  | .ldImm _ v | .addImm _ v | .adcImm _ v | .subImm _ v | .sbcImm _ v | .andImm _ v | .orImm _ v | .xorImm _ v
  | .cmpImm _ v | .jmpImm _ v | .call _ v => { s with sd := v }
  | .jpb _ v => { s with sd := v.setWidth 32 }
  | .nop | .stop | .halt | .sec _ | .cec | .di | .ei | .daa | .scf | .ccf | .flg _ | .stf _ | .clf _ | .ldAbs _ _
  | .ldInd _ _ | .ldhAbs _ _ | .ldhInd _ _ | .ldpAbs _ _ | .ldpInd _ _ | .stAbs _ _ | .stInd _ _ | .sthAbs _ _
  | .sthInd _ _ | .stpAbs _ _ | .stpInd _ _ | .mv _ _ | .pop _ | .push _ | .jmpReg _ _ | .intVec _ | .ret _ | .reti
  | .incReg _ | .incMem _ | .decReg _ | .decMem _ | .addAbs _ _ | .addInd _ _ | .adcAbs _ _ | .adcInd _ _
  | .subAbs _ _ | .subInd _ _ | .sbcAbs _ _ | .sbcInd _ _ | .andAbs _ _ | .andInd _ _ | .orAbs _ _ | .orInd _ _
  | .xorAbs _ _ | .xorInd _ _ | .notReg _ | .notMem _ | .cmpAbs _ _ | .cmpInd _ _ | .slaReg _ | .slaMem _ | .sraReg _
  | .sraMem _ | .srlReg _ | .srlMem _ | .rlReg _ | .rlMem _ | .rlcReg _ | .rlcMem _ | .rrReg _ | .rrMem _ | .rrcReg _
  | .rrcMem _ => s

/-- What fetch and decode answer: an exception and the state at the raise, or an instruction and the state its execute
stage starts from. -/
inductive Fetched where
  | raised (e : Exc) (s : State)
  | ready (i : Instr) (s : State)
  deriving DecidableEq, Repr

/-- The immediate's fetch and the instruction, once the opcode is known to match a row. -/
def State.fetchImmediate (s : State) (op : Half) : Fetched :=
  match s.fetch (immBytes op) with
  | none => .raised .invalidExecute s
  | some (imm, t) =>
    match Instr.ofOpcode s.cfg.strictZeroNibble op imm with
    | none   => .raised .invalidOpcode s
    | some i => .ready i (t.latchImmediate i)

/-- Fetch and decode. -/
def State.fetchDecode (s : State) : Fetched :=
  let t := s.beginInstruction
  match t.fetch 2 with
  | none => .raised .invalidExecute t
  | some (w, u) =>
    let op : Half := w.setWidth 16
    let v := { u with ci := op }
    match Instr.ofOpcode v.cfg.strictZeroNibble op 0 with
    | none   => .raised .invalidOpcode v
    | some _ => v.fetchImmediate op

/-! ## The frame up to its instruction -/

/-- What a frame comes to before an instruction runs. -/
inductive Phase where
  /-- The frame is over without an instruction. -/
  | ended (s : State)
  /-- An instruction is ready. -/
  | run (i : Instr) (s : State)
  deriving DecidableEq, Repr

/-- Steps 1 and 2 up to the execute stage. -/
def State.beginFrame (s : State) : Phase :=
  if s.flag .T then .ended s.stoppedFrame
  else if s.flag .L then .ended s.haltedFrame
  else
    match s.fetchDecode with
    | .raised e t => .ended (t.takeException e).afterInstruction
    | .ready i t  => .run i t

/-- An instruction's bytes, placed where the next frame fetches (R383; log 16). -/
def State.placeAtPc (s : State) (bytes : List Byte) : State := { s with mem := s.mem.place s.pc bytes }

end Sys2Proof.Machine
end

