-- ==== Sys2Proof/Machine/Step.lean ====
section
/-! DEFINITION. `step` is one frame (rule R330): the frame's beginning, the instruction, the frame's end. -/

namespace Sys2Proof.Machine

/-- The rest of the frame after the execute stage. -/
def finishFrame (r : Host.Outcome State Fault Refusal) : Host.Outcome State Fault Refusal :=
  match r with
  | .next s    => .next s.afterInstruction
  | .fault e   => .fault e
  | .refused e => .refused e

/-- One frame. On a state that is `Faulted` already the machine is stuck (R344, U8; log 8). -/
def step (s : State) : Host.Outcome State Fault Refusal :=
  if s.faulted then .fault .doubleFault
  else
    match s.beginFrame with
    | .ended t  => .next t
    | .run i t => finishFrame (exec i t)

/-- `s` with the instruction whose bits are `w` stored where `step` fetches (the bits above `nbits` zero): the load of a
one-instruction program from outside (R383; log 16). -/
def State.withFetchWord (s : State) (nbits w : Nat) : State := s.placeAtPc (tableBytes nbits w)

end Sys2Proof.Machine
end

