-- ==== Sys2Proof/Safety.lean ====
section
/-! DEFINITION. The terms the statements use: what the spec says of every state the machine reaches (the stack pointer's
bounds of R27, the reserved flag bits of R44, the `EI` latch of R33, memory's canonical form), and what an instruction leaves,
said bit by bit and byte by byte, apart from the functions that compute it, and apart from what the platform does in the
cycles it takes. -/

namespace Sys2Proof.Machine

/-! ## The invariant of a frame boundary -/

/-- `sp` is a multiple of 4 within the stack window (R27). -/
def State.stackOk (s : State) : Bool :=
  decide (s.sp.toNat % 4 = 0) && decide (0xFFFE0000 ≤ s.sp.toNat) && decide (s.sp.toNat ≤ 0xFFFEFFFC)

/-- `F[15:8]` reads as 0 (R44). -/
def State.reservedClear (s : State) : Bool := s.f.extractLsb' 8 8 == 0

/-- `EI` is 0 at a frame boundary (R33); a frame cut short by a double fault is the exception (log 8). -/
def State.eiSettled (s : State) : Bool := s.faulted || !s.ei

/-- The invariant of every frame boundary. -/
def State.sound (s : State) : Bool := s.mem.wf && s.stackOk && s.reservedClear && s.eiSettled

/-- The machine executes instructions: not faulted, not stopped, not halted (R358). -/
def State.running (s : State) : Bool := !s.faulted && !s.flag .T && !s.flag .L

/-! ## What an instruction leaves -/

/-- `i` completes from `s`: `exec` answers a next state, and `P` holds of it. -/
def completes (i : Instr) (s : State) (P : State → Prop) : Prop := ∃ t, exec i s = .next t ∧ P t

/-- From `s` to `t` the view `x` takes the value `v` and every other bit of the four registers stays (R22). -/
def State.regsAfter (s t : State) (x : Reg) (v : BitVec x.bits) : Prop :=
  ∀ (r : Full) (i : Nat), i < 32 →
    (t.full r).getLsbD i =
      if r = x.full ∧ x.view.lsb ≤ i ∧ i < x.view.lsb + x.bits then v.getLsbD (i - x.view.lsb) else (s.full r).getLsbD i

/-- What a statement says of one flag: it keeps its value, it takes a value, or the spec leaves it open (R41). -/
inductive FlagEffect where
  | kept
  | is (b : Bool)
  | free
  deriving DecidableEq, Repr

/-- One flag from `s` to `t`. -/
def State.flagAfter (s t : State) (g : Flag) : FlagEffect → Prop
  | .kept => t.flag g = s.flag g
  | .is b => t.flag g = b
  | .free => True

/-- The six condition flags from `s` to `t`, in the order `ZNHCSP` of the spec's columns (R15); every other bit of `F`
stays. -/
def State.flagsAfter (s t : State) (z n h c sg p : FlagEffect) : Prop :=
  s.flagAfter t .Z z ∧ s.flagAfter t .N n ∧ s.flagAfter t .H h ∧ s.flagAfter t .C c ∧ s.flagAfter t .S sg ∧
    s.flagAfter t .P p ∧ ∀ i, i < 2 ∨ 8 ≤ i → t.f.getLsbD i = s.f.getLsbD i

/-- `H` after an operation of `w` bits that computes it: open at 32 bits (R41). -/
def halfEffect (w : Nat) (b : Bool) : FlagEffect := if w = 32 then .free else .is b

/-- An even number of bits of `r` are set (R38). -/
def evenParity {w : Nat} (r : BitVec w) : Bool := decide (popcount r % 2 = 0)

/-- Every byte of memory reads as before. -/
def State.bytesKept (s t : State) : Prop := ∀ adr, t.byte adr = s.byte adr

/-- `r` is `v` moved one place left (`left`) or right, `b` entering at the empty end (R280). -/
def shiftedIn {w : Nat} (left b : Bool) (v r : BitVec w) : Prop :=
  ∀ i, i < w →
    r.getLsbD i =
      if left then (if i = 0 then b else v.getLsbD (i - 1)) else (if i = w - 1 then b else v.getLsbD (i + 1))

/-- `r` is `v` with bit `k` replaced by `b`. -/
def bitReplaced {w : Nat} (k : Nat) (b : Bool) (v r : BitVec w) : Prop :=
  ∀ i, i < w → r.getLsbD i = if i = k then b else v.getLsbD i

/-! ## The platform meanwhile (R6, R17, R83) -/

/-- What the platform and its devices may do within the next `n` cycles of the CPU: the acts of those cycles, and the effects
of at most one device read or write before each. -/
def State.actsWithin (s : State) (n : Nat) : List PlatformEvent :=
  (s.platform.take n).flatten ++ (s.ioReads.take n).flatMap IoAnswer.events ++ (s.ioWrites.take n).flatten

/-- The platform writes no byte at `adr` within the next `n` cycles. -/
def State.spares (s : State) (n : Nat) (adr : Addr) : Prop := ∀ v, .writeByte adr v ∉ s.actsWithin n

/-- A byte the bus treats as plain memory: no device stands there, or none answers. -/
def State.plain (s : State) (adr : Addr) : Prop := isDevice adr = false ∨ s.ioReads = [] ∧ s.ioWrites = []

/-- `t` is `s` after `n` cycles, but for memory: no register and no other field differs, but for those the platform reaches,
each of which stays unless the platform writes it in these cycles. -/
structure OnBus (n : Nat) (s t : State) : Prop where
  /-- The platform reaches `IF`, `IE`, `F`, memory and the error latch; its schedule and its devices' answers go on. -/
  rest : t = { s with
    f := t.f, intFlags := t.intFlags, intEnable := t.intEnable, mem := t.mem, hwError := t.hwError
    platform := s.platform.drop n, ioReads := t.ioReads, ioWrites := t.ioWrites, cycles := s.cycles + n }
  /-- At most one device read a cycle. -/
  reads : ∃ j, j ≤ n ∧ t.ioReads = s.ioReads.drop j
  /-- At most one device write a cycle. -/
  writes : ∃ j, j ≤ n ∧ t.ioWrites = s.ioWrites.drop j
  /-- `F[15:0]` is the CPU's (R6, R45). -/
  low : ∀ i, i < 16 → t.f.getLsbD i = s.f.getLsbD i
  soft : (∀ v, .writeSoftFlags v ∉ s.actsWithin n) → t.f = s.f
  enable : (∀ v, .writeEnable v ∉ s.actsWithin n) → t.intEnable = s.intEnable
  set : ∀ k : BitVec 5, .raiseInterrupt k ∉ s.actsWithin n → t.intFlags.getLsbD k.toNat = true →
    s.intFlags.getLsbD k.toNat = true
  cleared : ∀ k : BitVec 5, .clearInterrupt k ∉ s.actsWithin n → s.intFlags.getLsbD k.toNat = true →
    t.intFlags.getLsbD k.toNat = true
  error : .hwError ∉ s.actsWithin n → t.hwError = s.hwError

/-- Every byte the platform spares within `n` cycles reads as before. -/
def State.bytesSpared (s t : State) (n : Nat) : Prop := ∀ adr, s.spares n adr → t.byte adr = s.byte adr

/-- The `m` bytes from `base` hold the low bytes of `v`, least significant first (R71), and every other byte reads as before,
but for those the platform writes within `n` cycles (and those a device takes). -/
def State.stored (s t : State) (n : Nat) (base : Addr) (m : Nat) (v : Word) : Prop :=
  ∀ adr, s.spares n adr →
    ((∀ k, k < m → adr ≠ base + BitVec.ofNat 32 k) → t.byte adr = s.byte adr) ∧
    ∀ k, k < m → adr = base + BitVec.ofNat 32 k → s.plain adr → t.byte adr = v.extractLsb' (8 * k) 8

/-- `v` is the little-endian value of the `m` bytes from `base` (R71), but for those the platform writes within `n` cycles
(and those a device answers for). -/
def State.valueAt (s : State) (n : Nat) (base : Addr) (m : Nat) (v : Word) : Prop :=
  (∀ i, 8 * m ≤ i → v.getLsbD i = false) ∧
  ∀ k, k < m → s.spares n (base + BitVec.ofNat 32 k) → s.plain (base + BitVec.ofNat 32 k) →
    v.extractLsb' (8 * k) 8 = s.byte (base + BitVec.ofNat 32 k)

/-- A completed data read of `n` bytes at `adr` answers `v` and leaves `u` (R77, R28). -/
def State.reads (s : State) (adr : Addr) (n : Nat) (v : Word) (u : State) : Prop :=
  (v, u) = s.dataRead adr n ∧ s.valueAt n adr n v ∧ OnBus n { s with sa := adr, sd := v } u ∧ s.bytesSpared u n

/-- A completed read of the byte `b` at `adr` and write of the byte `r` there leave `u` (R82, R83). -/
def State.modifies (s : State) (adr : Addr) (b r : Byte) (u : State) : Prop :=
  ∃ t, (b.setWidth 32, t) = ({ s with da := adr } : State).dataRead adr 1 ∧ u = t.dataWrite adr 1 (r.setWidth 32) ∧
    (s.spares 1 adr → s.plain adr → b = s.byte adr) ∧
    OnBus 2 { s with sa := adr, da := adr, sd := b.setWidth 32 } u ∧ s.stored u 2 adr 1 (r.setWidth 32)

/-- A completed push of `v` leaves `u` (R80): a cycle for `sp`, then the four bytes. -/
def State.pushed (s : State) (v : Word) (u : State) : Prop :=
  u = s.pushWord v ∧ OnBus 5 { s with sp := s.sp - 4 } u ∧ s.stored u 5 (s.sp - 4) 4 v

/-- A completed pop answers `v` and leaves `u` (R80): the four bytes, then a cycle for `sp`. -/
def State.popped (s : State) (v : Word) (u : State) : Prop :=
  (v, u) = s.popWord ∧ s.valueAt 4 s.sp 4 v ∧ OnBus 5 { s with sp := s.sp + 4 } u ∧ s.bytesSpared u 5

/-- `s` after `n` cycles in which the CPU does nothing. -/
def State.clocks (s : State) : Nat → State
  | 0     => s
  | n + 1 => (State.clocks s n).clock

/-- `s` once `k` bytes from `adr` have been read, in ascending order, a cycle after each. -/
def State.reading (s : State) (adr : Addr) : Nat → State
  | 0     => s
  | k + 1 => ((State.reading s adr k).busRead (adr + BitVec.ofNat 32 k)).2.clock

/-- `s` once the low `k` bytes of `v` have been written from `adr`, in ascending order, a cycle after each. -/
def State.writing (s : State) (adr : Addr) (v : Word) : Nat → State
  | 0     => s
  | k + 1 => ((State.writing s adr v k).busWrite (adr + BitVec.ofNat 32 k) (v.extractLsb' (8 * k) 8)).clock

/-! ## The data accesses of an instruction (R82, R334, R335) -/

/-- The address and the number of bytes an instruction reads as data. -/
def readSite (i : Instr) (s : State) : Option (Addr × Nat) :=
  match i with
  | .ldAbs x adr | .addAbs x adr | .adcAbs x adr | .subAbs x adr | .sbcAbs x adr | .andAbs x adr | .orAbs x adr
  | .xorAbs x adr | .cmpAbs x adr => some (adr, x.bytes)
  | .ldInd x y | .addInd x y | .adcInd x y | .subInd x y | .sbcInd x y | .andInd x y | .orInd x y | .xorInd x y
  | .cmpInd x y => some (s.address y, x.bytes)
  | .ldhAbs x adr => some (highPage adr, x.bytes)
  | .ldhInd x y => some (highPage (s.readReg y), x.bytes)
  | .ldpAbs _ adr => some (portPage adr, 1)
  | .ldpInd _ y => some (portPage (s.readReg y), 1)
  | .incMem x | .decMem x | .notMem x | .slaMem x | .sraMem x | .srlMem x | .rlMem x | .rlcMem x | .rrMem x
  | .rrcMem x | .bitMem _ x | .togMem _ x | .setMem _ x | .resMem _ x => some (s.address x, 1)
  | .nop | .stop | .halt | .sec _ | .cec | .di | .ei | .daa | .scf | .ccf | .flg _ | .stf _ | .clf _ | .ldImm _ _
  | .stAbs _ _ | .stInd _ _ | .sthAbs _ _ | .sthInd _ _ | .stpAbs _ _ | .stpInd _ _ | .mv _ _ | .pop _ | .push _
  | .jmpImm _ _ | .jmpReg _ _ | .jpb _ _ | .call _ _ | .intVec _ | .ret _ | .reti | .incReg _ | .decReg _
  | .addImm _ _ | .adcImm _ _ | .subImm _ _ | .sbcImm _ _ | .andImm _ _ | .orImm _ _ | .xorImm _ _ | .notReg _
  | .cmpImm _ _ | .slaReg _ | .sraReg _ | .srlReg _ | .rlReg _ | .rlcReg _ | .rrReg _ | .rrcReg _ | .bitReg _ _
  | .togReg _ _ | .setReg _ _ | .resReg _ _ => none

/-- The address and the number of bytes an instruction writes as data (the stack apart). -/
def writeSite (i : Instr) (s : State) : Option (Addr × Nat) :=
  match i with
  | .stAbs adr y => some (adr, y.bytes)
  | .stInd x y => some (s.address x, y.bytes)
  | .sthAbs adr y => some (highPage adr, y.bytes)
  | .sthInd x y => some (highPage (s.readReg x), y.bytes)
  | .stpAbs adr _ => some (portPage adr, 1)
  | .stpInd x _ => some (portPage (s.readReg x), 1)
  | .incMem x | .decMem x | .notMem x | .slaMem x | .sraMem x | .srlMem x | .rlMem x | .rlcMem x | .rrMem x
  | .rrcMem x | .togMem _ x | .setMem _ x | .resMem _ x => some (s.address x, 1)
  | .nop | .stop | .halt | .sec _ | .cec | .di | .ei | .daa | .scf | .ccf | .flg _ | .stf _ | .clf _ | .ldImm _ _
  | .ldAbs _ _ | .ldInd _ _ | .ldhAbs _ _ | .ldhInd _ _ | .ldpAbs _ _ | .ldpInd _ _ | .mv _ _ | .pop _ | .push _
  | .jmpImm _ _ | .jmpReg _ _ | .jpb _ _ | .call _ _ | .intVec _ | .ret _ | .reti | .incReg _ | .decReg _
  | .addImm _ _ | .addAbs _ _ | .addInd _ _ | .adcImm _ _ | .adcAbs _ _ | .adcInd _ _ | .subImm _ _ | .subAbs _ _
  | .subInd _ _ | .sbcImm _ _ | .sbcAbs _ _ | .sbcInd _ _ | .andImm _ _ | .andAbs _ _ | .andInd _ _ | .orImm _ _
  | .orAbs _ _ | .orInd _ _ | .xorImm _ _ | .xorAbs _ _ | .xorInd _ _ | .notReg _ | .cmpImm _ _ | .cmpAbs _ _
  | .cmpInd _ _ | .slaReg _ | .sraReg _ | .srlReg _ | .rlReg _ | .rlcReg _ | .rrReg _ | .rrcReg _ | .bitReg _ _
  | .bitMem _ _ | .togReg _ _ | .setReg _ _ | .resReg _ _ => none

/-- An instruction that pushes a double-word from `s` (R337): `PUSH`, a taken `CALL`, `INT`. -/
def pushes (i : Instr) (s : State) : Bool :=
  match i with
  | .push _ | .intVec _ => true
  | .call z _ => s.cond z
  | _ => false

/-- An instruction that pops a double-word from `s` (R338): `POP`, a taken `RET`, `RETI`. -/
def pops (i : Instr) (s : State) : Bool :=
  match i with
  | .pop _ | .reti => true
  | .ret z => s.cond z
  | _ => false

/-! ## Cycles -/

/-- The cycles of an instruction that raises nothing, by the rule of R392 (the last column of R393); `taken`: its condition
holds. -/
def tableCycles (i : Instr) (taken : Bool) : Nat :=
  match i with
  | .nop | .stop | .halt | .sec _ | .cec | .di | .ei | .daa | .scf | .ccf | .flg _ | .stf _ | .clf _ | .mv _ _ => 2
  | .ldImm x _ | .addImm x _ | .adcImm x _ | .subImm x _ | .sbcImm x _ | .andImm x _ | .orImm x _ | .xorImm x _
  | .cmpImm x _ => 2 + x.bytes
  | .ldAbs x _ | .addAbs x _ | .adcAbs x _ | .subAbs x _ | .sbcAbs x _ | .andAbs x _ | .orAbs x _ | .xorAbs x _
  | .cmpAbs x _ => 6 + x.bytes
  | .ldInd x _ | .addInd x _ | .adcInd x _ | .subInd x _ | .sbcInd x _ | .andInd x _ | .orInd x _ | .xorInd x _
  | .cmpInd x _ => 2 + x.bytes
  | .ldhAbs x _ => 4 + x.bytes
  | .ldhInd x _ => 2 + x.bytes
  | .ldpAbs _ _ => 4
  | .ldpInd _ _ => 3
  | .stAbs _ y => 6 + y.bytes
  | .stInd _ y => 2 + y.bytes
  | .sthAbs _ y => 4 + y.bytes
  | .sthInd _ y => 2 + y.bytes
  | .stpAbs _ _ => 4
  | .stpInd _ _ => 3
  | .pop _ | .push _ => 7
  | .jmpImm _ _ => if taken then 7 else 6
  | .jmpReg _ _ => if taken then 3 else 2
  | .jpb _ _ => if taken then 5 else 4
  | .call _ _ => if taken then 12 else 6
  | .intVec _ => 8
  | .ret _ => if taken then 8 else 2
  | .reti => 8
  | .incReg _ | .decReg _ | .notReg _ | .slaReg _ | .sraReg _ | .srlReg _ | .rlReg _ | .rlcReg _ | .rrReg _
  | .rrcReg _ => 2
  | .incMem _ | .decMem _ | .notMem _ | .slaMem _ | .sraMem _ | .srlMem _ | .rlMem _ | .rlcMem _ | .rrMem _
  | .rrcMem _ => 4
  | .bitReg _ _ | .togReg _ _ | .setReg _ _ | .resReg _ _ => 3
  | .bitMem _ _ => 4
  | .togMem _ _ | .setMem _ _ | .resMem _ _ => 5

/-- The condition of an instruction holds; one without a condition always runs. -/
def takes (i : Instr) (s : State) : Bool :=
  match i with
  | .jmpImm z _ | .jmpReg z _ | .jpb z _ | .call z _ | .ret z => s.cond z
  | _ => true

/-! ## Bytes at the program counter -/

/-- The `n` bytes a fetch from an address reads, one a cycle, ascending. -/
def State.bytesSeen (s : State) (adr : Addr) (n : Nat) : List Byte :=
  (List.range n).map fun k => (s.clocks k).byte (adr + BitVec.ofNat 32 k)

/-- The state the execute stage of `i` starts from, `i` standing at `pc` (R118). -/
def State.fetched (s : State) (i : Instr) : State :=
  { s.clocks i.length with
    ip := s.pc, pc := s.pc + BitVec.ofNat 32 i.length, sa := 0, da := 0, sd := 0, xd := 0
    ci := s.clock.byte (s.pc + 1) ++ s.byte s.pc, raised := false }.latchImmediate i

/-- `i` takes `n` bytes: its fetch moves `pc` past them, a cycle a byte. -/
def takesBytes (i : Instr) (n : Nat) (s : State) : Prop :=
  (encode i).length = n ∧ (s.fetched i).pc = s.pc + BitVec.ofNat 32 n ∧ (s.fetched i).cycles = s.cycles + n

end Sys2Proof.Machine
end

