-- ==== Sys2Proof/Certificates/Slice0/Obligations.lean ====
section
/-! DEFINITION. The statements for the provers. Each says what a rule of the spec says, bit by bit and byte by byte, in the
terms of `Safety.lean`. A statement about `H` after a 32-bit operation leaves it open (R14, log 7). Where an instruction takes
cycles, the platform acts in them (R6, R17, R83): `OnBus n s t` says that `t` is `s` but for what the platform may have done in
`n` cycles, and `spares`, `valueAt`, `stored` and `bytesSpared` speak of the bytes it leaves alone. -/

section

open Sys2Proof Sys2Proof.Machine

/-! ## Encoding (30_encoding.md) -/

/-- R110 to R119: decoding the bytes of an instruction gives it back, whatever follows them, under both readings of the
must-be-zero nibbles. -/
def Obligations.DecodeInvertsEncode : Prop :=
  ∀ (strict : Bool) (i : Instr) (rest : List Byte),
    i.wellFormed = true → decode strict (encode i ++ rest) = .ok (i, rest)

/-- R119, R121: with `STRICT_ZERO_NIBBLE` each instruction has one encoding: what decodes to `i` begins with `encode i`. -/
def Obligations.DecodedBytesAreTheEncoding : Prop :=
  ∀ (bytes rest : List Byte) (i : Instr),
    decode true bytes = .ok (i, rest) → i.wellFormed = true ∧ bytes = encode i ++ rest

/-- The rows of R128 decode to the instructions they stand for. -/
def Obligations.WordsOfTheSourceDecode : Prop :=
  decode true [0x00, 0x20, 0x78, 0x56, 0x34, 0x12] = .ok (.jmpImm .nc 0x12345678, []) ∧
  decode true [0x00, 0x25] = .ok (.ret .nc, []) ∧
  decode true [0x00, 0x01] = .ok (.stop, []) ∧
  decode true [0x08, 0x03] = .ok (.sec 0x08, []) ∧
  decode true [0x40, 0x50, 0x00, 0x00, 0x00, 0x00] = .ok (.cmpImm ⟨.B, .full⟩ 0, []) ∧
  decode true [0x00, 0x10, 0x00, 0x00, 0x00, 0x00] = .ok (.ldImm ⟨.A, .full⟩ 0, []) ∧
  decode true [0x40, 0x32] = .ok (.decReg ⟨.B, .full⟩, []) ∧
  decode true [0x00, 0x30] = .ok (.incReg ⟨.A, .full⟩, []) ∧
  decode true [0x00, 0x05] = .ok (.di, []) ∧
  decode true [0x00, 0x06] = .ok (.ei, []) ∧
  decode true [0x90, 0x20, 0x00, 0x31, 0x00, 0x00] = .ok (.jmpImm .zs 0x3100, []) ∧
  decode true [0x10, 0x20, 0x0E, 0x30, 0x00, 0x00] = .ok (.jmpImm .zc 0x300E, []) ∧
  decode true [0x00, 0x11, 0x10, 0x00, 0x00, 0x80] = .ok (.ldAbs ⟨.A, .full⟩ 0x80000010, []) ∧
  decode true [0x00, 0x17, 0x10, 0x00, 0x00, 0x80] = .ok (.stAbs 0x80000010 ⟨.A, .full⟩, []) ∧
  decode true [0x00, 0x24] = .ok (.intVec 0, [])

/-- R120: an unassigned type byte raises `INVALID_OPCODE` when its two bytes have been fetched (the second a cycle after the
first, R79): `pc = ip + 2`, `CI` holds the opcode; the entry sets `EC` to `0x01` and goes to vector 0. -/
def Obligations.UnassignedTypeBytesRaise : Prop :=
  ∀ (s : State) (b0 b1 : Byte),
    (b1.toNat ∈ [0x0D, 0x0E, 0x0F, 0x49, 0x4A, 0x4B, 0x4E, 0x4F, 0x6E, 0x6F] ∨ (0x27 ≤ b1.toNat ∧ b1.toNat ≤ 0x2F) ∨
      (0x53 ≤ b1.toNat ∧ b1.toNat ≤ 0x5F) ∨ 0x78 ≤ b1.toNat) →
    s.allowsAll .execute 2 s.pc = true → s.byte s.pc = b0 → s.clock.byte (s.pc + 1) = b1 →
    ∃ t, s.fetchDecode = .raised .invalidOpcode t ∧ t.ip = s.pc ∧ t.pc = s.pc + 2 ∧ t.ci = b1 ++ b0 ∧ t.sp = s.sp ∧
      (0xFFFE0000 < s.sp →
        (t.takeException .invalidOpcode).ec = 0x01 ∧ (t.takeException .invalidOpcode).pc = 0x00001000)

/-- R121 (the spec's choice D10, a parameter: log 9): under `STRICT_ZERO_NIBBLE` an opcode with a non-zero nibble where its
pattern shows `0` matches no row; without it the nibble is ignored. -/
def Obligations.MustBeZeroNibbles : Prop :=
  let noY : List Byte := [0x0A, 0x0B, 0x0C, 0x10, 0x11, 0x13, 0x15, 0x1E, 0x20, 0x22, 0x23, 0x25, 0x30, 0x31, 0x32, 0x33,
    0x34, 0x35, 0x37, 0x38, 0x3A, 0x3B, 0x3D, 0x3E, 0x40, 0x41, 0x43, 0x44, 0x46, 0x47, 0x4C, 0x4D, 0x50, 0x51, 0x60,
    0x61, 0x62, 0x63, 0x64, 0x65, 0x66, 0x67, 0x68, 0x69, 0x6A, 0x6B, 0x6C, 0x6D, 0x70, 0x71, 0x72, 0x73, 0x74, 0x75,
    0x76, 0x77]
  let noX : List Byte := [0x17, 0x19, 0x1B, 0x1F]
  let none2 : List Byte := [0x00, 0x01, 0x02, 0x04, 0x05, 0x06, 0x07, 0x08, 0x09, 0x26]
  ∀ (o : Byte) (x y : BitVec 4) (imm : Word),
    (o ∈ noY ∧ y ≠ 0 ∨ o ∈ noX ∧ x ≠ 0 ∨ o ∈ none2 ∧ (x ≠ 0 ∨ y ≠ 0) →
      Instr.ofOpcode true (opcodeXY o x y) imm = none) ∧
    (o ∈ noY → Instr.ofOpcode false (opcodeXY o x y) imm = Instr.ofOpcode true (opcodeXY o x 0) imm) ∧
    (o ∈ noX → Instr.ofOpcode false (opcodeXY o x y) imm = Instr.ofOpcode true (opcodeXY o 0 y) imm) ∧
    (o ∈ none2 → Instr.ofOpcode false (opcodeXY o x y) imm = Instr.ofOpcode true (opcodeXY o 0 0) imm)

/-- R23: the sixteen register codes, the registers they name and the widths; opcode bits 7:4 hold the code of `X`, bits 3:0 the
code of `Y` (shown on the two forms of 40_general.md to 47_bit_ops.md that name two registers freely, `LD X, [Y32]` and `MV`). -/
def Obligations.RegisterCodes : Prop :=
  let names (n : BitVec 4) (f : Full) (v : View) (w : Nat) : Prop := Reg.ofCode n = ⟨f, v⟩ ∧ (Reg.ofCode n).bits = w
  names 0x0 .A .full 32 ∧ names 0x1 .A .word 16 ∧ names 0x2 .A .high 8 ∧ names 0x3 .A .low 8 ∧
  names 0x4 .B .full 32 ∧ names 0x5 .B .word 16 ∧ names 0x6 .B .high 8 ∧ names 0x7 .B .low 8 ∧
  names 0x8 .C .full 32 ∧ names 0x9 .C .word 16 ∧ names 0xA .C .high 8 ∧ names 0xB .C .low 8 ∧
  names 0xC .D .full 32 ∧ names 0xD .D .word 16 ∧ names 0xE .D .high 8 ∧ names 0xF .D .low 8 ∧
  (∀ x y : BitVec 4, decode true [x ++ y, 0x12] = .ok (.ldInd (Reg.ofCode x) (Reg.ofCode y), []) ∧
    decode true [x ++ y, 0x1D] = .ok (.mv (Reg.ofCode x) (Reg.ofCode y), []))

/-- R115: the condition stands in opcode bits 7:4; the nine conditions read bits 7, 4, 2 and 3 of `F` (the row of `SC` as the
spec corrects it, conflict C3); a code without a meaning raises `INVALID_ARGUMENT` (the spec's choice D11: the source does not
say, N21; log 15); a condition that is false makes the instruction a no-op after its fetch. -/
def Obligations.ConditionsReadTheFlags : Prop :=
  ∀ s : State,
    (∀ (z : BitVec 4) (y : Reg) (target : Addr) (disp : Half),
      encode (.jmpImm (Cond.ofCode z) target) = [z ++ (0 : BitVec 4), 0x20] ++ leBytes 4 target ∧
      encode (.jmpReg (Cond.ofCode z) y) = [z ++ y.code, 0x21] ∧
      encode (.jpb (Cond.ofCode z) disp) = [z ++ (0 : BitVec 4), 0x22] ++ leBytes 2 (disp.setWidth 32) ∧
      encode (.call (Cond.ofCode z) target) = [z ++ (0 : BitVec 4), 0x23] ++ leBytes 4 target ∧
      encode (.ret (Cond.ofCode z)) = [z ++ (0 : BitVec 4), 0x25]) ∧
    s.cond (Cond.ofCode 0x0) = true ∧
    s.cond (Cond.ofCode 0x1) = !s.f.getLsbD 7 ∧ s.cond (Cond.ofCode 0x9) = s.f.getLsbD 7 ∧
    s.cond (Cond.ofCode 0x2) = !s.f.getLsbD 4 ∧ s.cond (Cond.ofCode 0xA) = s.f.getLsbD 4 ∧
    s.cond (Cond.ofCode 0x3) = !s.f.getLsbD 2 ∧ s.cond (Cond.ofCode 0xB) = s.f.getLsbD 2 ∧
    s.cond (Cond.ofCode 0x4) = !s.f.getLsbD 3 ∧ s.cond (Cond.ofCode 0xC) = s.f.getLsbD 3 ∧
    (∀ (n : BitVec 4) (target : Addr) (y : Reg) (disp : Half), n ∈ [0x5, 0x6, 0x7, 0x8, 0xD, 0xE, 0xF] →
      exec (.jmpImm (Cond.ofCode n) target) s = .next (s.takeException .invalidArgument) ∧
      exec (.jmpReg (Cond.ofCode n) y) s = .next (s.takeException .invalidArgument) ∧
      exec (.jpb (Cond.ofCode n) disp) s = .next (s.takeException .invalidArgument) ∧
      exec (.call (Cond.ofCode n) target) s = .next (s.takeException .invalidArgument) ∧
      exec (.ret (Cond.ofCode n)) s = .next (s.takeException .invalidArgument)) ∧
    (∀ (n : BitVec 4) (target : Addr) (y : Reg) (disp : Half), n ∉ [0x5, 0x6, 0x7, 0x8, 0xD, 0xE, 0xF] →
      s.cond (Cond.ofCode n) = false →
      exec (.jmpImm (Cond.ofCode n) target) s = .next s ∧
      (y.bits = 32 → exec (.jmpReg (Cond.ofCode n) y) s = .next s) ∧
      exec (.jpb (Cond.ofCode n) disp) s = .next s ∧
      exec (.call (Cond.ofCode n) target) s = .next s ∧
      exec (.ret (Cond.ofCode n)) s = .next s)

/-! ## State, memory and reset (10_state.md, 20_memory.md, 70_reset_and_hazards.md) -/

/-- R21, R22: a write to a view replaces exactly its bits (that a write to `RH` leaves `R[7:0]` is the spec's inference from
R21), the view reads back as written, and nothing but the four registers changes. -/
def Obligations.WritingAViewReplacesItsBits : Prop :=
  ∀ (s : State) (x : Reg) (v : BitVec x.bits),
    s.regsAfter (s.writeReg x v) x v ∧ (s.writeReg x v).readReg x = v ∧ s.bytesKept (s.writeReg x v) ∧
    ∃ t : State, s.writeReg x v = { s with a := t.a, b := t.b, c := t.c, d := t.d }

/-- R49: what the spec states of the state after reset (it states nothing of memory). -/
def Obligations.ResetValues : Prop :=
  let s := State.reset
  s.a = 0 ∧ s.b = 0 ∧ s.c = 0 ∧ s.d = 0 ∧ s.pc = 0x00003000 ∧ s.sp = 0xFFFEFFFC ∧ s.ip = 0 ∧ s.da = 0 ∧ s.sa = 0 ∧
  s.sd = 0 ∧ s.ci = 0 ∧ s.f = 0 ∧ s.intFlags = 0 ∧ s.intEnable = 0 ∧ s.ec = 0 ∧ s.xd = 0 ∧ s.ime = false ∧ s.ei = false

/-- R380: reset by the host, at any time, puts every register at its value of R49, leaves `Faulted`, and puts the memory the
platform gives (the spec's choice D25) in place; the platform's own side stays (the model's choice, log 3). -/
def Obligations.HostResetRestores : Prop :=
  ∀ (s : State) (init : Memory),
    s.hostReset init = { State.reset with
      mem := init, platform := s.platform, standby := s.standby, ioReads := s.ioReads, ioWrites := s.ioWrites
      hwError := s.hwError, cfg := s.cfg, cycles := s.cycles, draws := s.draws } ∧
    (s.hostReset init).faulted = false ∧ (s.hostReset init).pc = 0x00003000 ∧ (s.hostReset init).sp = 0xFFFEFFFC

/-- R71, R72 (the spec's inference from R77, R78), R84, R86: an access of `n` bytes is `n` accesses of one byte in ascending
order, a cycle after each, least significant byte first; after `MemWrite(a, 4, v)` a narrower read sees the bytes of `v` and the
bytes outside the four read as before, where the platform leaves them alone. A device's byte answers and acts as the device
does; where no device answers, the windows of R84 behave as plain memory (the spec's default D28, the model's choice of
log 12). -/
def Obligations.MixedWidthAccesses : Prop :=
  (∀ (s : State) (adr : Addr) (n : Nat) (v : Word), n ≤ 4 →
    s.writeBytes n adr v = s.writing adr v n ∧ (s.readBytes n adr).2 = s.reading adr n ∧
    (∀ i, 8 * n ≤ i → (s.readBytes n adr).1.getLsbD i = false) ∧
    ∀ k, k < n → (s.readBytes n adr).1.extractLsb' (8 * k) 8 =
      ((s.reading adr k).busRead (adr + BitVec.ofNat 32 k)).1) ∧
  (∀ (s : State) (adr : Addr) (v : Word),
    (∀ k, k < 4 → s.spares 8 (adr + BitVec.ofNat 32 k) ∧ s.plain (adr + BitVec.ofNat 32 k)) →
    let t := s.writeBytes 4 adr v
    (t.readBytes 4 adr).1 = v ∧
    (∀ k, k < 4 → (t.readBytes 1 (adr + BitVec.ofNat 32 k)).1 = (v >>> (8 * k)) &&& 0xFF) ∧
    (∀ k, k < 3 → (t.readBytes 2 (adr + BitVec.ofNat 32 k)).1 = (v >>> (8 * k)) &&& 0xFFFF) ∧
    (∀ b : Addr, b ≠ adr → b ≠ adr + 1 → b ≠ adr + 2 → b ≠ adr + 3 → s.spares 4 b → t.byte b = s.byte b)) ∧
  ∀ (s : State) (adr : Addr) (v : Byte),
    (isDevice adr = true ↔ (0xF0000000 ≤ adr.toNat ∧ adr.toNat ≤ 0xFFFDFFFF) ∨ 0xFFFFFF00 ≤ adr.toNat) ∧
    (s.plain adr → s.busRead adr = (s.byte adr, s) ∧
      (∀ b, (s.busWrite adr v).byte b = if b = adr then v else s.byte b) ∧
      s.busWrite adr v = { s with mem := (s.busWrite adr v).mem }) ∧
    (∀ r answers, isDevice adr = true → s.ioReads = r :: answers →
      s.busRead adr = (r.value, ({ s with ioReads := answers } : State).acts r.events)) ∧
    (∀ es effects, isDevice adr = true → s.ioWrites = es :: effects →
      s.busWrite adr v = ({ s with ioWrites := effects } : State).acts es)

/-- R73 to R76 (the stack window by the spec's reading D9): where the platform refines nothing, the addresses that may be
read, written and executed; a refinement grants nothing. -/
def Obligations.PermissionMap : Prop :=
  ∀ (s : State) (adr : Addr),
    let n := adr.toNat
    let inStack := 0xFFFE0000 ≤ n ∧ n ≤ 0xFFFEFFFF
    (s.cfg.restrictions = [] →
      (s.allows .read adr = true ↔ ¬ inStack) ∧
      (s.allows .write adr = true ↔ 0x80000000 ≤ n ∧ ¬ inStack) ∧
      (s.allows .execute adr = true ↔ (0x1000 ≤ n ∧ n ≤ 0x7FFFFFFF) ∨ (0xC0000000 ≤ n ∧ n ≤ 0xEFFFFFFF))) ∧
    (∀ k, s.allows k adr = true → ({ s with cfg := { s.cfg with restrictions := [] } } : State).allows k adr = true)

/-! ## General instructions (40_general.md) -/

/-- R150, R153, R154, R158, R159: encodings, lengths, effects, flags columns; the execute stage costs no cycle and nothing
else changes. -/
def Obligations.NopSecCecScfCcf : Prop :=
  ∀ s : State,
    takesBytes .nop 2 s ∧ (∀ xx, takesBytes (.sec xx) 2 s) ∧ takesBytes .cec 2 s ∧ takesBytes .scf 2 s ∧
    takesBytes .ccf 2 s ∧
    (encode .nop = [0x00, 0x00] ∧ completes .nop s fun t => s.bytesKept t ∧ t = s) ∧
    (∀ xx : Byte, encode (.sec xx) = [xx, 0x03] ∧
      completes (.sec xx) s fun t => s.bytesKept t ∧ t = { s with ec := xx }) ∧
    (encode .cec = [0x00, 0x04] ∧ completes .cec s fun t => s.bytesKept t ∧ t = { s with ec := 0 }) ∧
    (encode .scf = [0x00, 0x08] ∧ completes .scf s fun t =>
      s.flagsAfter t .kept (.is false) (.is false) (.is true) .kept .kept ∧ s.bytesKept t ∧ t = { s with f := t.f }) ∧
    (encode .ccf = [0x00, 0x09] ∧ completes .ccf s fun t =>
      s.flagsAfter t .kept (.is false) (.is false) (.is (!s.flag .C)) .kept .kept ∧ s.bytesKept t ∧
        t = { s with f := t.f })

/-- R160, R161, R162: `FLG` sets `Z` to the complement of bit `16 + k`; `STF` and `CLF` write that bit and no other. -/
def Obligations.SoftwareFlags : Prop :=
  ∀ (k : BitVec 4) (s : State),
    takesBytes (.flg k) 2 s ∧ takesBytes (.stf k) 2 s ∧ takesBytes (.clf k) 2 s ∧
    (encode (.flg k) = [k ++ (0 : BitVec 4), 0x0A] ∧ completes (.flg k) s fun t =>
      s.flagsAfter t (.is (!s.f.getLsbD (16 + k.toNat))) .kept .kept .kept .kept .kept ∧ s.bytesKept t ∧
        t = { s with f := t.f }) ∧
    (encode (.stf k) = [k ++ (0 : BitVec 4), 0x0B] ∧ completes (.stf k) s fun t =>
      bitReplaced (16 + k.toNat) true s.f t.f ∧ s.bytesKept t ∧ t = { s with f := t.f }) ∧
    (encode (.clf k) = [k ++ (0 : BitVec 4), 0x0C] ∧ completes (.clf k) s fun t =>
      bitReplaced (16 + k.toNat) false s.f t.f ∧ s.bytesKept t ∧ t = { s with f := t.f })

/-- R155, R156, R349 (the order of a frame is the spec's choice D1): `DI` clears `IME` in its own frame; `EI` sets the latch,
and the end of the same frame turns it into `IME`, after an interrupt test that still saw the old `IME`. -/
def Obligations.DiAtOnceEiAtTheFramesEnd : Prop :=
  ∀ s : State,
    (completes .di s fun t => s.bytesKept t ∧ t = { s with ime := false }) ∧
    (completes .ei s fun t => s.bytesKept t ∧ t = { s with ei := true }) ∧
    (s.faulted = false → s.hwError = false → s.flag .T = false → s.flag .L = false →
      (s.ei = false → finishFrame (exec .di s) = .next { s with ime := false }) ∧
      (s.ime = false → finishFrame (exec .ei s) = .next { s with ime := true, ei := false }) ∧
      ∃ t, finishFrame (exec .ei s) = .next t ∧ (t.faulted = false → t.ime = true ∧ t.ei = false))

/-- R151, R152, R36, R37: `STOP` sets `F.T`, `HALT` sets `F.L`, no other bit; after `STOP` the rest of the frame is skipped,
whatever is pending (the spec's choice D34). -/
def Obligations.StopAndHaltSetTheirFlag : Prop :=
  ∀ s : State,
    (completes .stop s fun t => bitReplaced 0 true s.f t.f ∧ s.bytesKept t ∧ t = { s with f := t.f } ∧
      finishFrame (exec .stop s) = .next t) ∧
    (completes .halt s fun t => bitReplaced 1 true s.f t.f ∧ s.bytesKept t ∧ t = { s with f := t.f })

/-- R157. The algorithm comes from outside the source (the spec's G1, log 13). -/
def Obligations.DaaAdjustsAl : Prop :=
  ∀ s : State,
    let al : Reg := ⟨.A, .low⟩
    let v := (s.readReg al).toNat
    let n := s.flag .N
    let up : Bool := s.flag .C || (!n && decide (0x99 < v))
    let adj := (if s.flag .H || (!n && decide (9 < v % 16)) then 0x06 else 0) + (if up then 0x60 else 0)
    let r : Byte := if n then BitVec.ofNat 8 (256 + v - adj) else BitVec.ofNat 8 (v + adj)
    completes .daa s fun t =>
      s.regsAfter t al r ∧
      s.flagsAfter t (.is (decide (r = 0))) .kept (.is false) (.is up) .kept (.is (evenParity r)) ∧
      s.bytesKept t ∧ t = { s with a := t.a, b := t.b, c := t.c, d := t.d, f := t.f }

/-! ## Data transfer (41_data_transfer.md) -/

/-- R171: `LD X, IMM`: its encoding, the view that takes the immediate, no flag, no cycle beyond its bytes. -/
def Obligations.LoadImmediate : Prop :=
  ∀ (x : Reg) (imm : Word) (s : State), imm.toNat < 2 ^ x.bits →
    encode (.ldImm x imm) = [x.code ++ (0 : BitVec 4), 0x10] ++ leBytes x.bytes imm ∧
    takesBytes (.ldImm x imm) (2 + x.bytes) s ∧
    completes (.ldImm x imm) s fun t =>
      s.regsAfter t x (imm.setWidth x.bits) ∧ s.bytesKept t ∧
        t = { s with a := t.a, b := t.b, c := t.c, d := t.d }

/-- R170, R172 to R177: the six loads from memory. The view takes the value of its width read at the form's address; the
address is computed from the registers before the write. In the I/O page, where `LDP` always reads, and in the
hardware-reserved RAM the value read is the device's (R84); without one it is memory's (the spec's default D28, the model's
choice of log 12). -/
def Obligations.LoadsFromMemory : Prop :=
  let loads (i : Instr) (x : Reg) (adr : Addr) (s : State) : Prop :=
    s.allowsAll .read x.bytes adr = true →
    completes i s fun t => ∃ v u, s.reads adr x.bytes v u ∧
      u.regsAfter t x (v.setWidth x.bits) ∧ u.bytesKept t ∧ t = { u with a := t.a, b := t.b, c := t.c, d := t.d }
  ∀ (x y : Reg) (s : State),
    (∀ adr, loads (.ldAbs x adr) x adr s) ∧
    (y.bits = 32 → loads (.ldInd x y) x (s.address y) s) ∧
    (∀ h, loads (.ldhAbs x h) x (highPage h) s) ∧
    (y.bits = 16 → loads (.ldhInd x y) x (highPage (s.readReg y)) s) ∧
    (x.bits = 8 → ∀ b, loads (.ldpAbs x b) x (portPage b) s) ∧
    (x.bits = 8 → y.bits = 8 → loads (.ldpInd x y) x (portPage (s.readReg y)) s)

/-- R85, R170, R178 to R183: the six stores. The bytes of the register stand at the form's address, least significant first;
every other byte, every register and every flag stays. In the I/O page, where `STP` always writes, and in the
hardware-reserved RAM the effect is the device's (R84); without one it is memory's (the spec's default D28, the model's choice
of log 12). -/
def Obligations.StoresToMemory : Prop :=
  let stores (i : Instr) (y : Reg) (adr : Addr) (s : State) : Prop :=
    s.allowsAll .write y.bytes adr = true →
    completes i s fun t =>
      t = s.dataWrite adr y.bytes ((s.readReg y).setWidth 32) ∧ OnBus y.bytes { s with da := adr } t ∧
        s.stored t y.bytes adr y.bytes ((s.readReg y).setWidth 32)
  ∀ (x y : Reg) (s : State),
    (∀ adr, stores (.stAbs adr y) y adr s) ∧
    (x.bits = 32 → stores (.stInd x y) y (s.address x) s) ∧
    (∀ h, stores (.sthAbs h y) y (highPage h) s) ∧
    (x.bits = 16 → stores (.sthInd x y) y (highPage (s.readReg x)) s) ∧
    (y.bits = 8 → ∀ b, stores (.stpAbs b y) y (portPage b) s) ∧
    (x.bits = 8 → y.bits = 8 → stores (.stpInd x y) y (portPage (s.readReg x)) s)

/-- R85: the effective addresses of the six forms, as sums (the relative part is unsigned). -/
def Obligations.EffectiveAddresses : Prop :=
  (∀ h : Half, (highPage h).toNat = 0xFFFF0000 + h.toNat) ∧
  (∀ b : Byte, (portPage b).toNat = 0xFFFFFF00 + b.toNat) ∧
  (∀ (s : State) (y : Reg), y.bits = 16 → (highPage (s.readReg y)).toNat = 0xFFFF0000 + (s.readReg y).toNat) ∧
  (∀ (s : State) (y : Reg), y.bits = 8 → (portPage (s.readReg y)).toNat = 0xFFFFFF00 + (s.readReg y).toNat) ∧
  (∀ (s : State) (y : Reg), y.bits = 32 → (s.address y).toNat = (s.readReg y).toNat)

/-- R184: `MV`. Between registers of different widths the value is the parameter's default (the spec's choice D12, log 10):
the source modulo the destination's width. -/
def Obligations.MvCopies : Prop :=
  ∀ (x y : Reg) (s : State), x.bits = y.bits ∨ s.cfg.mvMixedWidth = .zeroExtendTruncate →
    completes (.mv x y) s fun t =>
      s.regsAfter t x (BitVec.ofNat x.bits (s.readReg y).toNat) ∧ s.bytesKept t ∧
        t = { s with a := t.a, b := t.b, c := t.c, d := t.d }

/-- R185, R186, R80 (push and pop by the spec's choice D2): `PUSH` on a stack that is not full, `POP` on one that is not
empty. -/
def Obligations.PushAndPop : Prop :=
  ∀ (x : Reg) (s : State), x.bits = 32 →
    (0xFFFE0000 < s.sp → completes (.push x) s fun t => s.pushed (s.address x) t) ∧
    (s.sp < 0xFFFEFFFC → completes (.pop x) s fun t => ∃ v u, s.popped v u ∧
      u.regsAfter t x (v.setWidth x.bits) ∧ u.bytesKept t ∧ t = { u with a := t.a, b := t.b, c := t.c, d := t.d })

/-! ## Control transfer (42_control_transfer.md) -/

/-- R201, R202: both forms of `JMP`: encodings, the jump when the condition holds, nothing when it does not. That an unassigned
condition and a register that is not 32 bits wide take `INVALID_ARGUMENT`, whatever the condition says, is the spec's choice D11
(R200(d): the source does not say, N21; log 15). -/
def Obligations.JmpGoesToItsTarget : Prop :=
  let jumps (i : Instr) (s : State) (target : Addr) : Prop := completes i s fun t =>
    t = s.jump target ∧ OnBus 1 { s with pc := target } t ∧ s.bytesSpared t 1
  let passes (i : Instr) (s : State) : Prop := completes i s fun t => s.bytesKept t ∧ t = s
  ∀ (z : Cond) (target : Addr) (y : Reg) (s : State),
    encode (.jmpImm z target) = [z.code ++ (0 : BitVec 4), 0x20] ++ leBytes 4 target ∧
    encode (.jmpReg z y) = [z.code ++ y.code, 0x21] ∧
    takesBytes (.jmpImm z target) 6 s ∧ takesBytes (.jmpReg z y) 2 s ∧
    (z.assigned = false → exec (.jmpImm z target) s = .next (s.takeException .invalidArgument)) ∧
    (z.assigned = false ∨ y.bits ≠ 32 → exec (.jmpReg z y) s = .next (s.takeException .invalidArgument)) ∧
    (z.assigned = true → if s.cond z then jumps (.jmpImm z target) s target else passes (.jmpImm z target) s) ∧
    (z.assigned = true → y.bits = 32 →
      if s.cond z then jumps (.jmpReg z y) s (s.address y) else passes (.jmpReg z y) s)

/-- R203: `JPB` adds its signed displacement to the address of the next instruction (the spec's choice D20), modulo `2^32`. -/
def Obligations.JpbIsRelative : Prop :=
  ∀ (z : Cond) (disp : Half) (s : State), z.assigned = true →
    (s.cond z = false → completes (.jpb z disp) s fun t => s.bytesKept t ∧ t = s) ∧
    (s.cond z = true → completes (.jpb z disp) s fun t =>
      (t.pc.toNat : Int) = ((s.pc.toNat : Int) + disp.toInt) % 2 ^ 32 ∧ t = s.jump t.pc ∧ OnBus 1 { s with pc := t.pc } t ∧
        s.bytesSpared t 1)

/-- R204, R205: `CALL` and `INT` push the address of the next instruction and go to their target. `INT` leaves `IME` unless
the parameter `INT_CLEARS_IME` says otherwise (the spec's choice D17, log 11). -/
def Obligations.CallAndInt : Prop :=
  ∀ (z : Cond) (target : Addr) (xx : Byte) (s : State),
    (z.assigned = true → s.cond z = false → completes (.call z target) s fun t => s.bytesKept t ∧ t = s) ∧
    (z.assigned = true → s.cond z = true → 0xFFFE0000 < s.sp → completes (.call z target) s fun t =>
      (∃ u, s.pushed s.pc u ∧ t = u.jump target) ∧ OnBus 6 { s with sp := s.sp - 4, pc := target } t ∧
        s.stored t 6 (s.sp - 4) 4 s.pc) ∧
    (xx.toNat ≤ 0x1F → 0xFFFE0000 < s.sp → completes (.intVec xx) s fun t =>
      (∃ u, s.pushed s.pc u ∧ t = ({ u with ime := t.ime } : State).jump t.pc) ∧ t.pc.toNat = 0x1000 + 0x100 * xx.toNat ∧
        (s.cfg.intClearsIme = false → t.ime = s.ime) ∧ (s.cfg.intClearsIme = true → t.ime = false) ∧
        OnBus 6 { s with sp := s.sp - 4, pc := t.pc, ime := t.ime } t ∧ s.stored t 6 (s.sp - 4) 4 s.pc)

/-- R206, R207 (the spec's choices D2, D36): `RET` and `RETI` pop the program counter; `RETI` sets `IME` at once. -/
def Obligations.RetAndReti : Prop :=
  ∀ (z : Cond) (s : State),
    (z.assigned = true → s.cond z = false → completes (.ret z) s fun t => s.bytesKept t ∧ t = s) ∧
    (z.assigned = true → s.cond z = true → s.sp < 0xFFFEFFFC → completes (.ret z) s fun t =>
      (∃ u, s.popped t.pc u ∧ t = u.jump t.pc) ∧ OnBus 6 { s with pc := t.pc, sp := s.sp + 4 } t ∧ s.bytesSpared t 6) ∧
    (s.sp < 0xFFFEFFFC → completes .reti s fun t =>
      (∃ u, ({ s with ime := true } : State).popped t.pc u ∧ t = u.jump t.pc) ∧
        OnBus 6 { s with ime := true, pc := t.pc, sp := s.sp + 4 } t ∧ s.bytesSpared t 6)

/-! ## Arithmetic (43_arithmetic.md) -/

/-- R221, R223 (half-borrow by the spec's choice D14): `INC X` and `DEC X` at every width; `C` and `S` stay. -/
def Obligations.IncAndDecRegisters : Prop :=
  ∀ (x : Reg) (s : State),
    let w := x.bits
    let v := (s.readReg x).toNat
    let steps (i : Instr) (r : BitVec w) (n h : Bool) : Prop := completes i s fun t =>
      s.regsAfter t x r ∧
      s.flagsAfter t (.is (decide (r = 0))) (.is n) (halfEffect w h) .kept .kept (.is (evenParity r)) ∧
      s.bytesKept t ∧ t = { s with a := t.a, b := t.b, c := t.c, d := t.d, f := t.f, draws := t.draws }
    steps (.incReg x) (BitVec.ofNat w (v + 1)) false (decide (2 ^ (w - 4) ≤ v % 2 ^ (w - 4) + 1)) ∧
    steps (.decReg x) (BitVec.ofNat w (2 ^ w + v - 1)) true (decide (v % 2 ^ (w - 4) < 1))

/-- R222, R224: `INC [X32]` and `DEC [X32]` on the byte at the address in `X`; the platform may act between the read of the
byte and the write (R83, R91). -/
def Obligations.IncAndDecMemory : Prop :=
  ∀ (x : Reg) (s : State), x.bits = 32 → s.allows .read (s.address x) = true → s.allows .write (s.address x) = true →
    let steps (i : Instr) (r : Nat → Byte) (n : Bool) (h : Nat → Bool) : Prop := completes i s fun t =>
      ∃ (b : Byte) (u : State), s.modifies (s.address x) b (r b.toNat) u ∧
        u.flagsAfter t (.is (decide (r b.toNat = 0))) (.is n) (.is (h b.toNat)) .kept .kept (.is (evenParity (r b.toNat))) ∧
        t = { u with f := t.f }
    steps (.incMem x) (fun v => BitVec.ofNat 8 (v + 1)) false (fun v => decide (v % 16 = 15)) ∧
    steps (.decMem x) (fun v => BitVec.ofNat 8 (v + 255)) true (fun v => decide (v % 16 = 0))

/-- R220, R225 to R230: `ADD` and `ADC` in their three forms, at every width. -/
def Obligations.AddAndAdc : Prop :=
  let adds (i : Instr) (x : Reg) (y : BitVec x.bits) (c : Bool) (s u : State) : Prop := completes i s fun t =>
    let w := x.bits
    let v := s.readReg x
    let sum := v.toNat + y.toNat + c.toNat
    let r := BitVec.ofNat w sum
    let half := v.toNat % 2 ^ (w - 4) + y.toNat % 2 ^ (w - 4) + c.toNat
    u.regsAfter t x r ∧
    u.flagsAfter t (.is (decide (r = 0))) (.is false) (halfEffect w (decide (2 ^ (w - 4) ≤ half)))
      (.is (decide (2 ^ w ≤ sum))) (.is false) (.is (evenParity r)) ∧
    u.bytesKept t ∧ t = { u with a := t.a, b := t.b, c := t.c, d := t.d, f := t.f, draws := t.draws }
  ∀ (x y : Reg) (imm : Word) (adr : Addr) (s : State),
    adds (.addImm x imm) x (imm.setWidth x.bits) false s s ∧
    adds (.adcImm x imm) x (imm.setWidth x.bits) (s.flag .C) s s ∧
    (s.allowsAll .read x.bytes adr = true → ∃ v u, s.reads adr x.bytes v u ∧
      adds (.addAbs x adr) x (v.setWidth x.bits) false s u ∧ adds (.adcAbs x adr) x (v.setWidth x.bits) (s.flag .C) s u ∧
      (y.bits = 32 → s.address y = adr →
        adds (.addInd x y) x (v.setWidth x.bits) false s u ∧ adds (.adcInd x y) x (v.setWidth x.bits) (s.flag .C) s u))

/-- R220, R231 to R236 (borrow and sign by the spec's choices D14, D15): `SUB` and `SBC` in their three forms, at every
width. -/
def Obligations.SubAndSbc : Prop :=
  let subs (i : Instr) (x : Reg) (y : BitVec x.bits) (c : Bool) (s u : State) : Prop := completes i s fun t =>
    let w := x.bits
    let v := s.readReg x
    let r := BitVec.ofInt w ((v.toNat : Int) - y.toNat - c.toNat)
    let half : Int := (v.toNat % 2 ^ (w - 4) : Nat) - (y.toNat % 2 ^ (w - 4) : Nat) - c.toNat
    u.regsAfter t x r ∧
    u.flagsAfter t (.is (decide (r = 0))) (.is true) (halfEffect w (decide (half < 0)))
      (.is (decide ((v.toNat : Int) - y.toNat - c.toNat < 0))) (.is (decide (r.toInt < 0))) (.is (evenParity r)) ∧
    u.bytesKept t ∧ t = { u with a := t.a, b := t.b, c := t.c, d := t.d, f := t.f, draws := t.draws }
  ∀ (x y : Reg) (imm : Word) (adr : Addr) (s : State),
    subs (.subImm x imm) x (imm.setWidth x.bits) false s s ∧
    subs (.sbcImm x imm) x (imm.setWidth x.bits) (s.flag .C) s s ∧
    (s.allowsAll .read x.bytes adr = true → ∃ v u, s.reads adr x.bytes v u ∧
      subs (.subAbs x adr) x (v.setWidth x.bits) false s u ∧ subs (.sbcAbs x adr) x (v.setWidth x.bits) (s.flag .C) s u ∧
      (y.bits = 32 → s.address y = adr →
        subs (.subInd x y) x (v.setWidth x.bits) false s u ∧ subs (.sbcInd x y) x (v.setWidth x.bits) (s.flag .C) s u))

/-! ## Bitwise and comparison (44_bitwise.md, 45_comparison.md) -/

/-- R250 to R259: `AND`, `OR` and `XOR` in their three forms, bit by bit, with the columns `?0100?` and `?0000?`. -/
def Obligations.AndOrXor : Prop :=
  let combines (op : Bool → Bool → Bool) (i : Instr) (x : Reg) (y : BitVec x.bits) (h : Bool) (s u : State) : Prop :=
    completes i s fun t =>
      ∃ r : BitVec x.bits, (∀ k, k < x.bits → r.getLsbD k = op ((s.readReg x).getLsbD k) (y.getLsbD k)) ∧
        u.regsAfter t x r ∧
        u.flagsAfter t (.is (decide (r = 0))) (.is false) (.is h) (.is false) (.is false) (.is (evenParity r)) ∧
        u.bytesKept t ∧ t = { u with a := t.a, b := t.b, c := t.c, d := t.d, f := t.f }
  ∀ (x y : Reg) (imm : Word) (adr : Addr) (s : State),
    combines and (.andImm x imm) x (imm.setWidth x.bits) true s s ∧
    combines or (.orImm x imm) x (imm.setWidth x.bits) false s s ∧
    combines xor (.xorImm x imm) x (imm.setWidth x.bits) false s s ∧
    (s.allowsAll .read x.bytes adr = true → ∃ v u, s.reads adr x.bytes v u ∧
      combines and (.andAbs x adr) x (v.setWidth x.bits) true s u ∧
      combines or (.orAbs x adr) x (v.setWidth x.bits) false s u ∧
      combines xor (.xorAbs x adr) x (v.setWidth x.bits) false s u ∧
      (y.bits = 32 → s.address y = adr →
        combines and (.andInd x y) x (v.setWidth x.bits) true s u ∧
        combines or (.orInd x y) x (v.setWidth x.bits) false s u ∧
        combines xor (.xorInd x y) x (v.setWidth x.bits) false s u))

/-- R260, R261: `NOT X` and `NOT [X32]` complement every bit; the column is `-11---`. -/
def Obligations.NotComplements : Prop :=
  ∀ (x : Reg) (s : State),
    (completes (.notReg x) s fun t =>
      ∃ r : BitVec x.bits, (∀ k, k < x.bits → r.getLsbD k = !(s.readReg x).getLsbD k) ∧ s.regsAfter t x r ∧
        s.flagsAfter t .kept (.is true) (.is true) .kept .kept .kept ∧ s.bytesKept t ∧
        t = { s with a := t.a, b := t.b, c := t.c, d := t.d, f := t.f }) ∧
    (x.bits = 32 → s.allows .read (s.address x) = true → s.allows .write (s.address x) = true →
      completes (.notMem x) s fun t => ∃ b r u,
        s.modifies (s.address x) b r u ∧ (∀ k, k < 8 → r.getLsbD k = !b.getLsbD k) ∧
        u.flagsAfter t .kept (.is true) (.is true) .kept .kept .kept ∧ t = { u with f := t.f })

/-- R270 to R274 (that `CMP` is a subtraction whose result is dropped is the spec's inference): `CMP` in its three forms writes
no register; `Z` tells equality, `C` the unsigned order, `S` the top bit of the difference; `P` stays. -/
def Obligations.CmpCompares : Prop :=
  let compares (i : Instr) (x : Reg) (y : BitVec x.bits) (s u : State) : Prop := completes i s fun t =>
    let w := x.bits
    let v := s.readReg x
    u.flagsAfter t (.is (decide (v = y))) (.is true)
      (halfEffect w (decide (v.toNat % 2 ^ (w - 4) < y.toNat % 2 ^ (w - 4)))) (.is (decide (v < y)))
      (.is ((v - y).getLsbD (w - 1))) .kept ∧
    u.bytesKept t ∧ t = { u with f := t.f, draws := t.draws }
  ∀ (x y : Reg) (imm : Word) (adr : Addr) (s : State),
    compares (.cmpImm x imm) x (imm.setWidth x.bits) s s ∧
    (s.allowsAll .read x.bytes adr = true → ∃ v u, s.reads adr x.bytes v u ∧
      compares (.cmpAbs x adr) x (v.setWidth x.bits) s u ∧
      (y.bits = 32 → s.address y = adr → compares (.cmpInd x y) x (v.setWidth x.bits) s u))

/-! ## Shifts, rotates and bits (46_shift_rotate.md, 47_bit_ops.md) -/

/-- R280, R281 to R293 odd: the seven register forms, bit by bit: the direction, the bit that enters, the bit that goes to
`C`. That `RRC` takes the old bit 0 in at the top is the spec's own correction of the source's note (conflict C6, R280(d);
log 15). -/
def Obligations.ShiftsOfRegisters : Prop :=
  ∀ (x : Reg) (s : State),
    let v := s.readReg x
    let top := v.getLsbD (x.bits - 1)
    let bottom := v.getLsbD 0
    let moves (i : Instr) (left enters leaves : Bool) : Prop := completes i s fun t =>
      ∃ r : BitVec x.bits, shiftedIn left enters v r ∧ s.regsAfter t x r ∧
        s.flagsAfter t (.is (decide (r = 0))) (.is false) (.is false) (.is leaves) .kept (.is (evenParity r)) ∧
        s.bytesKept t ∧ t = { s with a := t.a, b := t.b, c := t.c, d := t.d, f := t.f }
    moves (.slaReg x) true false top ∧
    moves (.sraReg x) false top bottom ∧
    moves (.srlReg x) false false bottom ∧
    moves (.rlReg x) true (s.flag .C) top ∧
    moves (.rlcReg x) true top top ∧
    moves (.rrReg x) false (s.flag .C) bottom ∧
    moves (.rrcReg x) false bottom bottom

/-- R280(g): the seven memory forms, on the byte at the address in `X`; the platform may act between the read of the byte and
the write (R83, R91). That `RRC` takes the old bit 0 in at the top is the spec's own correction of the source's note (conflict
C6, R280(d); log 15). -/
def Obligations.ShiftsOfMemory : Prop :=
  ∀ (x : Reg) (s : State), x.bits = 32 → s.allows .read (s.address x) = true → s.allows .write (s.address x) = true →
    let top (b : Byte) : Bool := b.getLsbD 7
    let bottom (b : Byte) : Bool := b.getLsbD 0
    let moves (i : Instr) (left : Bool) (enters leaves : Byte → Bool) : Prop := completes i s fun t => ∃ b r u,
      s.modifies (s.address x) b r u ∧ shiftedIn left (enters b) b r ∧
        u.flagsAfter t (.is (decide (r = 0))) (.is false) (.is false) (.is (leaves b)) .kept (.is (evenParity r)) ∧
        t = { u with f := t.f }
    moves (.slaMem x) true (fun _ => false) top ∧
    moves (.sraMem x) false top bottom ∧
    moves (.srlMem x) false (fun _ => false) bottom ∧
    moves (.rlMem x) true (fun _ => s.flag .C) top ∧
    moves (.rlcMem x) true top top ∧
    moves (.rrMem x) false (fun _ => s.flag .C) bottom ∧
    moves (.rrcMem x) false bottom bottom

/-- R311, R312 (the memory form's range by the spec's choice D33): `BIT` sets `Z` to the complement of the tested bit and
writes no register and no memory. -/
def Obligations.BitTests : Prop :=
  ∀ (xd : Byte) (x : Reg) (s : State),
    (xd.toNat < x.bits → completes (.bitReg xd x) s fun t =>
      s.flagsAfter t (.is (!(s.readReg x).getLsbD xd.toNat)) (.is false) (.is true) .kept .kept .kept ∧ s.bytesKept t ∧
        t = { s with f := t.f }) ∧
    (xd.toNat < 8 → x.bits = 32 → s.allows .read (s.address x) = true → completes (.bitMem xd x) s fun t => ∃ v u,
      s.reads (s.address x) 1 v u ∧ u.flagsAfter t (.is (!v.getLsbD xd.toNat)) (.is false) (.is true) .kept .kept .kept ∧
        u.bytesKept t ∧ t = { u with f := t.f })

/-- R313, R315, R317: `TOG`, `SET` and `RES` of a register change the one bit, and no flag. -/
def Obligations.BitChangesOfRegisters : Prop :=
  ∀ (xd : Byte) (x : Reg) (s : State), xd.toNat < x.bits →
    let v := s.readReg x
    let changes (i : Instr) (b : Bool) : Prop := completes i s fun t =>
      ∃ r : BitVec x.bits, bitReplaced xd.toNat b v r ∧ s.regsAfter t x r ∧ s.bytesKept t ∧
        t = { s with a := t.a, b := t.b, c := t.c, d := t.d }
    changes (.togReg xd x) (!v.getLsbD xd.toNat) ∧ changes (.setReg xd x) true ∧ changes (.resReg xd x) false

/-- R314, R316, R318 (the range by the spec's choice D33): the same of the byte at the address in `X`; the platform may act
between the read of the byte and the write (R83, R91). -/
def Obligations.BitChangesOfMemory : Prop :=
  ∀ (xd : Byte) (x : Reg) (s : State), xd.toNat < 8 → x.bits = 32 → s.allows .read (s.address x) = true →
    s.allows .write (s.address x) = true →
    let changes (i : Instr) (new : Bool → Bool) : Prop := completes i s fun t => ∃ b r,
      s.modifies (s.address x) b r t ∧ bitReplaced xd.toNat (new (b.getLsbD xd.toNat)) b r
    changes (.togMem xd x) (fun old => !old) ∧ changes (.setMem xd x) (fun _ => true) ∧ changes (.resMem xd x) (fun _ => false)

/-! ## Exceptions (60_exceptions.md) -/

/-- R122, R333 (the spec's choice D11): an instruction whose arguments its row does not allow takes `INVALID_ARGUMENT` and does
nothing else; so does a mixed-width `MV` where the platform reads it so (log 10). -/
def Obligations.InvalidArgumentsTrap : Prop :=
  (∀ (i : Instr) (s : State), i.argsValid = false → exec i s = .next (s.takeException .invalidArgument)) ∧
  (∀ (x y : Reg) (s : State), x.bits ≠ y.bits → s.cfg.mvMixedWidth = .invalidArgument →
    exec (.mv x y) s = .next (s.takeException .invalidArgument))

/-- R77, R87, R334 (all bytes checked first: the spec's choice D8): a data read with a refused byte takes `INVALID_READ`; at
the raise `SA` holds the address (and `DA` too in a read-modify-write form), nothing else has changed. -/
def Obligations.RefusedReadsTrap : Prop :=
  ∀ (i : Instr) (s : State) (adr : Addr) (n : Nat),
    i.argsValid = true → readSite i s = some (adr, n) → s.allowsAll .read n adr = false →
    exec i s = .next
      ({ s with sa := adr, da := if (writeSite i s).isSome then adr else s.da }.takeException .invalidRead)

/-- R78, R87, R335: a data write with a refused byte takes `INVALID_WRITE` and writes no byte; a read-modify-write form has
done its read. -/
def Obligations.RefusedWritesTrap : Prop :=
  ∀ (i : Instr) (s : State) (adr : Addr) (n : Nat),
    i.argsValid = true → writeSite i s = some (adr, n) → s.allowsAll .write n adr = false →
    (readSite i s = none → exec i s = .next ({ s with da := adr }.takeException .invalidWrite)) ∧
    (readSite i s = some (adr, n) → s.allowsAll .read n adr = true →
      exec i s = .next ((({ s with da := adr } : State).dataRead adr n).2.takeException .invalidWrite))

/-- R337, R338, R344 (the spec's choices D3, D4): a push on a full stack ends in the double fault with `sp`, `pc` and memory as
they were; a pop from an empty stack takes `STACK_UNDERFLOW` with nothing popped. -/
def Obligations.StackRefusalsTrap : Prop :=
  ∀ (i : Instr) (s : State), i.argsValid = true →
    (pushes i s = true → s.sp ≤ 0xFFFE0000 → exec i s = .next { s with ec := 0x06, faulted := true, raised := true }) ∧
    (pops i s = true → 0xFFFEFFFC ≤ s.sp → exec i s = .next (s.takeException .stackUnderflow))

/-- R331, R341 (the spec's choices D17, D20, D24; log 11): exception entry on a stack with room: the code in `EC`, the `pc` of
the raise pushed, control at vector 0; every other register, flag and byte stays, but for the platform's acts in its six cycles. -/
def Obligations.ExceptionEntry : Prop :=
  Exc.invalidOpcode.code = 0x01 ∧ Exc.invalidArgument.code = 0x02 ∧ Exc.invalidRead.code = 0x03 ∧
  Exc.invalidWrite.code = 0x04 ∧ Exc.invalidExecute.code = 0x05 ∧ Exc.stackOverflow.code = 0x06 ∧
  Exc.stackUnderflow.code = 0x07 ∧ Exc.hardwareError.code = 0x09 ∧
  ∀ (e : Exc) (s : State), 0xFFFE0000 < s.sp →
    let t := s.takeException e
    t.ec = e.code ∧ t.pc = 0x00001000 ∧ t.sp = s.sp - 4 ∧ s.stored t 6 (s.sp - 4) 4 s.pc ∧
    (s.cfg.intClearsIme = false → t.ime = s.ime) ∧ (s.cfg.intClearsIme = true → t.ime = false) ∧
    OnBus 6 { s with ec := t.ec, pc := t.pc, sp := t.sp, ime := t.ime, raised := true } t

/-- R344 (the spec's choice D4; the stuck state by log 8): an entry that finds the stack full ends in `Faulted` with `EC` at
`0x06`; from there no step has a next state. -/
def Obligations.FullStackEntryFaults : Prop :=
  (∀ (e : Exc) (s : State), s.sp ≤ 0xFFFE0000 →
    s.takeException e = { s with ec := 0x06, faulted := true, raised := true }) ∧
  (∀ (k : Nat) (s : State), s.sp ≤ 0xFFFE0000 →
    s.takeInterrupt k = { s with ec := 0x06, faulted := true, raised := true }) ∧
  (∀ s : State, s.faulted = true → step s = .fault .doubleFault)

/-- R343 (the spec's choice D21), R12: an instruction that raises has no effect of its own: registers, flags, `IF`, `IE`, `EI`
and memory outside the pushed slot stay, but for the platform's acts in its cycles; `IME` is what the entry makes of it, and the
machine is at vector 0 or faulted. -/
def Obligations.ExceptionsArePrecise : Prop :=
  ∀ (i : Instr) (s t : State), s.raised = false → exec i s = .next t → t.raised = true →
    ∃ n, OnBus n { s with
        pc := t.pc, sp := t.sp, sa := t.sa, da := t.da, sd := t.sd, ec := t.ec, ime := t.ime, faulted := t.faulted
        raised := true } t ∧
      ((s.sp ≤ 0xFFFE0000 ∧ t.faulted = true ∧ t.ec = 0x06 ∧ t.ime = s.ime ∧ t.sp = s.sp ∧ t.pc = s.pc ∧
          s.bytesSpared t n) ∨
        (0xFFFE0000 < s.sp ∧ t.faulted = s.faulted ∧ t.ime = (s.ime && !s.cfg.intClearsIme) ∧ t.sp = s.sp - 4 ∧
          t.pc = 0x00001000 ∧ s.stored t n (s.sp - 4) 4 s.pc))

/-- Every instruction answers a next state in every state: the execute stage never stops the model. -/
def Obligations.EveryInstructionAnswers : Prop :=
  ∀ (i : Instr) (s : State), ∃ t, exec i s = .next t

/-- R30, R32, R33, R36, R37, R44, R45, R51: which instructions write the control state: only `STOP` changes `F.T` and only
`HALT` `F.L`, only `STF` and `CLF` the software flags, none the reserved flags, `IF` or `IE`; only `RETI` sets `IME`; only `EI`
the latch; `EC` changes by `SEC`, `CEC` or an exception. The software flags, `IF` and `IE` change by the platform besides, where
it writes them in the instruction's cycles. -/
def Obligations.ControlStateHasFewWriters : Prop :=
  ∀ (i : Instr) (s t : State), exec i s = .next t →
    let acts := s.actsWithin (t.cycles - s.cycles)
    (t.flag .T = s.flag .T ∨ i = .stop) ∧ (t.flag .L = s.flag .L ∨ i = .halt) ∧
    (∀ k : BitVec 4, t.f.getLsbD (16 + k.toNat) = s.f.getLsbD (16 + k.toNat) ∨ i = .stf k ∨ i = .clf k ∨
      ∃ v, .writeSoftFlags v ∈ acts) ∧
    t.f.extractLsb' 8 8 = s.f.extractLsb' 8 8 ∧ (t.intEnable = s.intEnable ∨ ∃ v, .writeEnable v ∈ acts) ∧
    (∀ k : BitVec 5, t.intFlags.getLsbD k.toNat = s.intFlags.getLsbD k.toNat ∨ .raiseInterrupt k ∈ acts ∨
      .clearInterrupt k ∈ acts) ∧
    (t.ime = true → s.ime = true ∨ i = .reti) ∧ (t.ei = s.ei ∨ i = .ei) ∧
    (t.ec = s.ec ∨ t.raised = true ∨ i = .cec ∨ ∃ xx, i = .sec xx)

/-! ## The frame (60_exceptions.md) -/

/-- R118, R330 (the order of a frame is the spec's choice D1): where the bytes the fetch sees at the program counter decode to
`i` and may be executed, a frame of a running machine is `exec` of `i` on the state the fetch leaves, then the end of the frame.
The fetch reads one byte a cycle, and the platform acts in each (the schedule of its acts is the model's choice, log 2): a byte
it does not write is memory's. `pc` is past the instruction, `ip` at it, `CI` the opcode read; that its immediate stands in `SD` or
`XD` is the model's reading (log 14). -/
def Obligations.StepRunsTheDecodedInstruction : Prop :=
  ∀ (s : State) (i : Instr), s.faulted = false → s.flag .T = false → s.flag .L = false → i.wellFormed = true →
    s.allowsAll .execute i.length s.pc = true →
    decode s.cfg.strictZeroNibble (s.bytesSeen s.pc i.length) = .ok (i, []) →
    let u := s.fetched i
    step s = finishFrame (exec i u) ∧
    (∀ k, s.spares k (s.pc + BitVec.ofNat 32 k) →
      (s.clocks k).byte (s.pc + BitVec.ofNat 32 k) = s.byte (s.pc + BitVec.ofNat 32 k)) ∧
    u.pc = s.pc + BitVec.ofNat 32 i.length ∧ u.ip = s.pc ∧ u.ci = s.clock.byte (s.pc + 1) ++ s.byte s.pc ∧
    s.bytesSpared u i.length ∧
    OnBus i.length { s with
      pc := u.pc, ip := u.ip, sa := 0, da := 0, sd := u.sd, ci := u.ci, xd := u.xd, raised := false } u

/-- R79, R118, R336 (the spec's choices D6, D20): a refused opcode fetch leaves `pc = ip`; a refused immediate fetch leaves
`pc = ip + 2`; both raise `INVALID_EXECUTE`. A frame whose fetch or decode raises is the entry from the state at the raise, then
the end of the frame (R330). -/
def Obligations.RefusedFetchesRaise : Prop :=
  ∀ s : State,
    (s.allowsAll .execute 2 s.pc = false →
      s.fetchDecode = .raised .invalidExecute s.beginInstruction ∧ s.beginInstruction.pc = s.pc ∧
        s.beginInstruction.ip = s.pc) ∧
    (∀ op : Half, s.allowsAll .execute 2 s.pc = true → s.clock.byte (s.pc + 1) ++ s.byte s.pc = op →
      Instr.ofOpcode s.cfg.strictZeroNibble op 0 ≠ none → s.allowsAll .execute (immBytes op) (s.pc + 2) = false →
      ∃ t, s.fetchDecode = .raised .invalidExecute t ∧ t.ip = s.pc ∧ t.pc = s.pc + 2 ∧ t.ci = op ∧
        t.cycles = s.cycles + 2) ∧
    (s.faulted = false → s.flag .T = false → s.flag .L = false → ∀ e u, s.fetchDecode = .raised e u →
      step s = .next (u.takeException e).afterInstruction)

/-- R346, R348: the service test enters nothing without `IME` or without an enabled pending interrupt, and otherwise the
lowest-numbered one; it stands at the end of a running frame, after the instruction and before the commit of `EI` (R330; the
order is the spec's choice D1). -/
def Obligations.LowestInterruptIsServiced : Prop :=
  ∀ s : State,
    (s.ime = false → s.serviceInterrupt = s) ∧ (s.intFlags &&& s.intEnable = 0 → s.serviceInterrupt = s) ∧
    (∀ k, s.ime = true → s.intFlags.getLsbD k = true → s.intEnable.getLsbD k = true →
      (∀ j, j < k → s.intFlags.getLsbD j = false ∨ s.intEnable.getLsbD j = false) →
      s.serviceInterrupt = s.takeInterrupt k ∧
      (s.faulted = false → s.flag .T = false → s.flag .L = false → s.hwError = false →
        (s.ei = false → s.afterInstruction = s.takeInterrupt k) ∧
        (s.ei = true → 0xFFFE0000 < s.sp → s.afterInstruction = { s.takeInterrupt k with ime := true, ei := false })))

/-- R347, R353, R354 (`F.H` by the spec's choice D18, the cycles by D24): interrupt entry on a stack with room: `IF[k]`, `IME`
and `F.H` cleared, `pc` pushed, control at vector `k`; nothing else but the platform's acts in its six cycles. -/
def Obligations.InterruptEntry : Prop :=
  ∀ (k : Nat) (s : State), k < 32 → 0xFFFE0000 < s.sp →
    ∃ m : State, m = { s with intFlags := m.intFlags, f := m.f } ∧ bitReplaced k false s.intFlags m.intFlags ∧
      s.flagsAfter m .kept .kept (.is false) .kept .kept .kept ∧
      let t := s.takeInterrupt k
      t.ime = false ∧ t.sp = s.sp - 4 ∧ t.pc.toNat = 0x1000 + 0x100 * k ∧ s.stored t 6 (s.sp - 4) 4 s.pc ∧
      OnBus 6 { m with ime := false, sp := t.sp, pc := t.pc } t

/-- R355, R37 (one idle cycle: the spec's choice D23): a halted frame runs no instruction; any interrupt pending after its
cycle, enabled or not, clears `F.L`; without one the machine stays halted; an enabled one is entered in the same frame. -/
def Obligations.HaltedFrame : Prop :=
  ∀ s : State, s.faulted = false → s.ei = false → s.flag .T = false → s.flag .L = true →
    let p := s.clock
    OnBus 1 s p ∧ s.bytesSpared p 1 ∧
    (p.intFlags = 0 → step s = .next p) ∧
    (p.intFlags ≠ 0 → ∃ u : State, bitReplaced 1 false p.f u.f ∧ u = { p with f := u.f } ∧
      (p.ime = false ∨ p.intFlags &&& p.intEnable = 0 → step s = .next u) ∧
      (∀ k, p.ime = true → p.intFlags.getLsbD k = true → p.intEnable.getLsbD k = true →
        (∀ j, j < k → p.intFlags.getLsbD j = false ∨ p.intEnable.getLsbD j = false) →
        step s = .next (u.takeInterrupt k)))

/-- R356, R357 (the wake event and the cycle count by the spec's choices D37, D23; the list of what the platform does in stopped
frames is the model's, log 2): a stopped frame runs nothing, tests nothing and consumes no cycle; the lines the platform raises
meanwhile become pending; a wake event clears `F.T` and nothing else. -/
def Obligations.StoppedFrame : Prop :=
  ∀ s : State, s.faulted = false → s.flag .T = true →
    ∃ t, step s = .next t ∧ t = { s with standby := s.standby.tail, intFlags := t.intFlags, f := t.f } ∧
      (s.standby = [] → t = s) ∧
      ∀ now later, s.standby = now :: later →
        (∀ k, t.intFlags.getLsbD k = (s.intFlags.getLsbD k || now.lines.getLsbD k)) ∧
        (now.wake = false → t.f = s.f) ∧ (now.wake = true → bitReplaced 0 false s.f t.f)

/-- R340 (its moment is the spec's choice D22; the latch is the model's, log 3): after an instruction that raised nothing a
waiting hardware error is entered with code `0x09` and the address of the next instruction pushed, or ends in the double fault
where the stack is full (R344, D4); after one that raised it waits. The delivery stands before the halt-wake and the interrupt
test, which may enter an interrupt on top of it (R330, R341). -/
def Obligations.HardwareErrorDelivery : Prop :=
  ∀ s : State,
    let t := s.deliverHwError
    (s.hwError = false ∨ s.raised = true → t = s) ∧
    (s.hwError = true → s.raised = false → s.sp ≤ 0xFFFE0000 →
      t = { s with hwError := false, ec := 0x06, faulted := true, raised := true }) ∧
    (s.hwError = true → s.raised = false → 0xFFFE0000 < s.sp →
      t.ec = 0x09 ∧ t.pc = 0x00001000 ∧ t.sp = s.sp - 4 ∧ s.stored t 6 (s.sp - 4) 4 s.pc ∧
      (s.cfg.intClearsIme = false → t.ime = s.ime) ∧ (s.cfg.intClearsIme = true → t.ime = false) ∧
      OnBus 6 { s with hwError := false, ec := t.ec, pc := t.pc, sp := t.sp, ime := t.ime, raised := true } t) ∧
    (s.faulted = false → s.flag .T = false →
      (t.faulted = true → s.afterInstruction = t) ∧ (t.faulted = false → s.afterInstruction = t.endFrame) ∧
      (s.flag .L = false → s.ime = false → s.ei = false → s.afterInstruction = t))

/-! ## The whole machine -/

/-- The invariant of a frame boundary: memory is canonical, `sp` is a multiple of 4 in the stack window (R27), `F[15:8]` is 0
(R44), the `EI` latch is 0 (R33; log 8). Every step keeps it, whatever the platform does. -/
def Obligations.EveryStepKeepsTheInvariant : Prop :=
  ∀ s t : State, s.sound = true → step s = .next t → t.sound = true

/-- The state after reset meets the invariant. -/
def Obligations.ResetMeetsTheInvariant : Prop := State.reset.sound = true

/-- R74, R83, R95: a byte below `0x80000000` (metadata, vectors, program) changes only where the platform writes that very byte
in the frame's cycles (the schedule of its acts is the model's choice, log 2): whatever instruction, exception or interrupt the
frame runs. -/
def Obligations.ProgramMemoryIsReadOnly : Prop :=
  ∀ (s t : State) (adr : Addr), s.sound = true → step s = .next t → adr.toNat < 0x80000000 →
    (∀ v, .writeByte adr v ∉ s.actsWithin (t.cycles - s.cycles)) → t.byte adr = s.byte adr

/-- R6, R17, R34, R50, R345: the CPU never writes `IE` and never sets a bit of `IF`; only the platform does, by its acts in the
frame's cycles, each of which is one cycle's list, and by the lines it raises in a stopped frame (R356; the schedule is the
model's choice, log 2). No step changes the platform's
parameters (the model's own field, log 4). -/
def Obligations.PlatformOwnsInterruptLines : Prop :=
  (∀ s t : State, step s = .next t →
    let n := t.cycles - s.cycles
    t.cfg = s.cfg ∧ t.platform = s.platform.drop n ∧ t.cycles = s.cycles + n ∧
    ((∀ v, .writeEnable v ∉ s.actsWithin n) → t.intEnable = s.intEnable) ∧
    (∀ k : BitVec 5, t.intFlags.getLsbD k.toNat = true → s.intFlags.getLsbD k.toNat = true ∨
      .raiseInterrupt k ∈ s.actsWithin n ∨
      (s.flag .T = true ∧ ∃ now later, s.standby = now :: later ∧ now.lines.getLsbD k.toNat = true))) ∧
  (∀ (s : State) (e : PlatformEvent) (es : List PlatformEvent), s.acts [] = s ∧ s.acts (e :: es) = (s.acts [e]).acts es) ∧
  (∀ (s : State) (k : BitVec 5) (v : Word) (h : Half) (adr : Addr) (b : Byte),
    (bitReplaced k.toNat true s.intFlags (s.acts [.raiseInterrupt k]).intFlags ∧
      s.acts [.raiseInterrupt k] = { s with intFlags := (s.acts [.raiseInterrupt k]).intFlags }) ∧
    (bitReplaced k.toNat false s.intFlags (s.acts [.clearInterrupt k]).intFlags ∧
      s.acts [.clearInterrupt k] = { s with intFlags := (s.acts [.clearInterrupt k]).intFlags }) ∧
    s.acts [.writeEnable v] = { s with intEnable := v } ∧
    s.acts [.writeSoftFlags h] = { s with f := h ++ s.f.extractLsb' 0 16 } ∧
    ((∀ a, (s.acts [.writeByte adr b]).byte a = if a = adr then b else s.byte a) ∧
      s.acts [.writeByte adr b] = { s with mem := (s.acts [.writeByte adr b]).mem }) ∧
    s.acts [.hwError] = { s with hwError := true })

/-- R392, R393 (the accounting rule decides: the spec's choice D35): the cycles of every instruction that raises nothing, its
bytes among them. -/
def Obligations.CyclesOfTheTable : Prop :=
  ∀ (i : Instr) (s t : State), s.raised = false → exec i s = .next t → t.raised = false →
    t.cycles + i.length = s.cycles + tableCycles i (takes i s)

end
end

