-- ==== Sys2Proof/Laws/State.lean ====
section
/-! SUPPORT. What each update of the state does to each field, one lemma per field and update, so that no proof unfolds a
record update. -/

namespace Sys2Proof.Machine

variable (s : State)

/-- The platform's acts reach `F`, `IF`, `IE`, memory and the error latch. -/
theorem State.acts_frame (es : List PlatformEvent) : s.acts es = { s with
    f := (s.acts es).f, intFlags := (s.acts es).intFlags, intEnable := (s.acts es).intEnable, mem := (s.acts es).mem
    hwError := (s.acts es).hwError } := by
  unfold State.acts
  induction es generalizing s with
  | nil => rfl
  | cons e es ih =>
    rw [List.foldl_cons, ih]
    cases e <;> rfl

/-! ## `setFlag` -/

@[simp] theorem State.setFlag_a (g : Flag) (b : Bool) : (s.setFlag g b).a = s.a := rfl
@[simp] theorem State.setFlag_b (g : Flag) (b : Bool) : (s.setFlag g b).b = s.b := rfl
@[simp] theorem State.setFlag_c (g : Flag) (b : Bool) : (s.setFlag g b).c = s.c := rfl
@[simp] theorem State.setFlag_d (g : Flag) (b : Bool) : (s.setFlag g b).d = s.d := rfl
@[simp] theorem State.setFlag_pc (g : Flag) (b : Bool) : (s.setFlag g b).pc = s.pc := rfl
@[simp] theorem State.setFlag_ip (g : Flag) (b : Bool) : (s.setFlag g b).ip = s.ip := rfl
@[simp] theorem State.setFlag_sp (g : Flag) (b : Bool) : (s.setFlag g b).sp = s.sp := rfl
@[simp] theorem State.setFlag_sa (g : Flag) (b : Bool) : (s.setFlag g b).sa = s.sa := rfl
@[simp] theorem State.setFlag_da (g : Flag) (b : Bool) : (s.setFlag g b).da = s.da := rfl
@[simp] theorem State.setFlag_sd (g : Flag) (b : Bool) : (s.setFlag g b).sd = s.sd := rfl
@[simp] theorem State.setFlag_f (g : Flag) (b : Bool) : (s.setFlag g b).f = putBit s.f (flagBit g) b := rfl
@[simp] theorem State.setFlag_intFlags (g : Flag) (b : Bool) : (s.setFlag g b).intFlags = s.intFlags := rfl
@[simp] theorem State.setFlag_intEnable (g : Flag) (b : Bool) : (s.setFlag g b).intEnable = s.intEnable := rfl
@[simp] theorem State.setFlag_ci (g : Flag) (b : Bool) : (s.setFlag g b).ci = s.ci := rfl
@[simp] theorem State.setFlag_ec (g : Flag) (b : Bool) : (s.setFlag g b).ec = s.ec := rfl
@[simp] theorem State.setFlag_xd (g : Flag) (b : Bool) : (s.setFlag g b).xd = s.xd := rfl
@[simp] theorem State.setFlag_ime (g : Flag) (b : Bool) : (s.setFlag g b).ime = s.ime := rfl
@[simp] theorem State.setFlag_ei (g : Flag) (b : Bool) : (s.setFlag g b).ei = s.ei := rfl
@[simp] theorem State.setFlag_faulted (g : Flag) (b : Bool) : (s.setFlag g b).faulted = s.faulted := rfl
@[simp] theorem State.setFlag_mem (g : Flag) (b : Bool) : (s.setFlag g b).mem = s.mem := rfl
@[simp] theorem State.setFlag_platform (g : Flag) (b : Bool) : (s.setFlag g b).platform = s.platform := rfl
@[simp] theorem State.setFlag_standby (g : Flag) (b : Bool) : (s.setFlag g b).standby = s.standby := rfl
@[simp] theorem State.setFlag_ioReads (g : Flag) (b : Bool) : (s.setFlag g b).ioReads = s.ioReads := rfl
@[simp] theorem State.setFlag_ioWrites (g : Flag) (b : Bool) : (s.setFlag g b).ioWrites = s.ioWrites := rfl
@[simp] theorem State.setFlag_hwError (g : Flag) (b : Bool) : (s.setFlag g b).hwError = s.hwError := rfl
@[simp] theorem State.setFlag_cfg (g : Flag) (b : Bool) : (s.setFlag g b).cfg = s.cfg := rfl
@[simp] theorem State.setFlag_cycles (g : Flag) (b : Bool) : (s.setFlag g b).cycles = s.cycles := rfl
@[simp] theorem State.setFlag_raised (g : Flag) (b : Bool) : (s.setFlag g b).raised = s.raised := rfl
@[simp] theorem State.setFlag_draws (g : Flag) (b : Bool) : (s.setFlag g b).draws = s.draws := rfl
@[simp] theorem State.setFlag_full (g : Flag) (b : Bool) (q : Full) : (s.setFlag g b).full q = s.full q := by cases q <;> simp [State.full]
@[simp] theorem State.setFlag_readReg (g : Flag) (b : Bool) (q : Reg) : (s.setFlag g b).readReg q = s.readReg q := by simp [State.readReg]
@[simp] theorem State.setFlag_address (g : Flag) (b : Bool) (q : Reg) : (s.setFlag g b).address q = s.address q := by simp [State.address]
@[simp] theorem State.setFlag_byte (g : Flag) (b : Bool) (q : Addr) : (s.setFlag g b).byte q = s.byte q := by simp [State.byte]

/-! ## `setFull` -/

@[simp] theorem State.setFull_pc (v : Word) (r : Full) : (s.setFull v r).pc = s.pc := by cases r <;> rfl
@[simp] theorem State.setFull_ip (v : Word) (r : Full) : (s.setFull v r).ip = s.ip := by cases r <;> rfl
@[simp] theorem State.setFull_sp (v : Word) (r : Full) : (s.setFull v r).sp = s.sp := by cases r <;> rfl
@[simp] theorem State.setFull_sa (v : Word) (r : Full) : (s.setFull v r).sa = s.sa := by cases r <;> rfl
@[simp] theorem State.setFull_da (v : Word) (r : Full) : (s.setFull v r).da = s.da := by cases r <;> rfl
@[simp] theorem State.setFull_sd (v : Word) (r : Full) : (s.setFull v r).sd = s.sd := by cases r <;> rfl
@[simp] theorem State.setFull_f (v : Word) (r : Full) : (s.setFull v r).f = s.f := by cases r <;> rfl
@[simp] theorem State.setFull_intFlags (v : Word) (r : Full) : (s.setFull v r).intFlags = s.intFlags := by cases r <;> rfl
@[simp] theorem State.setFull_intEnable (v : Word) (r : Full) : (s.setFull v r).intEnable = s.intEnable := by cases r <;> rfl
@[simp] theorem State.setFull_ci (v : Word) (r : Full) : (s.setFull v r).ci = s.ci := by cases r <;> rfl
@[simp] theorem State.setFull_ec (v : Word) (r : Full) : (s.setFull v r).ec = s.ec := by cases r <;> rfl
@[simp] theorem State.setFull_xd (v : Word) (r : Full) : (s.setFull v r).xd = s.xd := by cases r <;> rfl
@[simp] theorem State.setFull_ime (v : Word) (r : Full) : (s.setFull v r).ime = s.ime := by cases r <;> rfl
@[simp] theorem State.setFull_ei (v : Word) (r : Full) : (s.setFull v r).ei = s.ei := by cases r <;> rfl
@[simp] theorem State.setFull_faulted (v : Word) (r : Full) : (s.setFull v r).faulted = s.faulted := by cases r <;> rfl
@[simp] theorem State.setFull_mem (v : Word) (r : Full) : (s.setFull v r).mem = s.mem := by cases r <;> rfl
@[simp] theorem State.setFull_platform (v : Word) (r : Full) : (s.setFull v r).platform = s.platform := by cases r <;> rfl
@[simp] theorem State.setFull_standby (v : Word) (r : Full) : (s.setFull v r).standby = s.standby := by cases r <;> rfl
@[simp] theorem State.setFull_ioReads (v : Word) (r : Full) : (s.setFull v r).ioReads = s.ioReads := by cases r <;> rfl
@[simp] theorem State.setFull_ioWrites (v : Word) (r : Full) : (s.setFull v r).ioWrites = s.ioWrites := by cases r <;> rfl
@[simp] theorem State.setFull_hwError (v : Word) (r : Full) : (s.setFull v r).hwError = s.hwError := by cases r <;> rfl
@[simp] theorem State.setFull_cfg (v : Word) (r : Full) : (s.setFull v r).cfg = s.cfg := by cases r <;> rfl
@[simp] theorem State.setFull_cycles (v : Word) (r : Full) : (s.setFull v r).cycles = s.cycles := by cases r <;> rfl
@[simp] theorem State.setFull_raised (v : Word) (r : Full) : (s.setFull v r).raised = s.raised := by cases r <;> rfl
@[simp] theorem State.setFull_draws (v : Word) (r : Full) : (s.setFull v r).draws = s.draws := by cases r <;> rfl
@[simp] theorem State.setFull_flag (v : Word) (r : Full) (q : Flag) : (s.setFull v r).flag q = s.flag q := by simp [State.flag]
@[simp] theorem State.setFull_byte (v : Word) (r : Full) (q : Addr) : (s.setFull v r).byte q = s.byte q := by simp [State.byte]

/-! ## `writeReg` -/

@[simp] theorem State.writeReg_pc (x : Reg) (v : BitVec x.bits) : (s.writeReg x v).pc = s.pc := by simp [State.writeReg]
@[simp] theorem State.writeReg_ip (x : Reg) (v : BitVec x.bits) : (s.writeReg x v).ip = s.ip := by simp [State.writeReg]
@[simp] theorem State.writeReg_sp (x : Reg) (v : BitVec x.bits) : (s.writeReg x v).sp = s.sp := by simp [State.writeReg]
@[simp] theorem State.writeReg_sa (x : Reg) (v : BitVec x.bits) : (s.writeReg x v).sa = s.sa := by simp [State.writeReg]
@[simp] theorem State.writeReg_da (x : Reg) (v : BitVec x.bits) : (s.writeReg x v).da = s.da := by simp [State.writeReg]
@[simp] theorem State.writeReg_sd (x : Reg) (v : BitVec x.bits) : (s.writeReg x v).sd = s.sd := by simp [State.writeReg]
@[simp] theorem State.writeReg_f (x : Reg) (v : BitVec x.bits) : (s.writeReg x v).f = s.f := by simp [State.writeReg]
@[simp] theorem State.writeReg_intFlags (x : Reg) (v : BitVec x.bits) : (s.writeReg x v).intFlags = s.intFlags := by simp [State.writeReg]
@[simp] theorem State.writeReg_intEnable (x : Reg) (v : BitVec x.bits) : (s.writeReg x v).intEnable = s.intEnable := by simp [State.writeReg]
@[simp] theorem State.writeReg_ci (x : Reg) (v : BitVec x.bits) : (s.writeReg x v).ci = s.ci := by simp [State.writeReg]
@[simp] theorem State.writeReg_ec (x : Reg) (v : BitVec x.bits) : (s.writeReg x v).ec = s.ec := by simp [State.writeReg]
@[simp] theorem State.writeReg_xd (x : Reg) (v : BitVec x.bits) : (s.writeReg x v).xd = s.xd := by simp [State.writeReg]
@[simp] theorem State.writeReg_ime (x : Reg) (v : BitVec x.bits) : (s.writeReg x v).ime = s.ime := by simp [State.writeReg]
@[simp] theorem State.writeReg_ei (x : Reg) (v : BitVec x.bits) : (s.writeReg x v).ei = s.ei := by simp [State.writeReg]
@[simp] theorem State.writeReg_faulted (x : Reg) (v : BitVec x.bits) : (s.writeReg x v).faulted = s.faulted := by simp [State.writeReg]
@[simp] theorem State.writeReg_mem (x : Reg) (v : BitVec x.bits) : (s.writeReg x v).mem = s.mem := by simp [State.writeReg]
@[simp] theorem State.writeReg_platform (x : Reg) (v : BitVec x.bits) : (s.writeReg x v).platform = s.platform := by simp [State.writeReg]
@[simp] theorem State.writeReg_standby (x : Reg) (v : BitVec x.bits) : (s.writeReg x v).standby = s.standby := by simp [State.writeReg]
@[simp] theorem State.writeReg_ioReads (x : Reg) (v : BitVec x.bits) : (s.writeReg x v).ioReads = s.ioReads := by simp [State.writeReg]
@[simp] theorem State.writeReg_ioWrites (x : Reg) (v : BitVec x.bits) : (s.writeReg x v).ioWrites = s.ioWrites := by simp [State.writeReg]
@[simp] theorem State.writeReg_hwError (x : Reg) (v : BitVec x.bits) : (s.writeReg x v).hwError = s.hwError := by simp [State.writeReg]
@[simp] theorem State.writeReg_cfg (x : Reg) (v : BitVec x.bits) : (s.writeReg x v).cfg = s.cfg := by simp [State.writeReg]
@[simp] theorem State.writeReg_cycles (x : Reg) (v : BitVec x.bits) : (s.writeReg x v).cycles = s.cycles := by simp [State.writeReg]
@[simp] theorem State.writeReg_raised (x : Reg) (v : BitVec x.bits) : (s.writeReg x v).raised = s.raised := by simp [State.writeReg]
@[simp] theorem State.writeReg_draws (x : Reg) (v : BitVec x.bits) : (s.writeReg x v).draws = s.draws := by simp [State.writeReg]
@[simp] theorem State.writeReg_flag (x : Reg) (v : BitVec x.bits) (q : Flag) : (s.writeReg x v).flag q = s.flag q := by simp [State.flag]
@[simp] theorem State.writeReg_byte (x : Reg) (v : BitVec x.bits) (q : Addr) : (s.writeReg x v).byte q = s.byte q := by simp [State.byte]

/-! ## `putFlag` -/

@[simp] theorem State.putFlag_a (g : Flag) (o : Option Bool) : (s.putFlag g o).a = s.a := by cases o <;> rfl
@[simp] theorem State.putFlag_b (g : Flag) (o : Option Bool) : (s.putFlag g o).b = s.b := by cases o <;> rfl
@[simp] theorem State.putFlag_c (g : Flag) (o : Option Bool) : (s.putFlag g o).c = s.c := by cases o <;> rfl
@[simp] theorem State.putFlag_d (g : Flag) (o : Option Bool) : (s.putFlag g o).d = s.d := by cases o <;> rfl
@[simp] theorem State.putFlag_pc (g : Flag) (o : Option Bool) : (s.putFlag g o).pc = s.pc := by cases o <;> rfl
@[simp] theorem State.putFlag_ip (g : Flag) (o : Option Bool) : (s.putFlag g o).ip = s.ip := by cases o <;> rfl
@[simp] theorem State.putFlag_sp (g : Flag) (o : Option Bool) : (s.putFlag g o).sp = s.sp := by cases o <;> rfl
@[simp] theorem State.putFlag_sa (g : Flag) (o : Option Bool) : (s.putFlag g o).sa = s.sa := by cases o <;> rfl
@[simp] theorem State.putFlag_da (g : Flag) (o : Option Bool) : (s.putFlag g o).da = s.da := by cases o <;> rfl
@[simp] theorem State.putFlag_sd (g : Flag) (o : Option Bool) : (s.putFlag g o).sd = s.sd := by cases o <;> rfl
@[simp] theorem State.putFlag_intFlags (g : Flag) (o : Option Bool) : (s.putFlag g o).intFlags = s.intFlags := by cases o <;> rfl
@[simp] theorem State.putFlag_intEnable (g : Flag) (o : Option Bool) : (s.putFlag g o).intEnable = s.intEnable := by cases o <;> rfl
@[simp] theorem State.putFlag_ci (g : Flag) (o : Option Bool) : (s.putFlag g o).ci = s.ci := by cases o <;> rfl
@[simp] theorem State.putFlag_ec (g : Flag) (o : Option Bool) : (s.putFlag g o).ec = s.ec := by cases o <;> rfl
@[simp] theorem State.putFlag_xd (g : Flag) (o : Option Bool) : (s.putFlag g o).xd = s.xd := by cases o <;> rfl
@[simp] theorem State.putFlag_ime (g : Flag) (o : Option Bool) : (s.putFlag g o).ime = s.ime := by cases o <;> rfl
@[simp] theorem State.putFlag_ei (g : Flag) (o : Option Bool) : (s.putFlag g o).ei = s.ei := by cases o <;> rfl
@[simp] theorem State.putFlag_faulted (g : Flag) (o : Option Bool) : (s.putFlag g o).faulted = s.faulted := by cases o <;> rfl
@[simp] theorem State.putFlag_mem (g : Flag) (o : Option Bool) : (s.putFlag g o).mem = s.mem := by cases o <;> rfl
@[simp] theorem State.putFlag_platform (g : Flag) (o : Option Bool) : (s.putFlag g o).platform = s.platform := by cases o <;> rfl
@[simp] theorem State.putFlag_standby (g : Flag) (o : Option Bool) : (s.putFlag g o).standby = s.standby := by cases o <;> rfl
@[simp] theorem State.putFlag_ioReads (g : Flag) (o : Option Bool) : (s.putFlag g o).ioReads = s.ioReads := by cases o <;> rfl
@[simp] theorem State.putFlag_ioWrites (g : Flag) (o : Option Bool) : (s.putFlag g o).ioWrites = s.ioWrites := by cases o <;> rfl
@[simp] theorem State.putFlag_hwError (g : Flag) (o : Option Bool) : (s.putFlag g o).hwError = s.hwError := by cases o <;> rfl
@[simp] theorem State.putFlag_cfg (g : Flag) (o : Option Bool) : (s.putFlag g o).cfg = s.cfg := by cases o <;> rfl
@[simp] theorem State.putFlag_cycles (g : Flag) (o : Option Bool) : (s.putFlag g o).cycles = s.cycles := by cases o <;> rfl
@[simp] theorem State.putFlag_raised (g : Flag) (o : Option Bool) : (s.putFlag g o).raised = s.raised := by cases o <;> rfl
@[simp] theorem State.putFlag_draws (g : Flag) (o : Option Bool) : (s.putFlag g o).draws = s.draws := by cases o <;> rfl
@[simp] theorem State.putFlag_full (g : Flag) (o : Option Bool) (q : Full) : (s.putFlag g o).full q = s.full q := by cases q <;> simp [State.full]
@[simp] theorem State.putFlag_readReg (g : Flag) (o : Option Bool) (q : Reg) : (s.putFlag g o).readReg q = s.readReg q := by simp [State.readReg]
@[simp] theorem State.putFlag_address (g : Flag) (o : Option Bool) (q : Reg) : (s.putFlag g o).address q = s.address q := by simp [State.address]
@[simp] theorem State.putFlag_byte (g : Flag) (o : Option Bool) (q : Addr) : (s.putFlag g o).byte q = s.byte q := by simp [State.byte]

/-! ## `putColumn` -/

@[simp] theorem State.putColumn_a (k : Column) : (s.putColumn k).a = s.a := by simp [State.putColumn]
@[simp] theorem State.putColumn_b (k : Column) : (s.putColumn k).b = s.b := by simp [State.putColumn]
@[simp] theorem State.putColumn_c (k : Column) : (s.putColumn k).c = s.c := by simp [State.putColumn]
@[simp] theorem State.putColumn_d (k : Column) : (s.putColumn k).d = s.d := by simp [State.putColumn]
@[simp] theorem State.putColumn_pc (k : Column) : (s.putColumn k).pc = s.pc := by simp [State.putColumn]
@[simp] theorem State.putColumn_ip (k : Column) : (s.putColumn k).ip = s.ip := by simp [State.putColumn]
@[simp] theorem State.putColumn_sp (k : Column) : (s.putColumn k).sp = s.sp := by simp [State.putColumn]
@[simp] theorem State.putColumn_sa (k : Column) : (s.putColumn k).sa = s.sa := by simp [State.putColumn]
@[simp] theorem State.putColumn_da (k : Column) : (s.putColumn k).da = s.da := by simp [State.putColumn]
@[simp] theorem State.putColumn_sd (k : Column) : (s.putColumn k).sd = s.sd := by simp [State.putColumn]
@[simp] theorem State.putColumn_intFlags (k : Column) : (s.putColumn k).intFlags = s.intFlags := by simp [State.putColumn]
@[simp] theorem State.putColumn_intEnable (k : Column) : (s.putColumn k).intEnable = s.intEnable := by simp [State.putColumn]
@[simp] theorem State.putColumn_ci (k : Column) : (s.putColumn k).ci = s.ci := by simp [State.putColumn]
@[simp] theorem State.putColumn_ec (k : Column) : (s.putColumn k).ec = s.ec := by simp [State.putColumn]
@[simp] theorem State.putColumn_xd (k : Column) : (s.putColumn k).xd = s.xd := by simp [State.putColumn]
@[simp] theorem State.putColumn_ime (k : Column) : (s.putColumn k).ime = s.ime := by simp [State.putColumn]
@[simp] theorem State.putColumn_ei (k : Column) : (s.putColumn k).ei = s.ei := by simp [State.putColumn]
@[simp] theorem State.putColumn_faulted (k : Column) : (s.putColumn k).faulted = s.faulted := by simp [State.putColumn]
@[simp] theorem State.putColumn_mem (k : Column) : (s.putColumn k).mem = s.mem := by simp [State.putColumn]
@[simp] theorem State.putColumn_platform (k : Column) : (s.putColumn k).platform = s.platform := by simp [State.putColumn]
@[simp] theorem State.putColumn_standby (k : Column) : (s.putColumn k).standby = s.standby := by simp [State.putColumn]
@[simp] theorem State.putColumn_ioReads (k : Column) : (s.putColumn k).ioReads = s.ioReads := by simp [State.putColumn]
@[simp] theorem State.putColumn_ioWrites (k : Column) : (s.putColumn k).ioWrites = s.ioWrites := by simp [State.putColumn]
@[simp] theorem State.putColumn_hwError (k : Column) : (s.putColumn k).hwError = s.hwError := by simp [State.putColumn]
@[simp] theorem State.putColumn_cfg (k : Column) : (s.putColumn k).cfg = s.cfg := by simp [State.putColumn]
@[simp] theorem State.putColumn_cycles (k : Column) : (s.putColumn k).cycles = s.cycles := by simp [State.putColumn]
@[simp] theorem State.putColumn_raised (k : Column) : (s.putColumn k).raised = s.raised := by simp [State.putColumn]
@[simp] theorem State.putColumn_draws (k : Column) : (s.putColumn k).draws = s.draws := by simp [State.putColumn]
@[simp] theorem State.putColumn_full (k : Column) (q : Full) : (s.putColumn k).full q = s.full q := by cases q <;> simp [State.full]
@[simp] theorem State.putColumn_readReg (k : Column) (q : Reg) : (s.putColumn k).readReg q = s.readReg q := by simp [State.readReg]
@[simp] theorem State.putColumn_address (k : Column) (q : Reg) : (s.putColumn k).address q = s.address q := by simp [State.address]
@[simp] theorem State.putColumn_byte (k : Column) (q : Addr) : (s.putColumn k).byte q = s.byte q := by simp [State.byte]

/-! ## `drawH` -/

@[simp] theorem State.drawH_a (w : Nat) : (s.drawH w).a = s.a := by unfold State.drawH; split <;> rfl
@[simp] theorem State.drawH_b (w : Nat) : (s.drawH w).b = s.b := by unfold State.drawH; split <;> rfl
@[simp] theorem State.drawH_c (w : Nat) : (s.drawH w).c = s.c := by unfold State.drawH; split <;> rfl
@[simp] theorem State.drawH_d (w : Nat) : (s.drawH w).d = s.d := by unfold State.drawH; split <;> rfl
@[simp] theorem State.drawH_pc (w : Nat) : (s.drawH w).pc = s.pc := by unfold State.drawH; split <;> rfl
@[simp] theorem State.drawH_ip (w : Nat) : (s.drawH w).ip = s.ip := by unfold State.drawH; split <;> rfl
@[simp] theorem State.drawH_sp (w : Nat) : (s.drawH w).sp = s.sp := by unfold State.drawH; split <;> rfl
@[simp] theorem State.drawH_sa (w : Nat) : (s.drawH w).sa = s.sa := by unfold State.drawH; split <;> rfl
@[simp] theorem State.drawH_da (w : Nat) : (s.drawH w).da = s.da := by unfold State.drawH; split <;> rfl
@[simp] theorem State.drawH_sd (w : Nat) : (s.drawH w).sd = s.sd := by unfold State.drawH; split <;> rfl
@[simp] theorem State.drawH_f (w : Nat) : (s.drawH w).f = s.f := by unfold State.drawH; split <;> rfl
@[simp] theorem State.drawH_intFlags (w : Nat) : (s.drawH w).intFlags = s.intFlags := by unfold State.drawH; split <;> rfl
@[simp] theorem State.drawH_intEnable (w : Nat) : (s.drawH w).intEnable = s.intEnable := by unfold State.drawH; split <;> rfl
@[simp] theorem State.drawH_ci (w : Nat) : (s.drawH w).ci = s.ci := by unfold State.drawH; split <;> rfl
@[simp] theorem State.drawH_ec (w : Nat) : (s.drawH w).ec = s.ec := by unfold State.drawH; split <;> rfl
@[simp] theorem State.drawH_xd (w : Nat) : (s.drawH w).xd = s.xd := by unfold State.drawH; split <;> rfl
@[simp] theorem State.drawH_ime (w : Nat) : (s.drawH w).ime = s.ime := by unfold State.drawH; split <;> rfl
@[simp] theorem State.drawH_ei (w : Nat) : (s.drawH w).ei = s.ei := by unfold State.drawH; split <;> rfl
@[simp] theorem State.drawH_faulted (w : Nat) : (s.drawH w).faulted = s.faulted := by unfold State.drawH; split <;> rfl
@[simp] theorem State.drawH_mem (w : Nat) : (s.drawH w).mem = s.mem := by unfold State.drawH; split <;> rfl
@[simp] theorem State.drawH_platform (w : Nat) : (s.drawH w).platform = s.platform := by unfold State.drawH; split <;> rfl
@[simp] theorem State.drawH_standby (w : Nat) : (s.drawH w).standby = s.standby := by unfold State.drawH; split <;> rfl
@[simp] theorem State.drawH_ioReads (w : Nat) : (s.drawH w).ioReads = s.ioReads := by unfold State.drawH; split <;> rfl
@[simp] theorem State.drawH_ioWrites (w : Nat) : (s.drawH w).ioWrites = s.ioWrites := by unfold State.drawH; split <;> rfl
@[simp] theorem State.drawH_hwError (w : Nat) : (s.drawH w).hwError = s.hwError := by unfold State.drawH; split <;> rfl
@[simp] theorem State.drawH_cfg (w : Nat) : (s.drawH w).cfg = s.cfg := by unfold State.drawH; split <;> rfl
@[simp] theorem State.drawH_cycles (w : Nat) : (s.drawH w).cycles = s.cycles := by unfold State.drawH; split <;> rfl
@[simp] theorem State.drawH_raised (w : Nat) : (s.drawH w).raised = s.raised := by unfold State.drawH; split <;> rfl
@[simp] theorem State.drawH_full (w : Nat) (q : Full) : (s.drawH w).full q = s.full q := by cases q <;> simp [State.full]
@[simp] theorem State.drawH_readReg (w : Nat) (q : Reg) : (s.drawH w).readReg q = s.readReg q := by simp [State.readReg]
@[simp] theorem State.drawH_address (w : Nat) (q : Reg) : (s.drawH w).address q = s.address q := by simp [State.address]
@[simp] theorem State.drawH_flag (w : Nat) (q : Flag) : (s.drawH w).flag q = s.flag q := by simp [State.flag]
@[simp] theorem State.drawH_byte (w : Nat) (q : Addr) : (s.drawH w).byte q = s.byte q := by simp [State.byte]

/-! ## `doubleFault` -/

@[simp] theorem State.doubleFault_a : (s.doubleFault).a = s.a := rfl
@[simp] theorem State.doubleFault_b : (s.doubleFault).b = s.b := rfl
@[simp] theorem State.doubleFault_c : (s.doubleFault).c = s.c := rfl
@[simp] theorem State.doubleFault_d : (s.doubleFault).d = s.d := rfl
@[simp] theorem State.doubleFault_pc : (s.doubleFault).pc = s.pc := rfl
@[simp] theorem State.doubleFault_ip : (s.doubleFault).ip = s.ip := rfl
@[simp] theorem State.doubleFault_sp : (s.doubleFault).sp = s.sp := rfl
@[simp] theorem State.doubleFault_sa : (s.doubleFault).sa = s.sa := rfl
@[simp] theorem State.doubleFault_da : (s.doubleFault).da = s.da := rfl
@[simp] theorem State.doubleFault_sd : (s.doubleFault).sd = s.sd := rfl
@[simp] theorem State.doubleFault_f : (s.doubleFault).f = s.f := rfl
@[simp] theorem State.doubleFault_intFlags : (s.doubleFault).intFlags = s.intFlags := rfl
@[simp] theorem State.doubleFault_intEnable : (s.doubleFault).intEnable = s.intEnable := rfl
@[simp] theorem State.doubleFault_ci : (s.doubleFault).ci = s.ci := rfl
@[simp] theorem State.doubleFault_ec : (s.doubleFault).ec = Exc.stackOverflow.code := rfl
@[simp] theorem State.doubleFault_xd : (s.doubleFault).xd = s.xd := rfl
@[simp] theorem State.doubleFault_ime : (s.doubleFault).ime = s.ime := rfl
@[simp] theorem State.doubleFault_ei : (s.doubleFault).ei = s.ei := rfl
@[simp] theorem State.doubleFault_faulted : (s.doubleFault).faulted = true := rfl
@[simp] theorem State.doubleFault_mem : (s.doubleFault).mem = s.mem := rfl
@[simp] theorem State.doubleFault_platform : (s.doubleFault).platform = s.platform := rfl
@[simp] theorem State.doubleFault_standby : (s.doubleFault).standby = s.standby := rfl
@[simp] theorem State.doubleFault_ioReads : (s.doubleFault).ioReads = s.ioReads := rfl
@[simp] theorem State.doubleFault_ioWrites : (s.doubleFault).ioWrites = s.ioWrites := rfl
@[simp] theorem State.doubleFault_hwError : (s.doubleFault).hwError = s.hwError := rfl
@[simp] theorem State.doubleFault_cfg : (s.doubleFault).cfg = s.cfg := rfl
@[simp] theorem State.doubleFault_cycles : (s.doubleFault).cycles = s.cycles := rfl
@[simp] theorem State.doubleFault_raised : (s.doubleFault).raised = s.raised := rfl
@[simp] theorem State.doubleFault_draws : (s.doubleFault).draws = s.draws := rfl
@[simp] theorem State.doubleFault_full (q : Full) : (s.doubleFault).full q = s.full q := by cases q <;> simp [State.full]
@[simp] theorem State.doubleFault_readReg (q : Reg) : (s.doubleFault).readReg q = s.readReg q := by simp [State.readReg]
@[simp] theorem State.doubleFault_address (q : Reg) : (s.doubleFault).address q = s.address q := by simp [State.address]
@[simp] theorem State.doubleFault_flag (q : Flag) : (s.doubleFault).flag q = s.flag q := by simp [State.flag]
@[simp] theorem State.doubleFault_byte (q : Addr) : (s.doubleFault).byte q = s.byte q := by simp [State.byte]

/-! ## `enterByInt` -/

@[simp] theorem State.enterByInt_a : (s.enterByInt).a = s.a := rfl
@[simp] theorem State.enterByInt_b : (s.enterByInt).b = s.b := rfl
@[simp] theorem State.enterByInt_c : (s.enterByInt).c = s.c := rfl
@[simp] theorem State.enterByInt_d : (s.enterByInt).d = s.d := rfl
@[simp] theorem State.enterByInt_pc : (s.enterByInt).pc = s.pc := rfl
@[simp] theorem State.enterByInt_ip : (s.enterByInt).ip = s.ip := rfl
@[simp] theorem State.enterByInt_sp : (s.enterByInt).sp = s.sp := rfl
@[simp] theorem State.enterByInt_sa : (s.enterByInt).sa = s.sa := rfl
@[simp] theorem State.enterByInt_da : (s.enterByInt).da = s.da := rfl
@[simp] theorem State.enterByInt_sd : (s.enterByInt).sd = s.sd := rfl
@[simp] theorem State.enterByInt_f : (s.enterByInt).f = s.f := rfl
@[simp] theorem State.enterByInt_intFlags : (s.enterByInt).intFlags = s.intFlags := rfl
@[simp] theorem State.enterByInt_intEnable : (s.enterByInt).intEnable = s.intEnable := rfl
@[simp] theorem State.enterByInt_ci : (s.enterByInt).ci = s.ci := rfl
@[simp] theorem State.enterByInt_ec : (s.enterByInt).ec = s.ec := rfl
@[simp] theorem State.enterByInt_xd : (s.enterByInt).xd = s.xd := rfl
@[simp] theorem State.enterByInt_ime : (s.enterByInt).ime = (s.ime && !s.cfg.intClearsIme) := rfl
@[simp] theorem State.enterByInt_ei : (s.enterByInt).ei = s.ei := rfl
@[simp] theorem State.enterByInt_faulted : (s.enterByInt).faulted = s.faulted := rfl
@[simp] theorem State.enterByInt_mem : (s.enterByInt).mem = s.mem := rfl
@[simp] theorem State.enterByInt_platform : (s.enterByInt).platform = s.platform := rfl
@[simp] theorem State.enterByInt_standby : (s.enterByInt).standby = s.standby := rfl
@[simp] theorem State.enterByInt_ioReads : (s.enterByInt).ioReads = s.ioReads := rfl
@[simp] theorem State.enterByInt_ioWrites : (s.enterByInt).ioWrites = s.ioWrites := rfl
@[simp] theorem State.enterByInt_hwError : (s.enterByInt).hwError = s.hwError := rfl
@[simp] theorem State.enterByInt_cfg : (s.enterByInt).cfg = s.cfg := rfl
@[simp] theorem State.enterByInt_cycles : (s.enterByInt).cycles = s.cycles := rfl
@[simp] theorem State.enterByInt_raised : (s.enterByInt).raised = s.raised := rfl
@[simp] theorem State.enterByInt_draws : (s.enterByInt).draws = s.draws := rfl
@[simp] theorem State.enterByInt_full (q : Full) : (s.enterByInt).full q = s.full q := by cases q <;> simp [State.full]
@[simp] theorem State.enterByInt_readReg (q : Reg) : (s.enterByInt).readReg q = s.readReg q := by simp [State.readReg]
@[simp] theorem State.enterByInt_address (q : Reg) : (s.enterByInt).address q = s.address q := by simp [State.address]
@[simp] theorem State.enterByInt_flag (q : Flag) : (s.enterByInt).flag q = s.flag q := by simp [State.flag]
@[simp] theorem State.enterByInt_byte (q : Addr) : (s.enterByInt).byte q = s.byte q := by simp [State.byte]

/-! ## `beginInstruction` -/

@[simp] theorem State.beginInstruction_a : (s.beginInstruction).a = s.a := rfl
@[simp] theorem State.beginInstruction_b : (s.beginInstruction).b = s.b := rfl
@[simp] theorem State.beginInstruction_c : (s.beginInstruction).c = s.c := rfl
@[simp] theorem State.beginInstruction_d : (s.beginInstruction).d = s.d := rfl
@[simp] theorem State.beginInstruction_pc : (s.beginInstruction).pc = s.pc := rfl
@[simp] theorem State.beginInstruction_ip : (s.beginInstruction).ip = s.pc := rfl
@[simp] theorem State.beginInstruction_sp : (s.beginInstruction).sp = s.sp := rfl
@[simp] theorem State.beginInstruction_sa : (s.beginInstruction).sa = 0 := rfl
@[simp] theorem State.beginInstruction_da : (s.beginInstruction).da = 0 := rfl
@[simp] theorem State.beginInstruction_sd : (s.beginInstruction).sd = 0 := rfl
@[simp] theorem State.beginInstruction_f : (s.beginInstruction).f = s.f := rfl
@[simp] theorem State.beginInstruction_intFlags : (s.beginInstruction).intFlags = s.intFlags := rfl
@[simp] theorem State.beginInstruction_intEnable : (s.beginInstruction).intEnable = s.intEnable := rfl
@[simp] theorem State.beginInstruction_ci : (s.beginInstruction).ci = 0 := rfl
@[simp] theorem State.beginInstruction_ec : (s.beginInstruction).ec = s.ec := rfl
@[simp] theorem State.beginInstruction_xd : (s.beginInstruction).xd = 0 := rfl
@[simp] theorem State.beginInstruction_ime : (s.beginInstruction).ime = s.ime := rfl
@[simp] theorem State.beginInstruction_ei : (s.beginInstruction).ei = s.ei := rfl
@[simp] theorem State.beginInstruction_faulted : (s.beginInstruction).faulted = s.faulted := rfl
@[simp] theorem State.beginInstruction_mem : (s.beginInstruction).mem = s.mem := rfl
@[simp] theorem State.beginInstruction_platform : (s.beginInstruction).platform = s.platform := rfl
@[simp] theorem State.beginInstruction_standby : (s.beginInstruction).standby = s.standby := rfl
@[simp] theorem State.beginInstruction_ioReads : (s.beginInstruction).ioReads = s.ioReads := rfl
@[simp] theorem State.beginInstruction_ioWrites : (s.beginInstruction).ioWrites = s.ioWrites := rfl
@[simp] theorem State.beginInstruction_hwError : (s.beginInstruction).hwError = s.hwError := rfl
@[simp] theorem State.beginInstruction_cfg : (s.beginInstruction).cfg = s.cfg := rfl
@[simp] theorem State.beginInstruction_cycles : (s.beginInstruction).cycles = s.cycles := rfl
@[simp] theorem State.beginInstruction_raised : (s.beginInstruction).raised = false := rfl
@[simp] theorem State.beginInstruction_draws : (s.beginInstruction).draws = s.draws := rfl
@[simp] theorem State.beginInstruction_full (q : Full) : (s.beginInstruction).full q = s.full q := by cases q <;> simp [State.full]
@[simp] theorem State.beginInstruction_readReg (q : Reg) : (s.beginInstruction).readReg q = s.readReg q := by simp [State.readReg]
@[simp] theorem State.beginInstruction_address (q : Reg) : (s.beginInstruction).address q = s.address q := by simp [State.address]
@[simp] theorem State.beginInstruction_flag (q : Flag) : (s.beginInstruction).flag q = s.flag q := by simp [State.flag]
@[simp] theorem State.beginInstruction_byte (q : Addr) : (s.beginInstruction).byte q = s.byte q := by simp [State.byte]

/-! ## `latchImmediate` -/

@[simp] theorem State.latchImmediate_a (i : Instr) : (s.latchImmediate i).a = s.a := by cases i <;> rfl
@[simp] theorem State.latchImmediate_b (i : Instr) : (s.latchImmediate i).b = s.b := by cases i <;> rfl
@[simp] theorem State.latchImmediate_c (i : Instr) : (s.latchImmediate i).c = s.c := by cases i <;> rfl
@[simp] theorem State.latchImmediate_d (i : Instr) : (s.latchImmediate i).d = s.d := by cases i <;> rfl
@[simp] theorem State.latchImmediate_pc (i : Instr) : (s.latchImmediate i).pc = s.pc := by cases i <;> rfl
@[simp] theorem State.latchImmediate_ip (i : Instr) : (s.latchImmediate i).ip = s.ip := by cases i <;> rfl
@[simp] theorem State.latchImmediate_sp (i : Instr) : (s.latchImmediate i).sp = s.sp := by cases i <;> rfl
@[simp] theorem State.latchImmediate_sa (i : Instr) : (s.latchImmediate i).sa = s.sa := by cases i <;> rfl
@[simp] theorem State.latchImmediate_da (i : Instr) : (s.latchImmediate i).da = s.da := by cases i <;> rfl
@[simp] theorem State.latchImmediate_f (i : Instr) : (s.latchImmediate i).f = s.f := by cases i <;> rfl
@[simp] theorem State.latchImmediate_intFlags (i : Instr) : (s.latchImmediate i).intFlags = s.intFlags := by cases i <;> rfl
@[simp] theorem State.latchImmediate_intEnable (i : Instr) : (s.latchImmediate i).intEnable = s.intEnable := by cases i <;> rfl
@[simp] theorem State.latchImmediate_ci (i : Instr) : (s.latchImmediate i).ci = s.ci := by cases i <;> rfl
@[simp] theorem State.latchImmediate_ec (i : Instr) : (s.latchImmediate i).ec = s.ec := by cases i <;> rfl
@[simp] theorem State.latchImmediate_ime (i : Instr) : (s.latchImmediate i).ime = s.ime := by cases i <;> rfl
@[simp] theorem State.latchImmediate_ei (i : Instr) : (s.latchImmediate i).ei = s.ei := by cases i <;> rfl
@[simp] theorem State.latchImmediate_faulted (i : Instr) : (s.latchImmediate i).faulted = s.faulted := by cases i <;> rfl
@[simp] theorem State.latchImmediate_mem (i : Instr) : (s.latchImmediate i).mem = s.mem := by cases i <;> rfl
@[simp] theorem State.latchImmediate_platform (i : Instr) : (s.latchImmediate i).platform = s.platform := by cases i <;> rfl
@[simp] theorem State.latchImmediate_standby (i : Instr) : (s.latchImmediate i).standby = s.standby := by cases i <;> rfl
@[simp] theorem State.latchImmediate_ioReads (i : Instr) : (s.latchImmediate i).ioReads = s.ioReads := by cases i <;> rfl
@[simp] theorem State.latchImmediate_ioWrites (i : Instr) : (s.latchImmediate i).ioWrites = s.ioWrites := by cases i <;> rfl
@[simp] theorem State.latchImmediate_hwError (i : Instr) : (s.latchImmediate i).hwError = s.hwError := by cases i <;> rfl
@[simp] theorem State.latchImmediate_cfg (i : Instr) : (s.latchImmediate i).cfg = s.cfg := by cases i <;> rfl
@[simp] theorem State.latchImmediate_cycles (i : Instr) : (s.latchImmediate i).cycles = s.cycles := by cases i <;> rfl
@[simp] theorem State.latchImmediate_raised (i : Instr) : (s.latchImmediate i).raised = s.raised := by cases i <;> rfl
@[simp] theorem State.latchImmediate_draws (i : Instr) : (s.latchImmediate i).draws = s.draws := by cases i <;> rfl
@[simp] theorem State.latchImmediate_full (i : Instr) (q : Full) : (s.latchImmediate i).full q = s.full q := by cases q <;> simp [State.full]
@[simp] theorem State.latchImmediate_readReg (i : Instr) (q : Reg) : (s.latchImmediate i).readReg q = s.readReg q := by simp [State.readReg]
@[simp] theorem State.latchImmediate_address (i : Instr) (q : Reg) : (s.latchImmediate i).address q = s.address q := by simp [State.address]
@[simp] theorem State.latchImmediate_flag (i : Instr) (q : Flag) : (s.latchImmediate i).flag q = s.flag q := by simp [State.flag]
@[simp] theorem State.latchImmediate_byte (i : Instr) (q : Addr) : (s.latchImmediate i).byte q = s.byte q := by simp [State.byte]

/-! ## `acts` -/

@[simp] theorem State.acts_a (es : List PlatformEvent) : (s.acts es).a = s.a := by rw [State.acts_frame]
@[simp] theorem State.acts_b (es : List PlatformEvent) : (s.acts es).b = s.b := by rw [State.acts_frame]
@[simp] theorem State.acts_c (es : List PlatformEvent) : (s.acts es).c = s.c := by rw [State.acts_frame]
@[simp] theorem State.acts_d (es : List PlatformEvent) : (s.acts es).d = s.d := by rw [State.acts_frame]
@[simp] theorem State.acts_pc (es : List PlatformEvent) : (s.acts es).pc = s.pc := by rw [State.acts_frame]
@[simp] theorem State.acts_ip (es : List PlatformEvent) : (s.acts es).ip = s.ip := by rw [State.acts_frame]
@[simp] theorem State.acts_sp (es : List PlatformEvent) : (s.acts es).sp = s.sp := by rw [State.acts_frame]
@[simp] theorem State.acts_sa (es : List PlatformEvent) : (s.acts es).sa = s.sa := by rw [State.acts_frame]
@[simp] theorem State.acts_da (es : List PlatformEvent) : (s.acts es).da = s.da := by rw [State.acts_frame]
@[simp] theorem State.acts_sd (es : List PlatformEvent) : (s.acts es).sd = s.sd := by rw [State.acts_frame]
@[simp] theorem State.acts_ci (es : List PlatformEvent) : (s.acts es).ci = s.ci := by rw [State.acts_frame]
@[simp] theorem State.acts_ec (es : List PlatformEvent) : (s.acts es).ec = s.ec := by rw [State.acts_frame]
@[simp] theorem State.acts_xd (es : List PlatformEvent) : (s.acts es).xd = s.xd := by rw [State.acts_frame]
@[simp] theorem State.acts_ime (es : List PlatformEvent) : (s.acts es).ime = s.ime := by rw [State.acts_frame]
@[simp] theorem State.acts_ei (es : List PlatformEvent) : (s.acts es).ei = s.ei := by rw [State.acts_frame]
@[simp] theorem State.acts_faulted (es : List PlatformEvent) : (s.acts es).faulted = s.faulted := by rw [State.acts_frame]
@[simp] theorem State.acts_platform (es : List PlatformEvent) : (s.acts es).platform = s.platform := by rw [State.acts_frame]
@[simp] theorem State.acts_standby (es : List PlatformEvent) : (s.acts es).standby = s.standby := by rw [State.acts_frame]
@[simp] theorem State.acts_ioReads (es : List PlatformEvent) : (s.acts es).ioReads = s.ioReads := by rw [State.acts_frame]
@[simp] theorem State.acts_ioWrites (es : List PlatformEvent) : (s.acts es).ioWrites = s.ioWrites := by rw [State.acts_frame]
@[simp] theorem State.acts_cfg (es : List PlatformEvent) : (s.acts es).cfg = s.cfg := by rw [State.acts_frame]
@[simp] theorem State.acts_cycles (es : List PlatformEvent) : (s.acts es).cycles = s.cycles := by rw [State.acts_frame]
@[simp] theorem State.acts_raised (es : List PlatformEvent) : (s.acts es).raised = s.raised := by rw [State.acts_frame]
@[simp] theorem State.acts_draws (es : List PlatformEvent) : (s.acts es).draws = s.draws := by rw [State.acts_frame]
@[simp] theorem State.acts_full (es : List PlatformEvent) (q : Full) : (s.acts es).full q = s.full q := by cases q <;> simp [State.full]
@[simp] theorem State.acts_readReg (es : List PlatformEvent) (q : Reg) : (s.acts es).readReg q = s.readReg q := by simp [State.readReg]
@[simp] theorem State.acts_address (es : List PlatformEvent) (q : Reg) : (s.acts es).address q = s.address q := by simp [State.address]

/-! ## `clock` -/

@[simp] theorem State.clock_a : (s.clock).a = s.a := by simp [State.clock]
@[simp] theorem State.clock_b : (s.clock).b = s.b := by simp [State.clock]
@[simp] theorem State.clock_c : (s.clock).c = s.c := by simp [State.clock]
@[simp] theorem State.clock_d : (s.clock).d = s.d := by simp [State.clock]
@[simp] theorem State.clock_pc : (s.clock).pc = s.pc := by simp [State.clock]
@[simp] theorem State.clock_ip : (s.clock).ip = s.ip := by simp [State.clock]
@[simp] theorem State.clock_sp : (s.clock).sp = s.sp := by simp [State.clock]
@[simp] theorem State.clock_sa : (s.clock).sa = s.sa := by simp [State.clock]
@[simp] theorem State.clock_da : (s.clock).da = s.da := by simp [State.clock]
@[simp] theorem State.clock_sd : (s.clock).sd = s.sd := by simp [State.clock]
@[simp] theorem State.clock_ci : (s.clock).ci = s.ci := by simp [State.clock]
@[simp] theorem State.clock_ec : (s.clock).ec = s.ec := by simp [State.clock]
@[simp] theorem State.clock_xd : (s.clock).xd = s.xd := by simp [State.clock]
@[simp] theorem State.clock_ime : (s.clock).ime = s.ime := by simp [State.clock]
@[simp] theorem State.clock_ei : (s.clock).ei = s.ei := by simp [State.clock]
@[simp] theorem State.clock_faulted : (s.clock).faulted = s.faulted := by simp [State.clock]
@[simp] theorem State.clock_platform : (s.clock).platform = s.platform.tail := by simp [State.clock]
@[simp] theorem State.clock_standby : (s.clock).standby = s.standby := by simp [State.clock]
@[simp] theorem State.clock_ioReads : (s.clock).ioReads = s.ioReads := by simp [State.clock]
@[simp] theorem State.clock_ioWrites : (s.clock).ioWrites = s.ioWrites := by simp [State.clock]
@[simp] theorem State.clock_cfg : (s.clock).cfg = s.cfg := by simp [State.clock]
@[simp] theorem State.clock_cycles : (s.clock).cycles = s.cycles + 1 := by simp [State.clock]
@[simp] theorem State.clock_raised : (s.clock).raised = s.raised := by simp [State.clock]
@[simp] theorem State.clock_draws : (s.clock).draws = s.draws := by simp [State.clock]
@[simp] theorem State.clock_full (q : Full) : (s.clock).full q = s.full q := by cases q <;> simp [State.full]
@[simp] theorem State.clock_readReg (q : Reg) : (s.clock).readReg q = s.readReg q := by simp [State.readReg]
@[simp] theorem State.clock_address (q : Reg) : (s.clock).address q = s.address q := by simp [State.address]

/-! ## `jump` -/

@[simp] theorem State.jump_a (adr : Addr) : (s.jump adr).a = s.a := by simp [State.jump]
@[simp] theorem State.jump_b (adr : Addr) : (s.jump adr).b = s.b := by simp [State.jump]
@[simp] theorem State.jump_c (adr : Addr) : (s.jump adr).c = s.c := by simp [State.jump]
@[simp] theorem State.jump_d (adr : Addr) : (s.jump adr).d = s.d := by simp [State.jump]
@[simp] theorem State.jump_pc (adr : Addr) : (s.jump adr).pc = adr := by simp [State.jump]
@[simp] theorem State.jump_ip (adr : Addr) : (s.jump adr).ip = s.ip := by simp [State.jump]
@[simp] theorem State.jump_sp (adr : Addr) : (s.jump adr).sp = s.sp := by simp [State.jump]
@[simp] theorem State.jump_sa (adr : Addr) : (s.jump adr).sa = s.sa := by simp [State.jump]
@[simp] theorem State.jump_da (adr : Addr) : (s.jump adr).da = s.da := by simp [State.jump]
@[simp] theorem State.jump_sd (adr : Addr) : (s.jump adr).sd = s.sd := by simp [State.jump]
@[simp] theorem State.jump_ci (adr : Addr) : (s.jump adr).ci = s.ci := by simp [State.jump]
@[simp] theorem State.jump_ec (adr : Addr) : (s.jump adr).ec = s.ec := by simp [State.jump]
@[simp] theorem State.jump_xd (adr : Addr) : (s.jump adr).xd = s.xd := by simp [State.jump]
@[simp] theorem State.jump_ime (adr : Addr) : (s.jump adr).ime = s.ime := by simp [State.jump]
@[simp] theorem State.jump_ei (adr : Addr) : (s.jump adr).ei = s.ei := by simp [State.jump]
@[simp] theorem State.jump_faulted (adr : Addr) : (s.jump adr).faulted = s.faulted := by simp [State.jump]
@[simp] theorem State.jump_platform (adr : Addr) : (s.jump adr).platform = s.platform.tail := by simp [State.jump]
@[simp] theorem State.jump_standby (adr : Addr) : (s.jump adr).standby = s.standby := by simp [State.jump]
@[simp] theorem State.jump_ioReads (adr : Addr) : (s.jump adr).ioReads = s.ioReads := by simp [State.jump]
@[simp] theorem State.jump_ioWrites (adr : Addr) : (s.jump adr).ioWrites = s.ioWrites := by simp [State.jump]
@[simp] theorem State.jump_cfg (adr : Addr) : (s.jump adr).cfg = s.cfg := by simp [State.jump]
@[simp] theorem State.jump_cycles (adr : Addr) : (s.jump adr).cycles = s.cycles + 1 := by simp [State.jump]
@[simp] theorem State.jump_raised (adr : Addr) : (s.jump adr).raised = s.raised := by simp [State.jump]
@[simp] theorem State.jump_draws (adr : Addr) : (s.jump adr).draws = s.draws := by simp [State.jump]
@[simp] theorem State.jump_full (adr : Addr) (q : Full) : (s.jump adr).full q = s.full q := by cases q <;> simp [State.full]
@[simp] theorem State.jump_readReg (adr : Addr) (q : Reg) : (s.jump adr).readReg q = s.readReg q := by simp [State.readReg]
@[simp] theorem State.jump_address (adr : Addr) (q : Reg) : (s.jump adr).address q = s.address q := by simp [State.address]

/-! ## `busRead` -/

@[simp] theorem State.busRead_a (adr : Addr) : ((s.busRead adr).2).a = s.a := by unfold State.busRead; (repeat' split) <;> simp
@[simp] theorem State.busRead_b (adr : Addr) : ((s.busRead adr).2).b = s.b := by unfold State.busRead; (repeat' split) <;> simp
@[simp] theorem State.busRead_c (adr : Addr) : ((s.busRead adr).2).c = s.c := by unfold State.busRead; (repeat' split) <;> simp
@[simp] theorem State.busRead_d (adr : Addr) : ((s.busRead adr).2).d = s.d := by unfold State.busRead; (repeat' split) <;> simp
@[simp] theorem State.busRead_pc (adr : Addr) : ((s.busRead adr).2).pc = s.pc := by unfold State.busRead; (repeat' split) <;> simp
@[simp] theorem State.busRead_ip (adr : Addr) : ((s.busRead adr).2).ip = s.ip := by unfold State.busRead; (repeat' split) <;> simp
@[simp] theorem State.busRead_sp (adr : Addr) : ((s.busRead adr).2).sp = s.sp := by unfold State.busRead; (repeat' split) <;> simp
@[simp] theorem State.busRead_sa (adr : Addr) : ((s.busRead adr).2).sa = s.sa := by unfold State.busRead; (repeat' split) <;> simp
@[simp] theorem State.busRead_da (adr : Addr) : ((s.busRead adr).2).da = s.da := by unfold State.busRead; (repeat' split) <;> simp
@[simp] theorem State.busRead_sd (adr : Addr) : ((s.busRead adr).2).sd = s.sd := by unfold State.busRead; (repeat' split) <;> simp
@[simp] theorem State.busRead_ci (adr : Addr) : ((s.busRead adr).2).ci = s.ci := by unfold State.busRead; (repeat' split) <;> simp
@[simp] theorem State.busRead_ec (adr : Addr) : ((s.busRead adr).2).ec = s.ec := by unfold State.busRead; (repeat' split) <;> simp
@[simp] theorem State.busRead_xd (adr : Addr) : ((s.busRead adr).2).xd = s.xd := by unfold State.busRead; (repeat' split) <;> simp
@[simp] theorem State.busRead_ime (adr : Addr) : ((s.busRead adr).2).ime = s.ime := by unfold State.busRead; (repeat' split) <;> simp
@[simp] theorem State.busRead_ei (adr : Addr) : ((s.busRead adr).2).ei = s.ei := by unfold State.busRead; (repeat' split) <;> simp
@[simp] theorem State.busRead_faulted (adr : Addr) : ((s.busRead adr).2).faulted = s.faulted := by unfold State.busRead; (repeat' split) <;> simp
@[simp] theorem State.busRead_platform (adr : Addr) : ((s.busRead adr).2).platform = s.platform := by unfold State.busRead; (repeat' split) <;> simp
@[simp] theorem State.busRead_standby (adr : Addr) : ((s.busRead adr).2).standby = s.standby := by unfold State.busRead; (repeat' split) <;> simp
@[simp] theorem State.busRead_ioWrites (adr : Addr) : ((s.busRead adr).2).ioWrites = s.ioWrites := by unfold State.busRead; (repeat' split) <;> simp
@[simp] theorem State.busRead_cfg (adr : Addr) : ((s.busRead adr).2).cfg = s.cfg := by unfold State.busRead; (repeat' split) <;> simp
@[simp] theorem State.busRead_cycles (adr : Addr) : ((s.busRead adr).2).cycles = s.cycles := by unfold State.busRead; (repeat' split) <;> simp
@[simp] theorem State.busRead_raised (adr : Addr) : ((s.busRead adr).2).raised = s.raised := by unfold State.busRead; (repeat' split) <;> simp
@[simp] theorem State.busRead_draws (adr : Addr) : ((s.busRead adr).2).draws = s.draws := by unfold State.busRead; (repeat' split) <;> simp
@[simp] theorem State.busRead_full (adr : Addr) (q : Full) : ((s.busRead adr).2).full q = s.full q := by cases q <;> simp [State.full]
@[simp] theorem State.busRead_readReg (adr : Addr) (q : Reg) : ((s.busRead adr).2).readReg q = s.readReg q := by simp [State.readReg]
@[simp] theorem State.busRead_address (adr : Addr) (q : Reg) : ((s.busRead adr).2).address q = s.address q := by simp [State.address]

/-! ## `busWrite` -/

@[simp] theorem State.busWrite_a (adr : Addr) (v : Byte) : (s.busWrite adr v).a = s.a := by unfold State.busWrite; (repeat' split) <;> simp
@[simp] theorem State.busWrite_b (adr : Addr) (v : Byte) : (s.busWrite adr v).b = s.b := by unfold State.busWrite; (repeat' split) <;> simp
@[simp] theorem State.busWrite_c (adr : Addr) (v : Byte) : (s.busWrite adr v).c = s.c := by unfold State.busWrite; (repeat' split) <;> simp
@[simp] theorem State.busWrite_d (adr : Addr) (v : Byte) : (s.busWrite adr v).d = s.d := by unfold State.busWrite; (repeat' split) <;> simp
@[simp] theorem State.busWrite_pc (adr : Addr) (v : Byte) : (s.busWrite adr v).pc = s.pc := by unfold State.busWrite; (repeat' split) <;> simp
@[simp] theorem State.busWrite_ip (adr : Addr) (v : Byte) : (s.busWrite adr v).ip = s.ip := by unfold State.busWrite; (repeat' split) <;> simp
@[simp] theorem State.busWrite_sp (adr : Addr) (v : Byte) : (s.busWrite adr v).sp = s.sp := by unfold State.busWrite; (repeat' split) <;> simp
@[simp] theorem State.busWrite_sa (adr : Addr) (v : Byte) : (s.busWrite adr v).sa = s.sa := by unfold State.busWrite; (repeat' split) <;> simp
@[simp] theorem State.busWrite_da (adr : Addr) (v : Byte) : (s.busWrite adr v).da = s.da := by unfold State.busWrite; (repeat' split) <;> simp
@[simp] theorem State.busWrite_sd (adr : Addr) (v : Byte) : (s.busWrite adr v).sd = s.sd := by unfold State.busWrite; (repeat' split) <;> simp
@[simp] theorem State.busWrite_ci (adr : Addr) (v : Byte) : (s.busWrite adr v).ci = s.ci := by unfold State.busWrite; (repeat' split) <;> simp
@[simp] theorem State.busWrite_ec (adr : Addr) (v : Byte) : (s.busWrite adr v).ec = s.ec := by unfold State.busWrite; (repeat' split) <;> simp
@[simp] theorem State.busWrite_xd (adr : Addr) (v : Byte) : (s.busWrite adr v).xd = s.xd := by unfold State.busWrite; (repeat' split) <;> simp
@[simp] theorem State.busWrite_ime (adr : Addr) (v : Byte) : (s.busWrite adr v).ime = s.ime := by unfold State.busWrite; (repeat' split) <;> simp
@[simp] theorem State.busWrite_ei (adr : Addr) (v : Byte) : (s.busWrite adr v).ei = s.ei := by unfold State.busWrite; (repeat' split) <;> simp
@[simp] theorem State.busWrite_faulted (adr : Addr) (v : Byte) : (s.busWrite adr v).faulted = s.faulted := by unfold State.busWrite; (repeat' split) <;> simp
@[simp] theorem State.busWrite_platform (adr : Addr) (v : Byte) : (s.busWrite adr v).platform = s.platform := by unfold State.busWrite; (repeat' split) <;> simp
@[simp] theorem State.busWrite_standby (adr : Addr) (v : Byte) : (s.busWrite adr v).standby = s.standby := by unfold State.busWrite; (repeat' split) <;> simp
@[simp] theorem State.busWrite_ioReads (adr : Addr) (v : Byte) : (s.busWrite adr v).ioReads = s.ioReads := by unfold State.busWrite; (repeat' split) <;> simp
@[simp] theorem State.busWrite_cfg (adr : Addr) (v : Byte) : (s.busWrite adr v).cfg = s.cfg := by unfold State.busWrite; (repeat' split) <;> simp
@[simp] theorem State.busWrite_cycles (adr : Addr) (v : Byte) : (s.busWrite adr v).cycles = s.cycles := by unfold State.busWrite; (repeat' split) <;> simp
@[simp] theorem State.busWrite_raised (adr : Addr) (v : Byte) : (s.busWrite adr v).raised = s.raised := by unfold State.busWrite; (repeat' split) <;> simp
@[simp] theorem State.busWrite_draws (adr : Addr) (v : Byte) : (s.busWrite adr v).draws = s.draws := by unfold State.busWrite; (repeat' split) <;> simp
@[simp] theorem State.busWrite_full (adr : Addr) (v : Byte) (q : Full) : (s.busWrite adr v).full q = s.full q := by cases q <;> simp [State.full]
@[simp] theorem State.busWrite_readReg (adr : Addr) (v : Byte) (q : Reg) : (s.busWrite adr v).readReg q = s.readReg q := by simp [State.readReg]
@[simp] theorem State.busWrite_address (adr : Addr) (v : Byte) (q : Reg) : (s.busWrite adr v).address q = s.address q := by simp [State.address]

/-! ## `readBytes` -/

@[simp] theorem State.readBytes_a (n : Nat) (adr : Addr) : ((s.readBytes n adr).2).a = s.a := by induction n generalizing s adr <;> simp [State.readBytes, *]
@[simp] theorem State.readBytes_b (n : Nat) (adr : Addr) : ((s.readBytes n adr).2).b = s.b := by induction n generalizing s adr <;> simp [State.readBytes, *]
@[simp] theorem State.readBytes_c (n : Nat) (adr : Addr) : ((s.readBytes n adr).2).c = s.c := by induction n generalizing s adr <;> simp [State.readBytes, *]
@[simp] theorem State.readBytes_d (n : Nat) (adr : Addr) : ((s.readBytes n adr).2).d = s.d := by induction n generalizing s adr <;> simp [State.readBytes, *]
@[simp] theorem State.readBytes_pc (n : Nat) (adr : Addr) : ((s.readBytes n adr).2).pc = s.pc := by induction n generalizing s adr <;> simp [State.readBytes, *]
@[simp] theorem State.readBytes_ip (n : Nat) (adr : Addr) : ((s.readBytes n adr).2).ip = s.ip := by induction n generalizing s adr <;> simp [State.readBytes, *]
@[simp] theorem State.readBytes_sp (n : Nat) (adr : Addr) : ((s.readBytes n adr).2).sp = s.sp := by induction n generalizing s adr <;> simp [State.readBytes, *]
@[simp] theorem State.readBytes_sa (n : Nat) (adr : Addr) : ((s.readBytes n adr).2).sa = s.sa := by induction n generalizing s adr <;> simp [State.readBytes, *]
@[simp] theorem State.readBytes_da (n : Nat) (adr : Addr) : ((s.readBytes n adr).2).da = s.da := by induction n generalizing s adr <;> simp [State.readBytes, *]
@[simp] theorem State.readBytes_sd (n : Nat) (adr : Addr) : ((s.readBytes n adr).2).sd = s.sd := by induction n generalizing s adr <;> simp [State.readBytes, *]
@[simp] theorem State.readBytes_ci (n : Nat) (adr : Addr) : ((s.readBytes n adr).2).ci = s.ci := by induction n generalizing s adr <;> simp [State.readBytes, *]
@[simp] theorem State.readBytes_ec (n : Nat) (adr : Addr) : ((s.readBytes n adr).2).ec = s.ec := by induction n generalizing s adr <;> simp [State.readBytes, *]
@[simp] theorem State.readBytes_xd (n : Nat) (adr : Addr) : ((s.readBytes n adr).2).xd = s.xd := by induction n generalizing s adr <;> simp [State.readBytes, *]
@[simp] theorem State.readBytes_ime (n : Nat) (adr : Addr) : ((s.readBytes n adr).2).ime = s.ime := by induction n generalizing s adr <;> simp [State.readBytes, *]
@[simp] theorem State.readBytes_ei (n : Nat) (adr : Addr) : ((s.readBytes n adr).2).ei = s.ei := by induction n generalizing s adr <;> simp [State.readBytes, *]
@[simp] theorem State.readBytes_faulted (n : Nat) (adr : Addr) : ((s.readBytes n adr).2).faulted = s.faulted := by induction n generalizing s adr <;> simp [State.readBytes, *]
@[simp] theorem State.readBytes_standby (n : Nat) (adr : Addr) : ((s.readBytes n adr).2).standby = s.standby := by induction n generalizing s adr <;> simp [State.readBytes, *]
@[simp] theorem State.readBytes_cfg (n : Nat) (adr : Addr) : ((s.readBytes n adr).2).cfg = s.cfg := by induction n generalizing s adr <;> simp [State.readBytes, *]
@[simp] theorem State.readBytes_raised (n : Nat) (adr : Addr) : ((s.readBytes n adr).2).raised = s.raised := by induction n generalizing s adr <;> simp [State.readBytes, *]
@[simp] theorem State.readBytes_draws (n : Nat) (adr : Addr) : ((s.readBytes n adr).2).draws = s.draws := by induction n generalizing s adr <;> simp [State.readBytes, *]
@[simp] theorem State.readBytes_full (n : Nat) (adr : Addr) (q : Full) : ((s.readBytes n adr).2).full q = s.full q := by cases q <;> simp [State.full]
@[simp] theorem State.readBytes_readReg (n : Nat) (adr : Addr) (q : Reg) : ((s.readBytes n adr).2).readReg q = s.readReg q := by simp [State.readReg]
@[simp] theorem State.readBytes_address (n : Nat) (adr : Addr) (q : Reg) : ((s.readBytes n adr).2).address q = s.address q := by simp [State.address]

/-! ## `writeBytes` -/

@[simp] theorem State.writeBytes_a (n : Nat) (adr : Addr) (v : Word) : (s.writeBytes n adr v).a = s.a := by induction n generalizing s adr v <;> simp [State.writeBytes, *]
@[simp] theorem State.writeBytes_b (n : Nat) (adr : Addr) (v : Word) : (s.writeBytes n adr v).b = s.b := by induction n generalizing s adr v <;> simp [State.writeBytes, *]
@[simp] theorem State.writeBytes_c (n : Nat) (adr : Addr) (v : Word) : (s.writeBytes n adr v).c = s.c := by induction n generalizing s adr v <;> simp [State.writeBytes, *]
@[simp] theorem State.writeBytes_d (n : Nat) (adr : Addr) (v : Word) : (s.writeBytes n adr v).d = s.d := by induction n generalizing s adr v <;> simp [State.writeBytes, *]
@[simp] theorem State.writeBytes_pc (n : Nat) (adr : Addr) (v : Word) : (s.writeBytes n adr v).pc = s.pc := by induction n generalizing s adr v <;> simp [State.writeBytes, *]
@[simp] theorem State.writeBytes_ip (n : Nat) (adr : Addr) (v : Word) : (s.writeBytes n adr v).ip = s.ip := by induction n generalizing s adr v <;> simp [State.writeBytes, *]
@[simp] theorem State.writeBytes_sp (n : Nat) (adr : Addr) (v : Word) : (s.writeBytes n adr v).sp = s.sp := by induction n generalizing s adr v <;> simp [State.writeBytes, *]
@[simp] theorem State.writeBytes_sa (n : Nat) (adr : Addr) (v : Word) : (s.writeBytes n adr v).sa = s.sa := by induction n generalizing s adr v <;> simp [State.writeBytes, *]
@[simp] theorem State.writeBytes_da (n : Nat) (adr : Addr) (v : Word) : (s.writeBytes n adr v).da = s.da := by induction n generalizing s adr v <;> simp [State.writeBytes, *]
@[simp] theorem State.writeBytes_sd (n : Nat) (adr : Addr) (v : Word) : (s.writeBytes n adr v).sd = s.sd := by induction n generalizing s adr v <;> simp [State.writeBytes, *]
@[simp] theorem State.writeBytes_ci (n : Nat) (adr : Addr) (v : Word) : (s.writeBytes n adr v).ci = s.ci := by induction n generalizing s adr v <;> simp [State.writeBytes, *]
@[simp] theorem State.writeBytes_ec (n : Nat) (adr : Addr) (v : Word) : (s.writeBytes n adr v).ec = s.ec := by induction n generalizing s adr v <;> simp [State.writeBytes, *]
@[simp] theorem State.writeBytes_xd (n : Nat) (adr : Addr) (v : Word) : (s.writeBytes n adr v).xd = s.xd := by induction n generalizing s adr v <;> simp [State.writeBytes, *]
@[simp] theorem State.writeBytes_ime (n : Nat) (adr : Addr) (v : Word) : (s.writeBytes n adr v).ime = s.ime := by induction n generalizing s adr v <;> simp [State.writeBytes, *]
@[simp] theorem State.writeBytes_ei (n : Nat) (adr : Addr) (v : Word) : (s.writeBytes n adr v).ei = s.ei := by induction n generalizing s adr v <;> simp [State.writeBytes, *]
@[simp] theorem State.writeBytes_faulted (n : Nat) (adr : Addr) (v : Word) : (s.writeBytes n adr v).faulted = s.faulted := by induction n generalizing s adr v <;> simp [State.writeBytes, *]
@[simp] theorem State.writeBytes_standby (n : Nat) (adr : Addr) (v : Word) : (s.writeBytes n adr v).standby = s.standby := by induction n generalizing s adr v <;> simp [State.writeBytes, *]
@[simp] theorem State.writeBytes_cfg (n : Nat) (adr : Addr) (v : Word) : (s.writeBytes n adr v).cfg = s.cfg := by induction n generalizing s adr v <;> simp [State.writeBytes, *]
@[simp] theorem State.writeBytes_raised (n : Nat) (adr : Addr) (v : Word) : (s.writeBytes n adr v).raised = s.raised := by induction n generalizing s adr v <;> simp [State.writeBytes, *]
@[simp] theorem State.writeBytes_draws (n : Nat) (adr : Addr) (v : Word) : (s.writeBytes n adr v).draws = s.draws := by induction n generalizing s adr v <;> simp [State.writeBytes, *]
@[simp] theorem State.writeBytes_full (n : Nat) (adr : Addr) (v : Word) (q : Full) : (s.writeBytes n adr v).full q = s.full q := by cases q <;> simp [State.full]
@[simp] theorem State.writeBytes_readReg (n : Nat) (adr : Addr) (v : Word) (q : Reg) : (s.writeBytes n adr v).readReg q = s.readReg q := by simp [State.readReg]
@[simp] theorem State.writeBytes_address (n : Nat) (adr : Addr) (v : Word) (q : Reg) : (s.writeBytes n adr v).address q = s.address q := by simp [State.address]

/-! ## `pushWord` -/

@[simp] theorem State.pushWord_a (v : Word) : (s.pushWord v).a = s.a := by simp [State.pushWord]
@[simp] theorem State.pushWord_b (v : Word) : (s.pushWord v).b = s.b := by simp [State.pushWord]
@[simp] theorem State.pushWord_c (v : Word) : (s.pushWord v).c = s.c := by simp [State.pushWord]
@[simp] theorem State.pushWord_d (v : Word) : (s.pushWord v).d = s.d := by simp [State.pushWord]
@[simp] theorem State.pushWord_pc (v : Word) : (s.pushWord v).pc = s.pc := by simp [State.pushWord]
@[simp] theorem State.pushWord_ip (v : Word) : (s.pushWord v).ip = s.ip := by simp [State.pushWord]
@[simp] theorem State.pushWord_sp (v : Word) : (s.pushWord v).sp = s.sp - 4 := by simp [State.pushWord]
@[simp] theorem State.pushWord_sa (v : Word) : (s.pushWord v).sa = s.sa := by simp [State.pushWord]
@[simp] theorem State.pushWord_da (v : Word) : (s.pushWord v).da = s.da := by simp [State.pushWord]
@[simp] theorem State.pushWord_sd (v : Word) : (s.pushWord v).sd = s.sd := by simp [State.pushWord]
@[simp] theorem State.pushWord_ci (v : Word) : (s.pushWord v).ci = s.ci := by simp [State.pushWord]
@[simp] theorem State.pushWord_ec (v : Word) : (s.pushWord v).ec = s.ec := by simp [State.pushWord]
@[simp] theorem State.pushWord_xd (v : Word) : (s.pushWord v).xd = s.xd := by simp [State.pushWord]
@[simp] theorem State.pushWord_ime (v : Word) : (s.pushWord v).ime = s.ime := by simp [State.pushWord]
@[simp] theorem State.pushWord_ei (v : Word) : (s.pushWord v).ei = s.ei := by simp [State.pushWord]
@[simp] theorem State.pushWord_faulted (v : Word) : (s.pushWord v).faulted = s.faulted := by simp [State.pushWord]
@[simp] theorem State.pushWord_standby (v : Word) : (s.pushWord v).standby = s.standby := by simp [State.pushWord]
@[simp] theorem State.pushWord_cfg (v : Word) : (s.pushWord v).cfg = s.cfg := by simp [State.pushWord]
@[simp] theorem State.pushWord_raised (v : Word) : (s.pushWord v).raised = s.raised := by simp [State.pushWord]
@[simp] theorem State.pushWord_draws (v : Word) : (s.pushWord v).draws = s.draws := by simp [State.pushWord]
@[simp] theorem State.pushWord_full (v : Word) (q : Full) : (s.pushWord v).full q = s.full q := by cases q <;> simp [State.full]
@[simp] theorem State.pushWord_readReg (v : Word) (q : Reg) : (s.pushWord v).readReg q = s.readReg q := by simp [State.readReg]
@[simp] theorem State.pushWord_address (v : Word) (q : Reg) : (s.pushWord v).address q = s.address q := by simp [State.address]

/-! ## `popWord` -/

@[simp] theorem State.popWord_a : (s.popWord.2).a = s.a := by simp [State.popWord]
@[simp] theorem State.popWord_b : (s.popWord.2).b = s.b := by simp [State.popWord]
@[simp] theorem State.popWord_c : (s.popWord.2).c = s.c := by simp [State.popWord]
@[simp] theorem State.popWord_d : (s.popWord.2).d = s.d := by simp [State.popWord]
@[simp] theorem State.popWord_pc : (s.popWord.2).pc = s.pc := by simp [State.popWord]
@[simp] theorem State.popWord_ip : (s.popWord.2).ip = s.ip := by simp [State.popWord]
@[simp] theorem State.popWord_sp : (s.popWord.2).sp = s.sp + 4 := by simp [State.popWord]
@[simp] theorem State.popWord_sa : (s.popWord.2).sa = s.sa := by simp [State.popWord]
@[simp] theorem State.popWord_da : (s.popWord.2).da = s.da := by simp [State.popWord]
@[simp] theorem State.popWord_sd : (s.popWord.2).sd = s.sd := by simp [State.popWord]
@[simp] theorem State.popWord_ci : (s.popWord.2).ci = s.ci := by simp [State.popWord]
@[simp] theorem State.popWord_ec : (s.popWord.2).ec = s.ec := by simp [State.popWord]
@[simp] theorem State.popWord_xd : (s.popWord.2).xd = s.xd := by simp [State.popWord]
@[simp] theorem State.popWord_ime : (s.popWord.2).ime = s.ime := by simp [State.popWord]
@[simp] theorem State.popWord_ei : (s.popWord.2).ei = s.ei := by simp [State.popWord]
@[simp] theorem State.popWord_faulted : (s.popWord.2).faulted = s.faulted := by simp [State.popWord]
@[simp] theorem State.popWord_standby : (s.popWord.2).standby = s.standby := by simp [State.popWord]
@[simp] theorem State.popWord_cfg : (s.popWord.2).cfg = s.cfg := by simp [State.popWord]
@[simp] theorem State.popWord_raised : (s.popWord.2).raised = s.raised := by simp [State.popWord]
@[simp] theorem State.popWord_draws : (s.popWord.2).draws = s.draws := by simp [State.popWord]
@[simp] theorem State.popWord_full (q : Full) : (s.popWord.2).full q = s.full q := by cases q <;> simp [State.full]
@[simp] theorem State.popWord_readReg (q : Reg) : (s.popWord.2).readReg q = s.readReg q := by simp [State.readReg]
@[simp] theorem State.popWord_address (q : Reg) : (s.popWord.2).address q = s.address q := by simp [State.address]

/-! ## `dataRead` -/

@[simp] theorem State.dataRead_a (adr : Addr) (n : Nat) : ((s.dataRead adr n).2).a = s.a := by simp [State.dataRead]
@[simp] theorem State.dataRead_b (adr : Addr) (n : Nat) : ((s.dataRead adr n).2).b = s.b := by simp [State.dataRead]
@[simp] theorem State.dataRead_c (adr : Addr) (n : Nat) : ((s.dataRead adr n).2).c = s.c := by simp [State.dataRead]
@[simp] theorem State.dataRead_d (adr : Addr) (n : Nat) : ((s.dataRead adr n).2).d = s.d := by simp [State.dataRead]
@[simp] theorem State.dataRead_pc (adr : Addr) (n : Nat) : ((s.dataRead adr n).2).pc = s.pc := by simp [State.dataRead]
@[simp] theorem State.dataRead_ip (adr : Addr) (n : Nat) : ((s.dataRead adr n).2).ip = s.ip := by simp [State.dataRead]
@[simp] theorem State.dataRead_sp (adr : Addr) (n : Nat) : ((s.dataRead adr n).2).sp = s.sp := by simp [State.dataRead]
@[simp] theorem State.dataRead_sa (adr : Addr) (n : Nat) : ((s.dataRead adr n).2).sa = adr := by simp [State.dataRead]
@[simp] theorem State.dataRead_da (adr : Addr) (n : Nat) : ((s.dataRead adr n).2).da = s.da := by simp [State.dataRead]
@[simp] theorem State.dataRead_sd (adr : Addr) (n : Nat) : ((s.dataRead adr n).2).sd = (s.dataRead adr n).1 := by simp [State.dataRead]
@[simp] theorem State.dataRead_ci (adr : Addr) (n : Nat) : ((s.dataRead adr n).2).ci = s.ci := by simp [State.dataRead]
@[simp] theorem State.dataRead_ec (adr : Addr) (n : Nat) : ((s.dataRead adr n).2).ec = s.ec := by simp [State.dataRead]
@[simp] theorem State.dataRead_xd (adr : Addr) (n : Nat) : ((s.dataRead adr n).2).xd = s.xd := by simp [State.dataRead]
@[simp] theorem State.dataRead_ime (adr : Addr) (n : Nat) : ((s.dataRead adr n).2).ime = s.ime := by simp [State.dataRead]
@[simp] theorem State.dataRead_ei (adr : Addr) (n : Nat) : ((s.dataRead adr n).2).ei = s.ei := by simp [State.dataRead]
@[simp] theorem State.dataRead_faulted (adr : Addr) (n : Nat) : ((s.dataRead adr n).2).faulted = s.faulted := by simp [State.dataRead]
@[simp] theorem State.dataRead_standby (adr : Addr) (n : Nat) : ((s.dataRead adr n).2).standby = s.standby := by simp [State.dataRead]
@[simp] theorem State.dataRead_cfg (adr : Addr) (n : Nat) : ((s.dataRead adr n).2).cfg = s.cfg := by simp [State.dataRead]
@[simp] theorem State.dataRead_raised (adr : Addr) (n : Nat) : ((s.dataRead adr n).2).raised = s.raised := by simp [State.dataRead]
@[simp] theorem State.dataRead_draws (adr : Addr) (n : Nat) : ((s.dataRead adr n).2).draws = s.draws := by simp [State.dataRead]
@[simp] theorem State.dataRead_full (adr : Addr) (n : Nat) (q : Full) : ((s.dataRead adr n).2).full q = s.full q := by cases q <;> simp [State.full]
@[simp] theorem State.dataRead_readReg (adr : Addr) (n : Nat) (q : Reg) : ((s.dataRead adr n).2).readReg q = s.readReg q := by simp [State.readReg]
@[simp] theorem State.dataRead_address (adr : Addr) (n : Nat) (q : Reg) : ((s.dataRead adr n).2).address q = s.address q := by simp [State.address]

/-! ## `dataWrite` -/

@[simp] theorem State.dataWrite_a (adr : Addr) (n : Nat) (v : Word) : (s.dataWrite adr n v).a = s.a := by simp [State.dataWrite]
@[simp] theorem State.dataWrite_b (adr : Addr) (n : Nat) (v : Word) : (s.dataWrite adr n v).b = s.b := by simp [State.dataWrite]
@[simp] theorem State.dataWrite_c (adr : Addr) (n : Nat) (v : Word) : (s.dataWrite adr n v).c = s.c := by simp [State.dataWrite]
@[simp] theorem State.dataWrite_d (adr : Addr) (n : Nat) (v : Word) : (s.dataWrite adr n v).d = s.d := by simp [State.dataWrite]
@[simp] theorem State.dataWrite_pc (adr : Addr) (n : Nat) (v : Word) : (s.dataWrite adr n v).pc = s.pc := by simp [State.dataWrite]
@[simp] theorem State.dataWrite_ip (adr : Addr) (n : Nat) (v : Word) : (s.dataWrite adr n v).ip = s.ip := by simp [State.dataWrite]
@[simp] theorem State.dataWrite_sp (adr : Addr) (n : Nat) (v : Word) : (s.dataWrite adr n v).sp = s.sp := by simp [State.dataWrite]
@[simp] theorem State.dataWrite_sa (adr : Addr) (n : Nat) (v : Word) : (s.dataWrite adr n v).sa = s.sa := by simp [State.dataWrite]
@[simp] theorem State.dataWrite_da (adr : Addr) (n : Nat) (v : Word) : (s.dataWrite adr n v).da = adr := by simp [State.dataWrite]
@[simp] theorem State.dataWrite_sd (adr : Addr) (n : Nat) (v : Word) : (s.dataWrite adr n v).sd = s.sd := by simp [State.dataWrite]
@[simp] theorem State.dataWrite_ci (adr : Addr) (n : Nat) (v : Word) : (s.dataWrite adr n v).ci = s.ci := by simp [State.dataWrite]
@[simp] theorem State.dataWrite_ec (adr : Addr) (n : Nat) (v : Word) : (s.dataWrite adr n v).ec = s.ec := by simp [State.dataWrite]
@[simp] theorem State.dataWrite_xd (adr : Addr) (n : Nat) (v : Word) : (s.dataWrite adr n v).xd = s.xd := by simp [State.dataWrite]
@[simp] theorem State.dataWrite_ime (adr : Addr) (n : Nat) (v : Word) : (s.dataWrite adr n v).ime = s.ime := by simp [State.dataWrite]
@[simp] theorem State.dataWrite_ei (adr : Addr) (n : Nat) (v : Word) : (s.dataWrite adr n v).ei = s.ei := by simp [State.dataWrite]
@[simp] theorem State.dataWrite_faulted (adr : Addr) (n : Nat) (v : Word) : (s.dataWrite adr n v).faulted = s.faulted := by simp [State.dataWrite]
@[simp] theorem State.dataWrite_standby (adr : Addr) (n : Nat) (v : Word) : (s.dataWrite adr n v).standby = s.standby := by simp [State.dataWrite]
@[simp] theorem State.dataWrite_cfg (adr : Addr) (n : Nat) (v : Word) : (s.dataWrite adr n v).cfg = s.cfg := by simp [State.dataWrite]
@[simp] theorem State.dataWrite_raised (adr : Addr) (n : Nat) (v : Word) : (s.dataWrite adr n v).raised = s.raised := by simp [State.dataWrite]
@[simp] theorem State.dataWrite_draws (adr : Addr) (n : Nat) (v : Word) : (s.dataWrite adr n v).draws = s.draws := by simp [State.dataWrite]
@[simp] theorem State.dataWrite_full (adr : Addr) (n : Nat) (v : Word) (q : Full) : (s.dataWrite adr n v).full q = s.full q := by cases q <;> simp [State.full]
@[simp] theorem State.dataWrite_readReg (adr : Addr) (n : Nat) (v : Word) (q : Reg) : (s.dataWrite adr n v).readReg q = s.readReg q := by simp [State.readReg]
@[simp] theorem State.dataWrite_address (adr : Addr) (n : Nat) (v : Word) (q : Reg) : (s.dataWrite adr n v).address q = s.address q := by simp [State.address]

end Sys2Proof.Machine
end

