-- ==== Sys2Proof/Laws/Bits.lean ====
section
/-! SUPPORT. What the bit-field operations do, bit by bit: `putBit` (R10), `putField` (R22), flags and general registers. -/

namespace Sys2Proof.Machine

theorem oneShift_getLsbD {w : Nat} (k i : Nat) : (BitVec.ofNat w 1 <<< k).getLsbD i = decide (i = k ∧ i < w) := by
  by_cases hi : i < w <;> by_cases hik : i < k <;> simp [BitVec.getLsbD_shiftLeft, hi, hik]
  · omega
  · by_cases h : i = k
    · subst h; simp
    · obtain ⟨n, hn⟩ : ∃ n, i - k = n + 1 := ⟨i - k - 1, by omega⟩
      simp [h, hn]

theorem putBit_getLsbD {w : Nat} (v : BitVec w) (k : Nat) (b : Bool) (i : Nat) (hk : k < w) :
    (putBit v k b).getLsbD i = if i = k then b else v.getLsbD i := by
  by_cases h : i = k
  · subst h
    cases b <;> simp [putBit, hk]
  · cases b <;> simp only [putBit, if_true, if_false, Bool.false_eq_true, BitVec.getLsbD_and, BitVec.getLsbD_or,
      BitVec.getLsbD_not, oneShift_getLsbD, h, false_and, decide_false, Bool.not_false, Bool.or_false, Bool.and_true]
    by_cases hi : i < w
    · simp [hi]
    · simp [BitVec.getLsbD_of_ge v i (by omega)]

theorem putField_getLsbD (old : Word) (lo : Nat) {w : Nat} (v : BitVec w) (i : Nat) (hi : i < 32) :
    (putField old lo v).getLsbD i = if lo ≤ i ∧ i < lo + w then v.getLsbD (i - lo) else old.getLsbD i := by
  by_cases h1 : i < lo
  · simp [putField, hi, h1, show ¬ lo ≤ i by omega]
  · by_cases h2 : i < lo + w
    · simp [putField, hi, h1, show lo ≤ i by omega, h2, show i - lo < w by omega]
    · simp [putField, hi, h1, h2, show ¬ (i - lo < w) by omega, BitVec.getLsbD_of_ge v (i - lo) (by omega)]

theorem flagBit_lt (g : Flag) : flagBit g < 8 := by cases g <;> decide

theorem flagBit_inj {g h : Flag} : flagBit g = flagBit h ↔ g = h := by cases g <;> cases h <;> decide

/-- `F` after a flag is written, bit by bit. -/
theorem State.setFlag_bit (s : State) (g : Flag) (b : Bool) (i : Nat) :
    (s.setFlag g b).f.getLsbD i = if i = flagBit g then b else s.f.getLsbD i := by
  rw [State.setFlag_f, putBit_getLsbD _ _ _ _ (by have := flagBit_lt g; omega)]

@[simp] theorem State.setFlag_flag (s : State) (g h : Flag) (b : Bool) :
    (s.setFlag g b).flag h = if h = g then b else s.flag h := by
  simp only [State.flag, State.setFlag_bit, flagBit_inj]

@[simp] theorem State.putFlag_flag (s : State) (g h : Flag) (o : Option Bool) :
    (s.putFlag g o).flag h = if h = g then o.getD (s.flag h) else s.flag h := by
  cases o <;> simp [State.putFlag]

theorem State.putFlag_bit (s : State) (g : Flag) (o : Option Bool) (i : Nat) :
    (s.putFlag g o).f.getLsbD i = if i = flagBit g then o.getD (s.f.getLsbD i) else s.f.getLsbD i := by
  cases o
  · simp [State.putFlag]
  · exact State.setFlag_bit s g _ i

/-- A column leaves the bits of `F` outside the six flags. -/
theorem State.putColumn_bit (s : State) (k : Column) (i : Nat) (hi : i < 2 ∨ 8 ≤ i) :
    (s.putColumn k).f.getLsbD i = s.f.getLsbD i := by
  simp only [State.putColumn, State.putFlag_bit, flagBit]
  simp [show i ≠ 2 by omega, show i ≠ 3 by omega, show i ≠ 4 by omega, show i ≠ 5 by omega, show i ≠ 6 by omega,
    show i ≠ 7 by omega]

/-- The flag a column speaks of. -/
def Column.entry (k : Column) : Flag → Option Bool
  | .Z => k.z | .N => k.n | .H => k.h | .C => k.c | .S => k.s | .P => k.p | .T => none | .L => none

/-- A flag after a column is written. -/
@[simp] theorem State.putColumn_flag (s : State) (k : Column) (g : Flag) :
    (s.putColumn k).flag g = (k.entry g).getD (s.flag g) := by
  cases g <;> simp [State.putColumn, Column.entry]

/-! ## General registers -/

@[simp] theorem State.setFull_full (s : State) (v : Word) (r q : Full) :
    (s.setFull v r).full q = if q = r then v else s.full q := by
  cases r <;> cases q <;> rfl

theorem view_fits (v : View) : v.lsb + v.bits ≤ 32 := by cases v <;> decide

theorem State.readReg_bit (s : State) (x : Reg) (i : Nat) :
    (s.readReg x).getLsbD i = (decide (i < x.bits) && (s.full x.full).getLsbD (x.view.lsb + i)) := by
  simp [State.readReg, BitVec.getLsbD_extractLsb']

theorem State.writeReg_full (s : State) (x : Reg) (v : BitVec x.bits) (q : Full) :
    (s.writeReg x v).full q = if q = x.full then putField (s.full x.full) x.view.lsb v else s.full q := by
  simp [State.writeReg]

@[simp] theorem State.writeReg_readReg (s : State) (x : Reg) (v : BitVec x.bits) : (s.writeReg x v).readReg x = v := by
  apply BitVec.eq_of_getLsbD_eq
  intro i hi
  have := view_fits x.view
  rw [State.readReg_bit, State.writeReg_full, if_pos rfl]
  rw [putField_getLsbD _ _ _ _ (by simp only [Reg.bits] at hi; omega)]
  simp [hi]

theorem reg_bits_cases (x : Reg) : x.bits = 32 ∨ x.bits = 16 ∨ x.bits = 8 := by
  obtain ⟨_, v⟩ := x; cases v <;> simp [Reg.bits, View.bits]

theorem reg_bits_eq_bytes (x : Reg) : x.bits = 8 * x.bytes := by
  obtain ⟨_, v⟩ := x; cases v <;> simp [Reg.bytes, Reg.bits, View.bits]

theorem reg_bytes_le (x : Reg) : x.bytes ≤ 4 := by
  obtain ⟨_, v⟩ := x; cases v <;> simp [Reg.bytes, Reg.bits, View.bits]

/-- A write of a view's own value changes nothing. -/
theorem State.setFull_self (s : State) (r : Full) : s.setFull (s.full r) r = s := by cases r <;> rfl

end Sys2Proof.Machine
end

