-- ==== Sys2Proof/Laws/Memory.lean ====
section
/-! SUPPORT. Memory: a byte read after a write (R77, R78), the addresses of a multi-byte access (R86), and the canonical form
that every memory operation keeps. -/

namespace Sys2Proof.Machine

/-! ## One byte -/

theorem Memory.read_drop (m : Memory) (a b : Nat) :
    Memory.read (Memory.drop m a) b = if b = a then unlistedByte else Memory.read m b := by
  induction m with
  | nil => simp [Memory.drop, Memory.read]
  | cons c m ih =>
    obtain ⟨k, v⟩ := c
    by_cases hk : k = a
    · subst hk
      rw [show Memory.drop ((k, v) :: m) k = Memory.drop m k by simp [Memory.drop], ih]
      by_cases hb : b = k
      · simp [hb]
      · simp [Memory.read, hb, Ne.symm hb]
    · rw [show Memory.drop ((k, v) :: m) a = (k, v) :: Memory.drop m a by simp [Memory.drop, hk]]
      simp only [Memory.read, ih]
      by_cases hb : b = a
      · simp [hb, hk]
      · simp [hb]

theorem Memory.read_put (m : Memory) (a : Nat) (v : Byte) (b : Nat) :
    Memory.read (Memory.put m a v) b = if b = a then v else Memory.read m b := by
  induction m with
  | nil => simp [Memory.put, Memory.read, eq_comm]
  | cons c m ih =>
    obtain ⟨k, w⟩ := c
    by_cases h1 : a < k
    · simp [Memory.put, Memory.read, h1, eq_comm]
    · by_cases h2 : a = k
      · subst h2
        by_cases hb : b = a
        · simp [Memory.put, Memory.read, hb]
        · simp [Memory.put, Memory.read, hb, Ne.symm hb]
      · simp only [Memory.put, h1, h2, if_false, Memory.read, ih]
        by_cases hb : b = a
        · simp [hb, Ne.symm h2]
        · simp [hb]

/-- A byte after a write: the one written reads as written, every other as before. -/
@[simp] theorem Memory.read_write (m : Memory) (a : Nat) (v : Byte) (b : Nat) :
    Memory.read (Memory.write m a v) b = if b = a then v else Memory.read m b := by
  simp only [Memory.write]
  split_ifs with h1 h2 h2 <;> simp [Memory.read_drop, Memory.read_put, *]

/-! ## Several bytes -/

theorem addr_succ (a : Addr) (k : Nat) : a + 1 + BitVec.ofNat 32 k = a + BitVec.ofNat 32 (k + 1) := by
  rw [BitVec.add_assoc]
  congr 1
  rw [Nat.add_comm k 1, BitVec.ofNat_add]
  rfl

theorem addr_ne (a : Addr) {i j : Nat} (h : i ≠ j) (hi : i < 2 ^ 32) (hj : j < 2 ^ 32) :
    a + BitVec.ofNat 32 i ≠ a + BitVec.ofNat 32 j := by
  intro e
  have e := congrArg BitVec.toNat ((BitVec.add_right_inj a).mp e)
  simp only [BitVec.toNat_ofNat] at e
  omega

theorem extract_shift (v : Word) (k : Nat) : (v >>> 8).extractLsb' (8 * k) 8 = v.extractLsb' (8 * (k + 1)) 8 := by
  ext i hi
  simp [show 8 + (8 * k + i) = 8 * (k + 1) + i by omega]

/-! ## The canonical form -/

theorem Memory.above_iff (lo : Nat) (m : Memory) : Memory.above lo m = true ↔ ∀ c ∈ m, lo < c.1 := by
  simp [Memory.above]

theorem Memory.wf_cons (k : Nat) (b : Byte) (m : Memory) :
    Memory.wf ((k, b) :: m) = true ↔
      k < 2 ^ 32 ∧ b ≠ unlistedByte ∧ (∀ c ∈ m, k < c.1) ∧ Memory.wf m = true := by
  simp [Memory.wf, Memory.above_iff, and_assoc]

theorem Memory.mem_drop {m : Memory} {a : Nat} {c : Host.Cell} (h : c ∈ Memory.drop m a) : c ∈ m :=
  (List.mem_filter.mp h).1

theorem Memory.wf_drop (m : Memory) (a : Nat) (h : Memory.wf m = true) : Memory.wf (Memory.drop m a) = true := by
  induction m with
  | nil => rfl
  | cons c m ih =>
    obtain ⟨k, v⟩ := c
    rw [Memory.wf_cons] at h
    by_cases hk : k = a
    · rw [show Memory.drop ((k, v) :: m) a = Memory.drop m a by simp [Memory.drop, hk]]
      exact ih h.2.2.2
    · rw [show Memory.drop ((k, v) :: m) a = (k, v) :: Memory.drop m a by simp [Memory.drop, hk], Memory.wf_cons]
      exact ⟨h.1, h.2.1, fun c hc => h.2.2.1 c (Memory.mem_drop hc), ih h.2.2.2⟩

theorem Memory.mem_put {m : Memory} {a : Nat} {v : Byte} {c : Host.Cell} (h : c ∈ Memory.put m a v) :
    c.1 = a ∨ c ∈ m := by
  induction m with
  | nil => simp [Memory.put] at h; simp [h]
  | cons d m ih =>
    obtain ⟨k, w⟩ := d
    simp only [Memory.put] at h
    split_ifs at h with h1 h2
    · rcases List.mem_cons.mp h with h | h
      · exact .inl (by rw [h])
      · exact .inr h
    · rcases List.mem_cons.mp h with h | h
      · exact .inl (by rw [h])
      · exact .inr (List.mem_cons_of_mem _ h)
    · rcases List.mem_cons.mp h with h | h
      · exact .inr (by rw [h]; exact List.mem_cons_self)
      · exact (ih h).imp_right (List.mem_cons_of_mem _)

theorem Memory.wf_put (m : Memory) (a : Nat) (v : Byte) (h : Memory.wf m = true) (ha : a < 2 ^ 32)
    (hv : v ≠ unlistedByte) : Memory.wf (Memory.put m a v) = true := by
  induction m with
  | nil => simpa [Memory.put, Memory.wf, Memory.above, hv] using ha
  | cons c m ih =>
    obtain ⟨k, w⟩ := c
    have h' := h
    rw [Memory.wf_cons] at h
    simp only [Memory.put]
    split_ifs with h1 h2
    · rw [Memory.wf_cons]
      refine ⟨ha, hv, fun c hc => ?_, h'⟩
      rcases List.mem_cons.mp hc with rfl | hc
      · exact h1
      · exact h1.trans (h.2.2.1 c hc)
    · rw [Memory.wf_cons, h2]
      exact ⟨h.1, hv, h.2.2.1, h.2.2.2⟩
    · rw [Memory.wf_cons]
      refine ⟨h.1, h.2.1, fun c hc => ?_, ih h.2.2.2⟩
      rcases Memory.mem_put hc with e | hc
      · omega
      · exact h.2.2.1 c hc

/-- A write keeps the canonical form. -/
theorem Memory.wf_write (m : Memory) (a : Nat) (v : Byte) (h : m.wf = true) (ha : a < 2 ^ 32) :
    (m.write a v).wf = true := by
  simp only [Memory.write]
  split_ifs with hv
  · exact Memory.wf_drop m a h
  · exact Memory.wf_put m a v h ha hv

theorem Memory.wf_place (m : Memory) (a : Addr) (bs : List Byte) (h : m.wf = true) : (m.place a bs).wf = true := by
  induction bs generalizing m a with
  | nil => exact h
  | cons b bs ih => exact ih _ _ (Memory.wf_write m _ _ h a.isLt)

theorem Memory.read_below (m : Memory) (a : Nat) (h : ∀ c ∈ m, a < c.1) : Memory.read m a = unlistedByte := by
  induction m with
  | nil => rfl
  | cons c m ih =>
    have := h c List.mem_cons_self
    simp only [Memory.read, show ¬ c.1 = a by omega, if_false]
    exact ih fun d hd => h d (List.mem_cons_of_mem _ hd)

/-- Canonical memories that read alike are equal. -/
theorem Memory.eq_of_read (m m' : Memory) (h : m.wf = true) (h' : m'.wf = true)
    (e : ∀ a, Memory.read m a = Memory.read m' a) : m = m' := by
  induction m generalizing m' with
  | nil =>
    cases m' with
    | nil => rfl
    | cons c m' =>
      rw [Memory.wf_cons] at h'
      exact absurd (e c.1).symm (by simpa [Memory.read] using h'.2.1)
  | cons c m ih =>
    obtain ⟨k, b⟩ := c
    have hw := h
    rw [Memory.wf_cons] at h
    cases m' with
    | nil => exact absurd (e k) (by simpa [Memory.read] using h.2.1)
    | cons c' m' =>
      obtain ⟨k', b'⟩ := c'
      have hw' := h'
      rw [Memory.wf_cons] at h'
      rcases Nat.lt_trichotomy k k' with hlt | rfl | hlt
      · refine absurd (e k) ?_
        rw [Memory.read_below ((k', b') :: m') k]
        · simpa [Memory.read] using h.2.1
        · intro c hc
          rcases List.mem_cons.mp hc with rfl | hc
          · exact hlt
          · exact hlt.trans (h'.2.2.1 c hc)
      · have hb : b = b' := by simpa [Memory.read] using e k
        rw [hb, ih m' h.2.2.2 h'.2.2.2]
        intro a
        by_cases ha : a = k
        · rw [ha, Memory.read_below m k h.2.2.1, Memory.read_below m' k h'.2.2.1]
        · simpa [Memory.read, Ne.symm ha] using e a
      · refine absurd (e k').symm ?_
        rw [Memory.read_below ((k, b) :: m) k']
        · simpa [Memory.read] using h'.2.1
        · intro c hc
          rcases List.mem_cons.mp hc with rfl | hc
          · exact hlt
          · exact hlt.trans (h.2.2.1 c hc)

end Sys2Proof.Machine
end

