-- ==== Sys2Proof/Laws/Bus.lean ====
section
/-! SUPPORT. The platform's clock and the bus, said once: what the platform's acts, a cycle, a byte on the bus and an access of
several bytes can do. Later proofs cite these and unfold none of them. -/

namespace Sys2Proof.Machine

/-! ## What may be done within some cycles -/

theorem State.actsWithin_mem {s : State} {n : Nat} {e : PlatformEvent} :
    e ∈ s.actsWithin n ↔ (∃ es ∈ s.platform.take n, e ∈ es) ∨ (∃ r ∈ s.ioReads.take n, e ∈ r.events) ∨
      ∃ es ∈ s.ioWrites.take n, e ∈ es := by
  simp [State.actsWithin]

theorem mem_take_of_drop {α : Type} {l : List α} {a : α} {j m n : Nat} (hj : j ≤ m) (h : a ∈ (l.drop j).take n) :
    a ∈ l.take (m + n) := by
  rw [List.mem_take_iff_getElem] at *
  obtain ⟨i, hi, e⟩ := h
  simp only [List.length_drop] at hi
  exact ⟨j + i, by omega, by rw [← e, List.getElem_drop]⟩

theorem State.actsWithin_mono {s : State} {m n : Nat} {e : PlatformEvent} (h : e ∈ s.actsWithin m) :
    e ∈ s.actsWithin (m + n) := by
  rw [State.actsWithin_mem] at *
  have key : ∀ {α : Type} {l : List α} {a : α}, a ∈ l.take m → a ∈ l.take (m + n) := fun h =>
    mem_take_of_drop (l := _) (j := 0) (m := n) (Nat.zero_le _) (by simpa using h) |> fun h => by rwa [Nat.add_comm] at h
  rcases h with ⟨x, hx, h⟩ | ⟨x, hx, h⟩ | ⟨x, hx, h⟩
  · exact .inl ⟨x, key hx, h⟩
  · exact .inr (.inl ⟨x, key hx, h⟩)
  · exact .inr (.inr ⟨x, key hx, h⟩)

/-- What happens after `m` cycles happens within `m + n`. -/
theorem State.actsWithin_after {s t : State} {m n : Nat} {e : PlatformEvent} (hp : t.platform = s.platform.drop m)
    (hr : ∃ j, j ≤ m ∧ t.ioReads = s.ioReads.drop j) (hw : ∃ j, j ≤ m ∧ t.ioWrites = s.ioWrites.drop j)
    (h : e ∈ t.actsWithin n) : e ∈ s.actsWithin (m + n) := by
  rw [State.actsWithin_mem] at *
  obtain ⟨j, hj, hr⟩ := hr
  obtain ⟨k, hk, hw⟩ := hw
  rw [hp, hr, hw] at h
  rcases h with ⟨x, hx, h⟩ | ⟨x, hx, h⟩ | ⟨x, hx, h⟩
  · exact .inl ⟨x, mem_take_of_drop le_rfl hx, h⟩
  · exact .inr (.inl ⟨x, mem_take_of_drop hj hx, h⟩)
  · exact .inr (.inr ⟨x, mem_take_of_drop hk hx, h⟩)

theorem State.spares_mono {s : State} {m n : Nat} {adr : Addr} (h : s.spares (m + n) adr) : s.spares m adr :=
  fun v hv => h v (State.actsWithin_mono hv)

/-! ## The platform's acts -/

@[simp] theorem State.acts_nil (s : State) : s.acts [] = s := rfl

/-- What is kept by each event of a list is kept by the acts. -/
theorem State.acts_induction {s : State} {P : State → Prop} {es : List PlatformEvent} (h0 : P s)
    (he : ∀ t e, e ∈ es → P t → P (State.platformEvent t e)) : P (s.acts es) := by
  unfold State.acts
  induction es generalizing s with
  | nil => exact h0
  | cons e es ih =>
    exact ih (he s e (List.mem_cons_self ..) h0) fun t e' hm => he t e' (List.mem_cons_of_mem _ hm)

theorem State.acts_low (s : State) (es : List PlatformEvent) (i : Nat) (hi : i < 16) :
    (s.acts es).f.getLsbD i = s.f.getLsbD i := by
  refine State.acts_induction (P := fun t => t.f.getLsbD i = s.f.getLsbD i) rfl fun t e _ h => ?_
  cases e with
  | writeSoftFlags v =>
    simp only [State.platformEvent]
    rw [putField_getLsbD _ _ _ _ (by omega), if_neg (by omega), h]
  | _ => exact h

theorem State.acts_soft (s : State) (es : List PlatformEvent) (h : ∀ v, .writeSoftFlags v ∉ es) : (s.acts es).f = s.f := by
  refine State.acts_induction (P := fun t => t.f = s.f) rfl fun t e he ht => ?_
  cases e with
  | writeSoftFlags v => exact absurd he (h v)
  | _ => exact ht

theorem State.acts_enable (s : State) (es : List PlatformEvent) (h : ∀ v, .writeEnable v ∉ es) :
    (s.acts es).intEnable = s.intEnable := by
  refine State.acts_induction (P := fun t => t.intEnable = s.intEnable) rfl fun t e he ht => ?_
  cases e with
  | writeEnable v => exact absurd he (h v)
  | _ => exact ht

theorem State.acts_error (s : State) (es : List PlatformEvent) (h : .hwError ∉ es) : (s.acts es).hwError = s.hwError := by
  refine State.acts_induction (P := fun t => t.hwError = s.hwError) rfl fun t e he ht => ?_
  cases e with
  | hwError => exact absurd he h
  | _ => exact ht

theorem State.acts_set (s : State) (es : List PlatformEvent) (k : BitVec 5) (h : .raiseInterrupt k ∉ es)
    (hk : (s.acts es).intFlags.getLsbD k.toNat = true) : s.intFlags.getLsbD k.toNat = true := by
  revert hk
  refine State.acts_induction
    (P := fun t => t.intFlags.getLsbD k.toNat = true → s.intFlags.getLsbD k.toNat = true) id fun t e he ht => ?_
  cases e with
  | raiseInterrupt j =>
    have hj : k.toNat ≠ j.toNat := fun e => h (by rwa [BitVec.eq_of_toNat_eq e])
    simp only [State.platformEvent, putBit_getLsbD _ _ _ _ (show j.toNat < 32 from j.isLt), hj, if_false]
    exact ht
  | clearInterrupt j =>
    simp only [State.platformEvent, putBit_getLsbD _ _ _ _ (show j.toNat < 32 from j.isLt)]
    split
    · intro h; cases h
    · exact ht
  | _ => exact ht

theorem State.acts_cleared (s : State) (es : List PlatformEvent) (k : BitVec 5) (h : .clearInterrupt k ∉ es)
    (hk : s.intFlags.getLsbD k.toNat = true) : (s.acts es).intFlags.getLsbD k.toNat = true := by
  refine State.acts_induction (P := fun t => t.intFlags.getLsbD k.toNat = true) hk fun t e he ht => ?_
  cases e with
  | clearInterrupt j =>
    have hj : k.toNat ≠ j.toNat := fun e => h (by rwa [BitVec.eq_of_toNat_eq e])
    simp only [State.platformEvent, putBit_getLsbD _ _ _ _ (show j.toNat < 32 from j.isLt), hj, if_false]
    exact ht
  | raiseInterrupt j =>
    simp only [State.platformEvent, putBit_getLsbD _ _ _ _ (show j.toNat < 32 from j.isLt)]
    split
    · rfl
    · exact ht
  | _ => exact ht

theorem State.acts_byte (s : State) (es : List PlatformEvent) (adr : Addr) (h : ∀ v, .writeByte adr v ∉ es) :
    (s.acts es).byte adr = s.byte adr := by
  refine State.acts_induction (P := fun t => t.byte adr = s.byte adr) rfl fun t e he ht => ?_
  cases e with
  | writeByte a v =>
    have ha : adr.toNat ≠ a.toNat := fun e => h v (by rwa [BitVec.eq_of_toNat_eq e])
    simp only [State.platformEvent, State.byte, Memory.read_write, ha, if_false]
    exact ht
  | _ => exact ht

theorem State.acts_wf (s : State) (es : List PlatformEvent) (h : s.mem.wf = true) : (s.acts es).mem.wf = true := by
  refine State.acts_induction (P := fun t => t.mem.wf = true) h fun t e he ht => ?_
  cases e with
  | writeByte a v => exact Memory.wf_write _ _ _ ht a.isLt
  | _ => exact ht

/-! ## `OnBus`: what cycles can do -/

theorem OnBus.refl (s : State) : OnBus 0 s s where
  rest := rfl
  reads := ⟨0, le_rfl, rfl⟩
  writes := ⟨0, le_rfl, rfl⟩
  low _ _ := rfl
  soft _ := rfl
  enable _ := rfl
  set _ _ h := h
  cleared _ _ h := h
  error _ := rfl

theorem OnBus.platform {n : Nat} {s t : State} (h : OnBus n s t) : t.platform = s.platform.drop n := by rw [h.rest]

theorem OnBus.cycles {n : Nat} {s t : State} (h : OnBus n s t) : t.cycles = s.cycles + n := by rw [h.rest]

theorem OnBus.a {n : Nat} {s t : State} (h : OnBus n s t) : t.a = s.a := by rw [h.rest]
theorem OnBus.b {n : Nat} {s t : State} (h : OnBus n s t) : t.b = s.b := by rw [h.rest]
theorem OnBus.c {n : Nat} {s t : State} (h : OnBus n s t) : t.c = s.c := by rw [h.rest]
theorem OnBus.d {n : Nat} {s t : State} (h : OnBus n s t) : t.d = s.d := by rw [h.rest]
theorem OnBus.pc {n : Nat} {s t : State} (h : OnBus n s t) : t.pc = s.pc := by rw [h.rest]
theorem OnBus.ip {n : Nat} {s t : State} (h : OnBus n s t) : t.ip = s.ip := by rw [h.rest]
theorem OnBus.sp {n : Nat} {s t : State} (h : OnBus n s t) : t.sp = s.sp := by rw [h.rest]
theorem OnBus.sa {n : Nat} {s t : State} (h : OnBus n s t) : t.sa = s.sa := by rw [h.rest]
theorem OnBus.da {n : Nat} {s t : State} (h : OnBus n s t) : t.da = s.da := by rw [h.rest]
theorem OnBus.sd {n : Nat} {s t : State} (h : OnBus n s t) : t.sd = s.sd := by rw [h.rest]
theorem OnBus.ci {n : Nat} {s t : State} (h : OnBus n s t) : t.ci = s.ci := by rw [h.rest]
theorem OnBus.ec {n : Nat} {s t : State} (h : OnBus n s t) : t.ec = s.ec := by rw [h.rest]
theorem OnBus.xd {n : Nat} {s t : State} (h : OnBus n s t) : t.xd = s.xd := by rw [h.rest]
theorem OnBus.ime {n : Nat} {s t : State} (h : OnBus n s t) : t.ime = s.ime := by rw [h.rest]
theorem OnBus.ei {n : Nat} {s t : State} (h : OnBus n s t) : t.ei = s.ei := by rw [h.rest]
theorem OnBus.faulted {n : Nat} {s t : State} (h : OnBus n s t) : t.faulted = s.faulted := by rw [h.rest]
theorem OnBus.standby {n : Nat} {s t : State} (h : OnBus n s t) : t.standby = s.standby := by rw [h.rest]
theorem OnBus.cfg {n : Nat} {s t : State} (h : OnBus n s t) : t.cfg = s.cfg := by rw [h.rest]
theorem OnBus.raised {n : Nat} {s t : State} (h : OnBus n s t) : t.raised = s.raised := by rw [h.rest]
theorem OnBus.draws {n : Nat} {s t : State} (h : OnBus n s t) : t.draws = s.draws := by rw [h.rest]

theorem OnBus.acts {m n : Nat} {s t : State} (h : OnBus m s t) {e : PlatformEvent} (he : e ∈ t.actsWithin n) :
    e ∈ s.actsWithin (m + n) := State.actsWithin_after h.platform h.reads h.writes he

theorem OnBus.spares {m n : Nat} {s t : State} (h : OnBus m s t) {adr : Addr} (hs : s.spares (m + n) adr) : t.spares n adr :=
  fun v hv => hs v (h.acts hv)

theorem OnBus.plain {n : Nat} {s t : State} (h : OnBus n s t) {adr : Addr} (hp : s.plain adr) : t.plain adr := by
  obtain ⟨j, -, hr⟩ := h.reads
  obtain ⟨k, -, hw⟩ := h.writes
  rcases hp with hp | ⟨h1, h2⟩
  · exact .inl hp
  · exact .inr ⟨by rw [hr, h1, List.drop_nil], by rw [hw, h2, List.drop_nil]⟩

theorem OnBus.trans {m n : Nat} {s t u : State} (h : OnBus m s t) (g : OnBus n t u) : OnBus (m + n) s u where
  rest := by
    conv_lhs => rw [g.rest]
    rw [h.platform, h.cycles, List.drop_drop, Nat.add_assoc]
    conv_lhs => rw [h.rest]
  reads := by
    obtain ⟨j, hj, h1⟩ := h.reads
    obtain ⟨k, hk, h2⟩ := g.reads
    exact ⟨j + k, by omega, by rw [h2, h1, List.drop_drop]⟩
  writes := by
    obtain ⟨j, hj, h1⟩ := h.writes
    obtain ⟨k, hk, h2⟩ := g.writes
    exact ⟨j + k, by omega, by rw [h2, h1, List.drop_drop]⟩
  low i hi := (g.low i hi).trans (h.low i hi)
  soft hv := (g.soft fun v hm => hv v (h.acts hm)).trans (h.soft fun v hm => hv v (State.actsWithin_mono hm))
  enable hv := (g.enable fun v hm => hv v (h.acts hm)).trans (h.enable fun v hm => hv v (State.actsWithin_mono hm))
  set k hk hu := h.set k (fun hm => hk (State.actsWithin_mono hm)) (g.set k (fun hm => hk (h.acts hm)) hu)
  cleared k hk hs := g.cleared k (fun hm => hk (h.acts hm)) (h.cleared k (fun hm => hk (State.actsWithin_mono hm)) hs)
  error he := (g.error fun hm => he (h.acts hm)).trans (h.error fun hm => he (State.actsWithin_mono hm))

/-- The CPU's own registers may be written on both sides. -/
theorem OnBus.latches {n : Nat} {s t : State} (h : OnBus n s t) (pc ip sa da sd : Word) (ci : Half) (xd : Byte) (raised : Bool) :
    OnBus n { s with pc := pc, ip := ip, sa := sa, da := da, sd := sd, ci := ci, xd := xd, raised := raised }
      { t with pc := pc, ip := ip, sa := sa, da := da, sd := sd, ci := ci, xd := xd, raised := raised } where
  rest := by conv_lhs => rw [h.rest]
  reads := h.reads
  writes := h.writes
  low := h.low
  soft := h.soft
  enable := h.enable
  set := h.set
  cleared := h.cleared
  error := h.error

/-- And the registers an entry writes. -/
theorem OnBus.entry {n : Nat} {s t : State} (h : OnBus n s t) (pc sp : Word) (ec : Byte) (ime faulted raised : Bool) :
    OnBus n { s with pc := pc, sp := sp, ec := ec, ime := ime, faulted := faulted, raised := raised }
      { t with pc := pc, sp := sp, ec := ec, ime := ime, faulted := faulted, raised := raised } where
  rest := by conv_lhs => rw [h.rest]
  reads := h.reads
  writes := h.writes
  low := h.low
  soft := h.soft
  enable := h.enable
  set := h.set
  cleared := h.cleared
  error := h.error

theorem OnBus.setPc {n : Nat} {s t : State} (h : OnBus n s t) (v : Word) :
    OnBus n { s with pc := v } { t with pc := v } where
  rest := by conv_lhs => rw [h.rest]
  reads := h.reads
  writes := h.writes
  low := h.low
  soft := h.soft
  enable := h.enable
  set := h.set
  cleared := h.cleared
  error := h.error

theorem OnBus.setSp {n : Nat} {s t : State} (h : OnBus n s t) (v : Word) :
    OnBus n { s with sp := v } { t with sp := v } where
  rest := by conv_lhs => rw [h.rest]
  reads := h.reads
  writes := h.writes
  low := h.low
  soft := h.soft
  enable := h.enable
  set := h.set
  cleared := h.cleared
  error := h.error

theorem OnBus.setSd {n : Nat} {s t : State} (h : OnBus n s t) (v : Word) :
    OnBus n { s with sd := v } { t with sd := v } where
  rest := by conv_lhs => rw [h.rest]
  reads := h.reads
  writes := h.writes
  low := h.low
  soft := h.soft
  enable := h.enable
  set := h.set
  cleared := h.cleared
  error := h.error

theorem OnBus.setIme {n : Nat} {s t : State} (h : OnBus n s t) (v : Bool) :
    OnBus n { s with ime := v } { t with ime := v } where
  rest := by conv_lhs => rw [h.rest]
  reads := h.reads
  writes := h.writes
  low := h.low
  soft := h.soft
  enable := h.enable
  set := h.set
  cleared := h.cleared
  error := h.error

/-! ## One cycle -/

/-- A cycle, and acts that a device adds before it, once its answer is taken off. -/
theorem OnBus.acted {s : State} (es : List PlatformEvent) (answers : List IoAnswer) (effects : List (List PlatformEvent))
    (hr : answers = s.ioReads ∧ effects = s.ioWrites ∧ es = [] ∨
      (∃ r, s.ioReads = r :: answers ∧ effects = s.ioWrites ∧ es = r.events) ∨
      (answers = s.ioReads ∧ s.ioWrites = es :: effects)) :
    OnBus 1 s (({ s with ioReads := answers, ioWrites := effects } : State).acts es).clock := by
  generalize ht : ({ s with ioReads := answers, ioWrites := effects } : State) = t
  have hc : (t.acts es).clock = (({ t with platform := t.platform.tail, cycles := t.cycles + 1 } : State).acts
      (es ++ t.platform.headD [])) := by
    simp only [State.clock, State.acts_platform, State.acts_cycles]
    simp only [State.acts, List.foldl_append]
    congr 1
    generalize es = l
    have key : ∀ (l : List PlatformEvent) (u : State) (p : List (List PlatformEvent)) (c : Nat),
        { l.foldl State.platformEvent u with platform := p, cycles := c } =
          l.foldl State.platformEvent { u with platform := p, cycles := c } := by
      intro l
      induction l with
      | nil => intros; rfl
      | cons e l ih => intro u p c; rw [List.foldl_cons, ih, List.foldl_cons]; cases e <;> rfl
    exact key _ _ _ _
  have mem : ∀ {e}, e ∈ es ++ s.platform.headD [] → e ∈ s.actsWithin 1 := by
    intro e he
    rw [State.actsWithin_mem]
    rcases List.mem_append.1 he with he | he
    · rcases hr with ⟨-, -, h⟩ | ⟨r, h, -, rfl⟩ | ⟨-, h⟩
      · rw [h] at he; cases he
      · exact .inr (.inl ⟨r, by simp [h], he⟩)
      · exact .inr (.inr ⟨es, by simp [h], he⟩)
    · cases hl : s.platform with
      | nil => simp [hl] at he
      | cons l ls => exact .inl ⟨l, by simp, by simpa [hl] using he⟩
  rw [hc]
  subst ht
  refine ⟨?_, ?_, ?_, fun i hi => ?_, fun h => ?_, fun h => ?_, fun k h hk => ?_, fun k h hk => ?_, fun h => ?_⟩
  · conv_lhs => rw [State.acts_frame]
    simp only [State.acts_ioReads, State.acts_ioWrites, List.drop_one]
  · rw [State.acts_ioReads]
    rcases hr with ⟨h, -, -⟩ | ⟨r, h, -, -⟩ | ⟨h, -⟩
    · exact ⟨0, by omega, h⟩
    · exact ⟨1, le_rfl, by rw [h]; rfl⟩
    · exact ⟨0, by omega, h⟩
  · rw [State.acts_ioWrites]
    rcases hr with ⟨-, h, -⟩ | ⟨r, -, h, -⟩ | ⟨-, h⟩
    · exact ⟨0, by omega, h⟩
    · exact ⟨0, by omega, h⟩
    · exact ⟨1, le_rfl, by rw [h]; rfl⟩
  · exact State.acts_low _ _ _ hi
  · exact State.acts_soft _ _ fun v hv => h v (mem hv)
  · exact State.acts_enable _ _ fun v hv => h v (mem hv)
  · have := State.acts_set _ _ k (fun hv => h (mem hv)) hk
    exact this
  · refine State.acts_cleared _ _ k (fun hv => h (mem hv)) ?_
    exact hk
  · exact State.acts_error _ _ fun hv => h (mem hv)

theorem State.clock_onBus (s : State) : OnBus 1 s s.clock :=
  OnBus.acted [] s.ioReads s.ioWrites (.inl ⟨rfl, rfl, rfl⟩)

theorem State.clock_byte_of {s : State} {adr : Addr} (h : s.spares 1 adr) : s.clock.byte adr = s.byte adr := by
  rw [State.clock, State.acts_byte]
  · rfl
  · intro v hv
    refine h v ?_
    rw [State.actsWithin_mem]
    cases hl : s.platform with
    | nil => simp [hl] at hv
    | cons l ls => exact .inl ⟨l, by simp, by simpa [hl] using hv⟩

theorem State.clock_wf {s : State} (h : s.mem.wf = true) : s.clock.mem.wf = true := State.acts_wf _ _ h

/-! ## One byte on the bus, and its cycle -/

theorem State.busRead_plain {s : State} {adr : Addr} (h : s.plain adr) : s.busRead adr = (s.byte adr, s) := by
  unfold State.busRead
  rcases h with h | ⟨h, -⟩
  · simp [h]
  · simp [h]

/-- A byte read is the platform's memory and nothing more, or a device's next answer. -/
theorem State.busRead_cases (s : State) (adr : Addr) :
    s.busRead adr = (s.byte adr, s) ∨
      ∃ r answers, s.ioReads = r :: answers ∧
        s.busRead adr = (r.value, ({ s with ioReads := answers } : State).acts r.events) := by
  unfold State.busRead
  split
  · cases h : s.ioReads with
    | nil => exact .inl rfl
    | cons r answers => exact .inr ⟨r, answers, rfl, rfl⟩
  · exact .inl rfl

/-- A byte written goes to memory, or a device does what it does. -/
theorem State.busWrite_cases (s : State) (adr : Addr) (v : Byte) :
    s.busWrite adr v = { s with mem := s.mem.write adr.toNat v } ∨
      ¬ s.plain adr ∧ ∃ es effects, s.ioWrites = es :: effects ∧
        s.busWrite adr v = ({ s with ioWrites := effects } : State).acts es := by
  unfold State.busWrite State.plain
  split
  · cases h : s.ioWrites with
    | nil => exact .inl rfl
    | cons es effects => exact .inr ⟨by simp [*], es, effects, rfl, rfl⟩
  · exact .inl rfl

theorem State.busRead_onBus (s : State) (adr : Addr) : OnBus 1 s (s.busRead adr).2.clock := by
  rcases s.busRead_cases adr with h | ⟨r, answers, hr, h⟩ <;> rw [h]
  · exact s.clock_onBus
  · exact OnBus.acted r.events answers s.ioWrites (.inr (.inl ⟨r, hr, rfl, rfl⟩))

theorem State.busWrite_onBus (s : State) (adr : Addr) (v : Byte) : OnBus 1 s (s.busWrite adr v).clock := by
  rcases s.busWrite_cases adr v with h | ⟨-, es, effects, hw, h⟩ <;> rw [h]
  · have := ({ s with mem := s.mem.write adr.toNat v } : State).clock_onBus
    exact ⟨this.rest, this.reads, this.writes, this.low, this.soft, this.enable, this.set, this.cleared, this.error⟩
  · exact OnBus.acted es s.ioReads effects (.inr (.inr ⟨rfl, hw⟩))

/-- An effect a device adds within a cycle leaves the bytes the platform spares. -/
theorem State.acted_byte {s t : State} {es : List PlatformEvent} {adr : Addr} (h : s.spares 1 adr)
    (hp : t.platform = s.platform) (hm : t.mem = s.mem) (he : ∀ e, e ∈ es → e ∈ s.actsWithin 1) :
    (t.acts es).clock.byte adr = s.byte adr := by
  have hc : ∀ v, .writeByte adr v ∉ (t.acts es).platform.headD [] := by
    intro v hv
    rw [State.acts_platform, hp] at hv
    refine h v (State.actsWithin_mem.2 (.inl ?_))
    cases hl : s.platform with
    | nil => simp [hl] at hv
    | cons l ls => exact ⟨l, by simp, by simpa [hl] using hv⟩
  rw [State.clock, State.acts_byte _ _ _ hc]
  show (t.acts es).byte adr = _
  rw [State.acts_byte _ _ _ fun v hv => h v (he _ hv)]
  simp [State.byte, hm]

theorem State.busRead_spared (s : State) (adr : Addr) : s.bytesSpared (s.busRead adr).2.clock 1 := by
  intro a ha
  rcases s.busRead_cases adr with h | ⟨r, answers, hr, h⟩ <;> rw [h]
  · exact State.clock_byte_of ha
  · exact State.acted_byte ha rfl rfl fun e he => State.actsWithin_mem.2 (.inr (.inl ⟨r, by simp [hr], he⟩))

theorem State.busWrite_stored (s : State) (adr : Addr) (v : Byte) (a : Addr) (ha : s.spares 1 a) :
    (a ≠ adr → (s.busWrite adr v).clock.byte a = s.byte a) ∧
      (a = adr → s.plain adr → (s.busWrite adr v).clock.byte a = v) := by
  rcases s.busWrite_cases adr v with h | ⟨hp, es, effects, hw, h⟩ <;> rw [h]
  · have := State.clock_byte_of (s := { s with mem := s.mem.write adr.toNat v }) (adr := a) ha
    rw [this]
    refine ⟨fun hne => ?_, fun he _ => ?_⟩
    · simp [State.byte, hne, BitVec.toNat_inj]
    · simp [State.byte, he]
  · refine ⟨fun _ => ?_, fun _ h => absurd h hp⟩
    exact State.acted_byte ha rfl rfl fun e he => State.actsWithin_mem.2 (.inr (.inr ⟨es, by simp [hw], he⟩))

theorem State.busRead_wf {s : State} (adr : Addr) (h : s.mem.wf = true) : (s.busRead adr).2.clock.mem.wf = true := by
  refine State.clock_wf ?_
  rcases s.busRead_cases adr with e | ⟨r, answers, -, e⟩ <;> rw [e]
  · exact h
  · exact State.acts_wf _ _ h

theorem State.busWrite_wf {s : State} (adr : Addr) (v : Byte) (h : s.mem.wf = true) :
    (s.busWrite adr v).clock.mem.wf = true := by
  refine State.clock_wf ?_
  rcases s.busWrite_cases adr v with e | ⟨-, es, effects, -, e⟩ <;> rw [e]
  · exact Memory.wf_write _ _ _ h adr.isLt
  · exact State.acts_wf _ _ h

/-! ## Several bytes -/

theorem State.bytesSpared.trans {s t u : State} {m n : Nat} (h : s.bytesSpared t m) (hb : OnBus m s t)
    (g : t.bytesSpared u n) : s.bytesSpared u (m + n) := fun adr ha =>
  (g adr (hb.spares ha)).trans (h adr (State.spares_mono ha))

theorem State.readBytes_onBus (s : State) (n : Nat) (adr : Addr) : OnBus n s (s.readBytes n adr).2 := by
  induction n generalizing s adr with
  | zero => exact OnBus.refl s
  | succ n ih =>
    have h := (s.busRead_onBus adr).trans (ih (s.busRead adr).2.clock (adr + 1))
    rwa [Nat.add_comm] at h

theorem State.readBytes_spared (s : State) (n : Nat) (adr : Addr) : s.bytesSpared (s.readBytes n adr).2 n := by
  induction n generalizing s adr with
  | zero => exact fun _ _ => rfl
  | succ n ih =>
    have h := (s.busRead_spared adr).trans (s.busRead_onBus adr) (ih (s.busRead adr).2.clock (adr + 1))
    rwa [Nat.add_comm] at h

theorem State.readBytes_wf {s : State} (n : Nat) (adr : Addr) (h : s.mem.wf = true) :
    (s.readBytes n adr).2.mem.wf = true := by
  induction n generalizing s adr with
  | zero => exact h
  | succ n ih => exact ih _ (State.busRead_wf adr h)

theorem State.readBytes_bit_high (s : State) (n : Nat) (adr : Addr) (i : Nat) (hi : 8 * n ≤ i) :
    (s.readBytes n adr).1.getLsbD i = false := by
  induction n generalizing s adr i with
  | zero => simp [State.readBytes]
  | succ n ih =>
    simp only [State.readBytes, BitVec.getLsbD_or, BitVec.getLsbD_setWidth, BitVec.getLsbD_shiftLeft]
    rw [ih _ _ (i - 8) (by omega), BitVec.getLsbD_of_ge _ i (by omega : 8 ≤ i)]
    simp

theorem low_byte (b : Byte) (w : Word) : (b.setWidth 32 ||| (w <<< 8)).extractLsb' 0 8 = b := by
  ext i hi
  simp [hi, show i < 32 by omega]

theorem high_byte (b : Byte) (w : Word) (k : Nat) (hk : k < 3) :
    (b.setWidth 32 ||| (w <<< 8)).extractLsb' (8 * (k + 1)) 8 = w.extractLsb' (8 * k) 8 := by
  ext i hi
  simp only [BitVec.getElem_extractLsb', BitVec.getLsbD_or, BitVec.getLsbD_setWidth, BitVec.getLsbD_shiftLeft]
  simp [show 8 * (k + 1) + i < 32 by omega, show 8 ≤ 8 * (k + 1) + i by omega,
    show 8 * (k + 1) + i - 8 = 8 * k + i by omega]

/-- Byte `k` of the value read is what the bus answers in the state after `k` bytes. -/
theorem State.readBytes_byte (s : State) (n : Nat) (adr : Addr) (k : Nat) (hk : k < n) (hn : n ≤ 4) :
    (s.readBytes n adr).1.extractLsb' (8 * k) 8 = ((s.readBytes k adr).2.busRead (adr + BitVec.ofNat 32 k)).1 := by
  induction n generalizing s adr k with
  | zero => omega
  | succ n ih =>
    cases k with
    | zero => simpa [State.readBytes] using low_byte _ _
    | succ k =>
      rw [State.readBytes, State.readBytes]
      simp only
      rw [high_byte _ _ _ (by omega), ih _ _ _ (by omega) (by omega), addr_succ]

theorem State.readBytes_valueAt (s : State) (n : Nat) (adr : Addr) (hn : n ≤ 4) :
    s.valueAt n adr n (s.readBytes n adr).1 := by
  refine ⟨fun i hi => s.readBytes_bit_high n adr i hi, fun k hk hs hp => ?_⟩
  have hs' : s.spares k (adr + BitVec.ofNat 32 k) := by
    have : n = k + (n - k) := by omega
    rw [this] at hs
    exact State.spares_mono hs
  rw [s.readBytes_byte n adr k hk hn, State.busRead_plain ((s.readBytes_onBus k adr).plain hp)]
  exact s.readBytes_spared k adr _ hs'

theorem State.writeBytes_onBus (s : State) (n : Nat) (adr : Addr) (v : Word) : OnBus n s (s.writeBytes n adr v) := by
  induction n generalizing s adr v with
  | zero => exact OnBus.refl s
  | succ n ih =>
    have h := (s.busWrite_onBus adr (v.setWidth 8)).trans (ih _ (adr + 1) (v >>> 8))
    rwa [Nat.add_comm] at h

theorem State.writeBytes_wf {s : State} (n : Nat) (adr : Addr) (v : Word) (h : s.mem.wf = true) :
    (s.writeBytes n adr v).mem.wf = true := by
  induction n generalizing s adr v with
  | zero => exact h
  | succ n ih => exact ih _ _ (State.busWrite_wf adr _ h)

theorem State.writeBytes_stored (s : State) (n : Nat) (adr : Addr) (v : Word) (hn : n ≤ 2 ^ 32) :
    s.stored (s.writeBytes n adr v) n adr n v := by
  induction n generalizing s adr v with
  | zero => exact fun a _ => ⟨fun _ => rfl, fun k hk => by omega⟩
  | succ n ih =>
    intro a ha
    rw [Nat.add_comm] at ha
    have h1 := s.busWrite_stored adr (v.setWidth 8) a (State.spares_mono ha)
    have hb := s.busWrite_onBus adr (v.setWidth 8)
    have h2 := ih (s.busWrite adr (v.setWidth 8)).clock (adr + 1) (v >>> 8) (by omega) a (hb.spares ha)
    rw [State.writeBytes]
    refine ⟨fun hne => ?_, fun k hk he hp => ?_⟩
    · rw [h2.1 fun k hk => by rw [addr_succ]; exact hne _ (by omega)]
      exact h1.1 (by simpa using hne 0 (by omega))
    · cases k with
      | zero =>
        rw [BitVec.add_zero] at he
        rw [h2.1 fun k hk => by
          rw [he, addr_succ]
          conv_lhs => rw [← BitVec.add_zero adr]
          exact addr_ne adr (i := 0) (by omega) (by omega) (by omega), h1.2 he (he ▸ hp)]
        ext i hi
        simp
      | succ k => rw [h2.2 k (by omega) (by rw [addr_succ]; exact he) (hb.plain hp), extract_shift]

/-! ## The accesses of an instruction -/

theorem State.dataRead_fst (s : State) (adr : Addr) (n : Nat) :
    (s.dataRead adr n).1 = (({ s with sa := adr } : State).readBytes n adr).1 := rfl

theorem State.dataRead_onBus (s : State) (adr : Addr) (n : Nat) :
    OnBus n { s with sa := adr, sd := (s.dataRead adr n).1 } (s.dataRead adr n).2 :=
  (State.readBytes_onBus { s with sa := adr } n adr).setSd _

theorem State.dataRead_spared (s : State) (adr : Addr) (n : Nat) : s.bytesSpared (s.dataRead adr n).2 n :=
  State.readBytes_spared { s with sa := adr } n adr

/-- A completed data read. -/
theorem State.dataRead_reads (s : State) (adr : Addr) (n : Nat) (hn : n ≤ 4) :
    s.reads adr n (s.dataRead adr n).1 (s.dataRead adr n).2 :=
  ⟨rfl, State.readBytes_valueAt { s with sa := adr } n adr hn, s.dataRead_onBus adr n, s.dataRead_spared adr n⟩

theorem State.dataRead_wf {s : State} (adr : Addr) (n : Nat) (h : s.mem.wf = true) : (s.dataRead adr n).2.mem.wf = true :=
  State.readBytes_wf (s := { s with sa := adr }) n adr h

theorem State.dataWrite_onBus (s : State) (adr : Addr) (n : Nat) (v : Word) :
    OnBus n { s with da := adr } (s.dataWrite adr n v) := State.writeBytes_onBus _ n adr v

theorem State.dataWrite_stored (s : State) (adr : Addr) (n : Nat) (v : Word) (hn : n ≤ 2 ^ 32) :
    s.stored (s.dataWrite adr n v) n adr n v := State.writeBytes_stored { s with da := adr } n adr v hn

theorem State.dataWrite_wf {s : State} (adr : Addr) (n : Nat) (v : Word) (h : s.mem.wf = true) :
    (s.dataWrite adr n v).mem.wf = true := State.writeBytes_wf (s := { s with da := adr }) n adr v h

/-- Nothing is stored where every spared byte is kept. -/
theorem State.bytesSpared.stored {s u : State} {n : Nat} (h : s.bytesSpared u n) (base : Addr) (v : Word) :
    s.stored u n base 0 v := fun adr ha => ⟨fun _ => h adr ha, fun _ hk => by omega⟩

/-- Stores compose with cycles before and after them. -/
theorem State.stored.after {s t u : State} {m n k : Nat} {base : Addr} {v : Word} (hb : OnBus m s t) (h : s.bytesSpared t m)
    (g : t.stored u n base k v) : s.stored u (m + n) base k v := fun adr ha =>
  ⟨fun hne => ((g adr (hb.spares ha)).1 hne).trans (h adr (State.spares_mono ha)),
    fun j hj he hp => (g adr (hb.spares ha)).2 j hj he (hb.plain hp)⟩

theorem State.stored.before {s t u : State} {m n k : Nat} {base : Addr} {v : Word} (h : s.stored t m base k v)
    (hb : OnBus m s t) (g : t.bytesSpared u n) : s.stored u (m + n) base k v := fun adr ha =>
  ⟨fun hne => (g adr (hb.spares ha)).trans ((h adr (State.spares_mono ha)).1 hne),
    fun j hj he hp => (g adr (hb.spares ha)).trans ((h adr (State.spares_mono ha)).2 j hj he hp)⟩

theorem State.clock_spared (s : State) : s.bytesSpared s.clock 1 := fun _ h => State.clock_byte_of h

/-- A jump. -/
theorem State.jump_onBus (s : State) (target : Addr) : OnBus 1 { s with pc := target } (s.jump target) :=
  State.clock_onBus _

theorem State.jump_spared (s : State) (target : Addr) : s.bytesSpared (s.jump target) 1 :=
  State.clock_spared { s with pc := target }

theorem State.jump_wf {s : State} (target : Addr) (h : s.mem.wf = true) : (s.jump target).mem.wf = true :=
  State.clock_wf (s := { s with pc := target }) h

/-- A push with room. -/
theorem State.pushWord_onBus (s : State) (v : Word) : OnBus 5 { s with sp := s.sp - 4 } (s.pushWord v) :=
  (State.clock_onBus { s with sp := s.sp - 4 }).trans (State.writeBytes_onBus _ 4 _ v)

theorem State.pushWord_stored (s : State) (v : Word) : s.stored (s.pushWord v) 5 (s.sp - 4) 4 v := by
  have h := State.stored.after (State.clock_onBus { s with sp := s.sp - 4 }) (State.clock_spared { s with sp := s.sp - 4 })
    (State.writeBytes_stored _ 4 (s.sp - 4) v (by omega))
  exact h

theorem State.pushWord_pushed (s : State) (v : Word) : s.pushed v (s.pushWord v) :=
  ⟨rfl, s.pushWord_onBus v, s.pushWord_stored v⟩

theorem State.pushWord_wf {s : State} (v : Word) (h : s.mem.wf = true) : (s.pushWord v).mem.wf = true :=
  State.writeBytes_wf _ _ _ (State.clock_wf (s := { s with sp := s.sp - 4 }) h)

/-- A pop with something to pop. -/
theorem State.popWord_onBus (s : State) : OnBus 5 { s with sp := s.sp + 4 } s.popWord.2 :=
  ((s.readBytes_onBus 4 s.sp).setSp (s.sp + 4)).trans (State.clock_onBus _)

theorem State.popWord_spared (s : State) : s.bytesSpared s.popWord.2 5 :=
  (s.readBytes_spared 4 s.sp).trans (s.readBytes_onBus 4 s.sp)
    (State.clock_spared { (s.readBytes 4 s.sp).2 with sp := s.sp + 4 })

theorem State.popWord_popped (s : State) : s.popped s.popWord.1 s.popWord.2 :=
  ⟨rfl, s.readBytes_valueAt 4 s.sp le_rfl, s.popWord_onBus, s.popWord_spared⟩

theorem State.popWord_wf {s : State} (h : s.mem.wf = true) : s.popWord.2.mem.wf = true :=
  State.clock_wf (s := { (s.readBytes 4 s.sp).2 with sp := s.sp + 4 }) (State.readBytes_wf 4 s.sp h)

end Sys2Proof.Machine
end

