-- ==== Sys2Proof/Laws/Ops.lean ====
section
/-! SUPPORT. What each shared operation can do, said once: checks, data accesses, the stack, exception and interrupt entry,
loads, stores and the read-modify-write of a byte. Later proofs cite these and unfold none of them. -/

namespace Sys2Proof.Machine

/-! ## Permissions -/

/-- The bus answers by the platform's parameters alone. -/
theorem State.allows_congr {s t : State} (h : t.cfg = s.cfg) (k : Access) (adr : Addr) : t.allows k adr = s.allows k adr := by
  simp only [State.allows, h]

theorem State.allowsAll_congr {s t : State} (h : t.cfg = s.cfg) (k : Access) (n : Nat) (adr : Addr) :
    t.allowsAll k n adr = s.allowsAll k n adr := by
  induction n generalizing adr with
  | zero => rfl
  | succ n ih => simp only [State.allowsAll, ih, State.allows_congr h]

/-- Every byte of an access must be allowed. -/
theorem State.allowsAll_iff (s : State) (k : Access) (n : Nat) (adr : Addr) :
    s.allowsAll k n adr = true ↔ ∀ j, j < n → s.allows k (adr + BitVec.ofNat 32 j) = true := by
  induction n generalizing adr with
  | zero => simp [State.allowsAll]
  | succ n ih =>
    simp only [State.allowsAll, Bool.and_eq_true, ih, addr_succ]
    constructor
    · rintro ⟨h0, h⟩ j hj
      cases j with
      | zero => simpa using h0
      | succ j => exact h j (by omega)
    · intro h
      exact ⟨by simpa using h 0 (by omega), fun j hj => h _ (by omega)⟩

@[simp] theorem State.allowsAll_one (s : State) (k : Access) (adr : Addr) : s.allowsAll k 1 adr = s.allows k adr := by
  simp [State.allowsAll]

/-! ## Checks and data accesses -/

@[simp] theorem requireArg_true (s : State) (k : Result) : requireArg true s k = k := rfl

@[simp] theorem requireArg_false (s : State) (k : Result) : requireArg false s k = .next (s.takeException .invalidArgument) := rfl

/-- A read every byte of which is allowed. -/
theorem withRead_allowed {adr : Addr} {n : Nat} {s : State} (k : Word → State → Result)
    (h : s.allowsAll .read n adr = true) : withRead adr n s k = k (s.dataRead adr n).1 (s.dataRead adr n).2 := by
  rw [withRead, if_pos h]

/-- A read some byte of which is refused: no byte is read. -/
theorem withRead_refused {adr : Addr} {n : Nat} {s : State} (k : Word → State → Result)
    (h : s.allowsAll .read n adr = false) :
    withRead adr n s k = .next ({ s with sa := adr }.takeException .invalidRead) := by
  rw [withRead, if_neg (by simp [h]), raise]

/-- A write every byte of which is allowed. -/
theorem withWrite_allowed {adr : Addr} {n : Nat} {v : Word} {s : State} (k : State → Result)
    (h : s.allowsAll .write n adr = true) : withWrite adr n v s k = k (s.dataWrite adr n v) := by
  rw [withWrite, if_pos h]

/-- A write some byte of which is refused: no byte is written. -/
theorem withWrite_refused {adr : Addr} {n : Nat} {v : Word} {s : State} (k : State → Result)
    (h : s.allowsAll .write n adr = false) :
    withWrite adr n v s k = .next ({ s with da := adr }.takeException .invalidWrite) := by
  rw [withWrite, if_neg (by simp [h]), raise]

/-! ## The stack -/

theorem State.stackFull_iff (s : State) : s.stackFull = true ↔ s.sp ≤ 0xFFFE0000 := by simp [State.stackFull]

theorem State.stackFull_false_iff (s : State) : s.stackFull = false ↔ 0xFFFE0000 < s.sp := by
  simp [State.stackFull]

theorem State.stackEmpty_iff (s : State) : s.stackEmpty = true ↔ 0xFFFEFFFC ≤ s.sp := by simp [State.stackEmpty]

theorem State.stackEmpty_false_iff (s : State) : s.stackEmpty = false ↔ s.sp < 0xFFFEFFFC := by
  simp [State.stackEmpty]

theorem withPush_room {v : Word} {s : State} (k : State → Result) (h : s.stackFull = false) :
    withPush v s k = k (s.pushWord v) := by simp [withPush, h]

theorem withPush_full {v : Word} {s : State} (k : State → Result) (h : s.stackFull = true) :
    withPush v s k = .next (s.takeException .stackOverflow) := by simp [withPush, h, raise]

theorem withPop_some {s : State} (k : Word → State → Result) (h : s.stackEmpty = false) :
    withPop s k = k s.popWord.1 s.popWord.2 := by simp [withPop, h]

theorem withPop_empty {s : State} (k : Word → State → Result) (h : s.stackEmpty = true) :
    withPop s k = .next (s.takeException .stackUnderflow) := by simp [withPop, h, raise]

/-! ## Exception and interrupt entry -/

/-- Exception entry on a full stack. -/
theorem State.takeException_full {e : Exc} {s : State} (h : s.stackFull = true) :
    s.takeException e = { s with ec := 0x06, faulted := true, raised := true } := by
  have h' : ({ s with ec := e.code, raised := true } : State).stackFull = true := h
  simp only [State.takeException, h', if_true]
  rfl

/-- Exception entry on a stack with room. -/
theorem State.takeException_room {e : Exc} {s : State} (h : s.stackFull = false) :
    s.takeException e =
      (({ s with ec := e.code, raised := true } : State).pushWord s.pc).enterByInt.jump (vectorAddress 0) := by
  have h' : ({ s with ec := e.code, raised := true } : State).stackFull = false := h
  simp only [State.takeException, h', Bool.false_eq_true, if_false]

/-- The end of an entry: a push and a jump are six cycles. -/
theorem State.entry_onBus (s : State) (v : Word) (target : Addr) :
    OnBus 6 { s with sp := s.sp - 4, pc := target } ((s.pushWord v).jump target) ∧
      s.stored ((s.pushWord v).jump target) 6 (s.sp - 4) 4 v :=
  ⟨((s.pushWord_onBus v).setPc target).trans ((s.pushWord v).jump_onBus target),
    State.stored.before (s := { s with sp := s.sp - 4 }) (s.pushWord_stored v) (s.pushWord_onBus v)
      ((s.pushWord v).jump_spared target)⟩

/-- `INT_CLEARS_IME` acts on `IME` alone, so it stands before or after a push. -/
theorem State.pushWord_enterByInt (s : State) (v : Word) :
    (s.pushWord v).enterByInt = { s.pushWord v with ime := s.ime && !s.cfg.intClearsIme } := by
  simp [State.enterByInt]

/-- An entry by `INT` or by an exception: six cycles. -/
theorem State.enterByInt_onBus (s : State) (v : Word) (target : Addr) :
    OnBus 6 { s with sp := s.sp - 4, pc := target, ime := s.ime && !s.cfg.intClearsIme }
        ((s.pushWord v).enterByInt.jump target) ∧
      s.stored ((s.pushWord v).enterByInt.jump target) 6 (s.sp - 4) 4 v := by
  rw [State.pushWord_enterByInt]
  exact ⟨(((s.pushWord_onBus v).setIme _).setPc target).trans (State.jump_onBus _ target),
    State.stored.before (s := { s with sp := s.sp - 4 }) (s.pushWord_stored v) (s.pushWord_onBus v)
      (State.jump_spared { s.pushWord v with ime := s.ime && !s.cfg.intClearsIme } target)⟩

/-- What exception entry on a stack with room leaves. -/
theorem State.takeException_onBus {s : State} (e : Exc) (h : s.stackFull = false) :
    OnBus 6 { s with ec := e.code, raised := true, sp := s.sp - 4, pc := 0x00001000, ime := s.ime && !s.cfg.intClearsIme }
        (s.takeException e) ∧ s.stored (s.takeException e) 6 (s.sp - 4) 4 s.pc := by
  rw [State.takeException_room h]
  exact State.enterByInt_onBus { s with ec := e.code, raised := true } s.pc (vectorAddress 0)

/-- What every exception entry leaves. -/
theorem State.takeException_keeps (s : State) (e : Exc) :
    ((s.takeException e).full = s.full) ∧ (s.takeException e).ei = s.ei ∧ (s.takeException e).cfg = s.cfg ∧
    (s.takeException e).draws = s.draws ∧ (s.takeException e).raised = true := by
  cases h : s.stackFull
  · have := (s.takeException_onBus e h).1.rest
    rw [this]
    exact ⟨rfl, rfl, rfl, rfl, rfl⟩
  · rw [State.takeException_full h]
    exact ⟨rfl, rfl, rfl, rfl, rfl⟩

theorem State.takeException_wf {s : State} (e : Exc) (h : s.mem.wf = true) : (s.takeException e).mem.wf = true := by
  cases hf : s.stackFull
  · rw [State.takeException_room hf, State.pushWord_enterByInt]
    exact State.jump_wf _ (State.pushWord_wf (s := { s with ec := e.code, raised := true }) s.pc h)
  · rw [State.takeException_full hf]
    exact h

/-- Interrupt entry on a full stack. -/
theorem State.takeInterrupt_full {k : Nat} {s : State} (h : s.stackFull = true) :
    s.takeInterrupt k = { s with ec := 0x06, faulted := true, raised := true } := by
  rw [State.takeInterrupt, if_pos h, State.takeException_full h]

/-- Interrupt entry on a stack with room. -/
theorem State.takeInterrupt_room {k : Nat} {s : State} (h : s.stackFull = false) :
    s.takeInterrupt k =
      (({ s with intFlags := putBit s.intFlags k false, ime := false, f := putBit s.f 5 false } : State).pushWord
        s.pc).jump (vectorAddress k) := by
  rw [State.takeInterrupt, if_neg (by simp [h])]
  rfl

/-- What interrupt entry on a stack with room leaves. -/
theorem State.takeInterrupt_onBus {s : State} (k : Nat) (h : s.stackFull = false) :
    OnBus 6 { s with
        intFlags := putBit s.intFlags k false, ime := false, f := putBit s.f 5 false, sp := s.sp - 4, pc := vectorAddress k }
        (s.takeInterrupt k) ∧ s.stored (s.takeInterrupt k) 6 (s.sp - 4) 4 s.pc := by
  rw [State.takeInterrupt_room h]
  exact State.entry_onBus
    { s with intFlags := putBit s.intFlags k false, ime := false, f := putBit s.f 5 false } s.pc (vectorAddress k)

theorem State.takeInterrupt_wf {s : State} (k : Nat) (h : s.mem.wf = true) : (s.takeInterrupt k).mem.wf = true := by
  cases hf : s.stackFull
  · rw [State.takeInterrupt_room hf]
    exact State.jump_wf _ (State.pushWord_wf
      (s := { s with intFlags := putBit s.intFlags k false, ime := false, f := putBit s.f 5 false }) s.pc h)
  · rw [State.takeInterrupt_full hf]
    exact h

/-! ## Loads, stores, read-modify-write -/

theorem loadFrom_allowed {x : Reg} {adr : Addr} {s : State} (h : s.allowsAll .read x.bytes adr = true) :
    loadFrom x adr s =
      .next ((s.dataRead adr x.bytes).2.writeReg x ((s.dataRead adr x.bytes).1.setWidth x.bits)) := by
  simp only [loadFrom, withAbs]
  rw [withRead_allowed _ h]

theorem loadFrom_refused {x : Reg} {adr : Addr} {s : State} (h : s.allowsAll .read x.bytes adr = false) :
    loadFrom x adr s = .next ({ s with sa := adr }.takeException .invalidRead) := by
  simp only [loadFrom, withAbs]
  rw [withRead_refused _ h]

theorem withAbs_allowed {x : Reg} {adr : Addr} {s : State} (k : BitVec x.bits → State → Result)
    (h : s.allowsAll .read x.bytes adr = true) :
    withAbs x adr s k = k ((s.dataRead adr x.bytes).1.setWidth x.bits) (s.dataRead adr x.bytes).2 := by
  simp only [withAbs]
  rw [withRead_allowed _ h]

theorem withAbs_refused {x : Reg} {adr : Addr} {s : State} (k : BitVec x.bits → State → Result)
    (h : s.allowsAll .read x.bytes adr = false) :
    withAbs x adr s k = .next ({ s with sa := adr }.takeException .invalidRead) := by
  simp only [withAbs]
  rw [withRead_refused _ h]

theorem withInd_wide {x y : Reg} {s : State} (k : BitVec x.bits → State → Result) (h : y.bits = 32) :
    withInd x y s k = withAbs x (s.address y) s k := by
  simp [withInd, h]

theorem withInd_narrow {x y : Reg} {s : State} (k : BitVec x.bits → State → Result) (h : y.bits ≠ 32) :
    withInd x y s k = .next (s.takeException .invalidArgument) := by
  simp [withInd, beq_eq_false_iff_ne.mpr h]

theorem storeTo_allowed {adr : Addr} {y : Reg} {s : State} (h : s.allowsAll .write y.bytes adr = true) :
    storeTo adr y s = .next (s.dataWrite adr y.bytes ((s.readReg y).setWidth 32)) := by
  simp only [storeTo]
  rw [withWrite_allowed _ h]

theorem storeTo_refused {adr : Addr} {y : Reg} {s : State} (h : s.allowsAll .write y.bytes adr = false) :
    storeTo adr y s = .next ({ s with da := adr }.takeException .invalidWrite) := by
  simp only [storeTo]
  rw [withWrite_refused _ h]

/-- A byte read as data is the low byte of the value. -/
theorem State.dataRead_one (s : State) (adr : Addr) :
    ((s.dataRead adr 1).1.setWidth 8).setWidth 32 = (s.dataRead adr 1).1 := by
  apply BitVec.eq_of_getLsbD_eq
  intro i hi
  by_cases h : i < 8
  · simp [h, hi]
  · rw [State.dataRead_fst, State.readBytes_bit_high _ _ _ i (by omega)]
    simp [h]

/-- The byte a read-modify-write reads. -/
def State.modified (s : State) (adr : Addr) : Byte := (({ s with da := adr } : State).dataRead adr 1).1.setWidth 8

/-- The state its read leaves. -/
def State.modifying (s : State) (adr : Addr) : State := (({ s with da := adr } : State).dataRead adr 1).2

theorem State.modifying_onBus (s : State) (adr : Addr) :
    OnBus 1 { s with sa := adr, da := adr, sd := (s.modified adr).setWidth 32 } (s.modifying adr) := by
  have h := (State.dataRead_reads { s with da := adr } adr 1 (by omega)).2.2.1
  rw [← State.dataRead_one] at h
  exact h

/-- Its read and its write. -/
theorem State.modifies_data (s : State) (adr : Addr) (r : Byte) :
    s.modifies adr (s.modified adr) r ((s.modifying adr).dataWrite adr 1 (r.setWidth 32)) := by
  have h := State.dataRead_reads { s with da := adr } adr 1 (by omega)
  have hb := s.modifying_onBus adr
  have hd : ({ s.modifying adr with da := adr } : State) = s.modifying adr := by
    conv_lhs => rw [hb.rest]
    exact hb.rest.symm
  have hw := (s.modifying adr).dataWrite_onBus adr 1 (r.setWidth 32)
  rw [hd] at hw
  refine ⟨s.modifying adr, ?_, rfl, fun hs hp => ?_, hb.trans hw, ?_⟩
  · rw [State.modified, State.dataRead_one]; rfl
  · have h0 : adr + BitVec.ofNat 32 0 = adr := by simp
    have := h.2.1.2 0 (by omega) (by rw [h0]; exact hs) (by rw [h0]; exact hp)
    rw [h0, Nat.mul_zero, ← BitVec.setWidth_eq_extractLsb' (by omega)] at this
    exact this
  · exact State.stored.after (s := { s with sa := adr, da := adr, sd := (s.modified adr).setWidth 32 }) (m := 1) (n := 1) hb
      h.2.2.2 ((s.modifying adr).dataWrite_stored adr 1 (r.setWidth 32) (by omega))

theorem State.modifies_wf {s u : State} {adr : Addr} {b r : Byte} (h : s.modifies adr b r u) (hm : s.mem.wf = true) :
    u.mem.wf = true := by
  obtain ⟨t, ht, rfl, -⟩ := h
  rw [show t = (({ s with da := adr } : State).dataRead adr 1).2 by rw [← ht]]
  exact State.dataWrite_wf _ _ _ (State.dataRead_wf (s := { s with da := adr }) adr 1 hm)

/-- A read-modify-write of an allowed byte. -/
theorem modifyByte_allowed {x : Reg} {g : Byte → Byte} {col : Byte → Column} {s : State} (hx : x.bits = 32)
    (hr : s.allows .read (s.address x) = true) (hw : s.allows .write (s.address x) = true) :
    modifyByte x g col s =
      .next (((s.modifying (s.address x)).dataWrite (s.address x) 1 ((g (s.modified (s.address x))).setWidth 32)).putColumn
        (col (s.modified (s.address x)))) := by
  simp only [modifyByte, hx, beq_self_eq_true, requireArg_true]
  rw [withRead_allowed]
  · rw [withWrite_allowed]
    · rfl
    · rw [State.allowsAll_one, State.allows_congr (s := s) (by simp), hw]
  · rw [State.allowsAll_one, State.allows_congr (s := s) (by rfl), hr]

/-- A read-modify-write whose byte may not be read. -/
theorem modifyByte_unreadable {x : Reg} {g : Byte → Byte} {col : Byte → Column} {s : State} (hx : x.bits = 32)
    (hr : s.allows .read (s.address x) = false) :
    modifyByte x g col s =
      .next ({ s with sa := s.address x, da := s.address x }.takeException .invalidRead) := by
  simp only [modifyByte, hx, beq_self_eq_true, requireArg_true]
  rw [withRead_refused]
  rw [State.allowsAll_one, State.allows_congr (s := s) (by rfl), hr]

/-- A read-modify-write whose byte may be read but not written. -/
theorem modifyByte_unwritable {x : Reg} {g : Byte → Byte} {col : Byte → Column} {s : State} (hx : x.bits = 32)
    (hr : s.allows .read (s.address x) = true) (hw : s.allows .write (s.address x) = false) :
    modifyByte x g col s = .next ((s.modifying (s.address x)).takeException .invalidWrite) := by
  have hd : ({ s.modifying (s.address x) with da := s.address x } : State) = s.modifying (s.address x) := by
    conv_lhs => rw [(s.modifying_onBus _).rest]
    exact (s.modifying_onBus _).rest.symm
  simp only [modifyByte, hx, beq_self_eq_true, requireArg_true]
  rw [withRead_allowed]
  · rw [withWrite_refused]
    · rw [← hd]; rfl
    · rw [State.allowsAll_one, State.allows_congr (s := s) (by simp), hw]
  · rw [State.allowsAll_one, State.allows_congr (s := s) (by rfl), hr]

theorem modifyByte_narrow {x : Reg} {g : Byte → Byte} {col : Byte → Column} {s : State} (hx : x.bits ≠ 32) :
    modifyByte x g col s = .next (s.takeException .invalidArgument) := by
  simp [modifyByte, beq_eq_false_iff_ne.mpr hx]

end Sys2Proof.Machine
end

