-- ==== Sys2Proof/Laws/Alu.lean ====
section
/-! SUPPORT. What the arithmetic cores leave, said once: the state after a register and a flags column are written, and each flag
and result function in plain arithmetic or bit by bit. -/

namespace Sys2Proof.Machine

/-- Two states that agree in every field are equal. -/
theorem State.eq_of_fields {s t : State}
    (h_a : s.a = t.a) (h_b : s.b = t.b) (h_c : s.c = t.c) (h_d : s.d = t.d) (h_pc : s.pc = t.pc) (h_ip : s.ip = t.ip)
    (h_sp : s.sp = t.sp) (h_sa : s.sa = t.sa) (h_da : s.da = t.da) (h_sd : s.sd = t.sd) (h_f : s.f = t.f)
    (h_intFlags : s.intFlags = t.intFlags) (h_intEnable : s.intEnable = t.intEnable) (h_ci : s.ci = t.ci)
    (h_ec : s.ec = t.ec) (h_xd : s.xd = t.xd) (h_ime : s.ime = t.ime) (h_ei : s.ei = t.ei)
    (h_faulted : s.faulted = t.faulted) (h_mem : s.mem = t.mem) (h_platform : s.platform = t.platform)
    (h_standby : s.standby = t.standby) (h_ioReads : s.ioReads = t.ioReads) (h_ioWrites : s.ioWrites = t.ioWrites)
    (h_hwError : s.hwError = t.hwError) (h_cfg : s.cfg = t.cfg) (h_cycles : s.cycles = t.cycles)
    (h_raised : s.raised = t.raised) (h_draws : s.draws = t.draws) :
    s = t := by
  cases s; cases t; simp only at *; subst_vars; rfl

/-- A column changes no field but `f`. -/
theorem State.putColumn_eq (s : State) (k : Column) : s.putColumn k = { s with f := (s.putColumn k).f } := by
  apply State.eq_of_fields <;> simp

/-- A register write changes no field but the four registers. -/
theorem State.writeReg_eq (s : State) (x : Reg) (v : BitVec x.bits) :
    s.writeReg x v = { s with
      a := (s.writeReg x v).a, b := (s.writeReg x v).b, c := (s.writeReg x v).c, d := (s.writeReg x v).d } := by
  unfold State.writeReg; cases x.full <;> rfl

theorem State.full_congr {s t : State} (ha : s.a = t.a) (hb : s.b = t.b) (hc : s.c = t.c) (hd : s.d = t.d) (q : Full) :
    s.full q = t.full q := by cases q <;> assumption

theorem State.readReg_congr {s t : State} (h : ∀ q, s.full q = t.full q) (x : Reg) : s.readReg x = t.readReg x := by
  simp [State.readReg, h]

/-- Registers that are those of a register write are as `regsAfter` says. -/
theorem State.regsAfter_of_full {s t : State} {x : Reg} {v : BitVec x.bits}
    (h : ∀ q, t.full q = (s.writeReg x v).full q) : s.regsAfter t x v := by
  intro r i hi
  rw [h, State.writeReg_full]
  by_cases hr : r = x.full
  · subst hr
    rw [if_pos rfl, putField_getLsbD _ _ _ _ hi]
    simp
  · simp [hr]

/-- A column's entry does what an effect says. -/
def FlagEffect.fits : FlagEffect → Option Bool → Prop
  | .kept, o => o = none
  | .is b, o => o = some b
  | .free, _ => True

/-- What a column does to `F`, in the statements' terms. -/
theorem State.flagsAfter_putColumn {s : State} (t : State) (k : Column) {z n h c sg p : FlagEffect} (ht : t.f = s.f)
    (hz : z.fits k.z) (hn : n.fits k.n) (hh : h.fits k.h) (hc : c.fits k.c) (hs : sg.fits k.s) (hp : p.fits k.p) :
    s.flagsAfter (t.putColumn k) z n h c sg p := by
  have e : ∀ g, t.flag g = s.flag g := fun g => by simp [State.flag, ht]
  have key : ∀ g fe, FlagEffect.fits fe (k.entry g) → s.flagAfter (t.putColumn k) g fe := by
    intro g fe hfe
    cases fe with
    | kept => simp only [FlagEffect.fits] at hfe; simp [State.flagAfter, hfe, e]
    | is b => simp only [FlagEffect.fits] at hfe; simp [State.flagAfter, hfe]
    | free => trivial
  refine ⟨key _ _ hz, key _ _ hn, key _ _ hh, key _ _ hc, key _ _ hs, key _ _ hp, ?_⟩
  intro i hi
  rw [State.putColumn_bit _ _ _ hi, ht]

/-- The flags depend on `F` alone. -/
theorem State.flagsAfter_congr {s t u : State} (h : t.f = u.f) {z n hh c sg p : FlagEffect} :
    s.flagsAfter t z n hh c sg p ↔ s.flagsAfter u z n hh c sg p := by
  have e : ∀ g, t.flag g = u.flag g := fun g => by simp [State.flag, h]
  have e2 : ∀ g fe, s.flagAfter t g fe ↔ s.flagAfter u g fe := fun g fe => by cases fe <;> simp [State.flagAfter, e]
  simp only [State.flagsAfter, e2, h]

/-- The state an arithmetic core leaves: a register, a column, a draw. -/
theorem State.alu_post (s : State) (x : Reg) (r : BitVec x.bits) (k : Column) (w : Nat) {z n h c sg p : FlagEffect}
    (hz : z.fits k.z) (hn : n.fits k.n) (hh : h.fits k.h) (hc : c.fits k.c) (hs : sg.fits k.s) (hp : p.fits k.p) :
    let t := ((s.writeReg x r).putColumn k).drawH w
    s.regsAfter t x r ∧ s.flagsAfter t z n h c sg p ∧ s.bytesKept t ∧
      t = { s with a := t.a, b := t.b, c := t.c, d := t.d, f := t.f, draws := t.draws } := by
  intro t
  refine ⟨State.regsAfter_of_full fun q => ?_, ?_, ?_, ?_⟩
  · exact State.full_congr (by simp [t]) (by simp [t]) (by simp [t]) (by simp [t]) q
  · refine (State.flagsAfter_congr (u := (s.writeReg x r).putColumn k) (by simp [t])).2 ?_
    exact State.flagsAfter_putColumn _ k (by simp) hz hn hh hc hs hp
  · intro adr
    simp [State.byte, t]
  · simp only [t, State.drawH]
    split <;> rw [State.putColumn_eq, State.writeReg_eq]

/-- The same where nothing is drawn. -/
theorem State.logic_post (s : State) (x : Reg) (r : BitVec x.bits) (k : Column) {z n h c sg p : FlagEffect}
    (hz : z.fits k.z) (hn : n.fits k.n) (hh : h.fits k.h) (hc : c.fits k.c) (hs : sg.fits k.s) (hp : p.fits k.p) :
    let t := (s.writeReg x r).putColumn k
    s.regsAfter t x r ∧ s.flagsAfter t z n h c sg p ∧ s.bytesKept t ∧
      t = { s with a := t.a, b := t.b, c := t.c, d := t.d, f := t.f } := by
  intro t
  have h0 := s.alu_post x r k 0 hz hn hh hc hs hp
  refine ⟨h0.1, h0.2.1, h0.2.2.1, ?_⟩
  simp only [t]
  rw [State.putColumn_eq, State.writeReg_eq]

/-- The state a read-modify-write of an allowed byte leaves. -/
theorem modifyByte_post {x : Reg} {g : Byte → Byte} {col : Byte → Column} {s : State} (hx : x.bits = 32)
    (hr : s.allows .read (s.address x) = true) (hw : s.allows .write (s.address x) = true) {z n h c sg p : FlagEffect}
    (hcol : let k := col (s.modified (s.address x))
      z.fits k.z ∧ n.fits k.n ∧ h.fits k.h ∧ c.fits k.c ∧ sg.fits k.s ∧ p.fits k.p) :
    ∃ t u, modifyByte x g col s = .next t ∧
      s.modifies (s.address x) (s.modified (s.address x)) (g (s.modified (s.address x))) u ∧
      u.flagsAfter t z n h c sg p ∧ t = { u with f := t.f } := by
  obtain ⟨h1, h2, h3, h4, h5, h6⟩ := hcol
  exact ⟨_, _, modifyByte_allowed hx hr hw, s.modifies_data _ _,
    State.flagsAfter_putColumn _ _ rfl h1 h2 h3 h4 h5 h6, State.putColumn_eq _ _⟩

/-! ## Flags and results in plain arithmetic -/

theorem zeroOf_eq {w : Nat} (r : BitVec w) : zeroOf r = decide (r = 0) := Bool.eq_iff_iff.2 (by simp [zeroOf])

theorem parityOf_eq {w : Nat} (r : BitVec w) : parityOf r = evenParity r :=
  Bool.eq_iff_iff.2 (by simp [parityOf, evenParity])

theorem signOf_eq {w : Nat} (r : BitVec w) : signOf r = decide (r.toInt < 0) := by
  rw [signOf, ← BitVec.msb_eq_getLsbD_last, BitVec.msb_eq_toInt]

theorem carryAdd_eq {w : Nat} (x y : BitVec w) (c : Bool) :
    carryAdd x y c = decide (2 ^ w ≤ x.toNat + y.toNat + c.toNat) := by
  simp only [carryAdd, decide_eq_decide]
  have := Nat.two_pow_pos w
  omega

theorem halfAdd_fits {w : Nat} (x y : BitVec w) (c u b : Bool)
    (hb : b = decide (2 ^ (w - 4) ≤ x.toNat % 2 ^ (w - 4) + y.toNat % 2 ^ (w - 4) + c.toNat)) :
    (halfEffect w b).fits (some (halfAdd x y c u)) := by
  by_cases h : w = 32
  · subst h; simp [halfEffect, FlagEffect.fits]
  · simp only [halfEffect, halfAdd, h, if_false, hmask, Nat.and_two_pow_sub_one_eq_mod, FlagEffect.fits, Option.some.injEq,
      hb, decide_eq_decide]
    have := Nat.two_pow_pos (w - 4)
    omega

theorem halfSub_fits {w : Nat} (x y : BitVec w) (c u b : Bool)
    (hb : b = decide (x.toNat % 2 ^ (w - 4) < y.toNat % 2 ^ (w - 4) + c.toNat)) :
    (halfEffect w b).fits (some (halfSub x y c u)) := by
  by_cases h : w = 32
  · subst h; simp [halfEffect, FlagEffect.fits]
  · simp only [halfEffect, halfSub, h, if_false, hmask, Nat.and_two_pow_sub_one_eq_mod, FlagEffect.fits, hb]

theorem subValue_eq {w : Nat} (v y : BitVec w) (c : Bool) :
    subValue v y c = BitVec.ofInt w ((v.toNat : Int) - y.toNat - c.toNat) := by
  rcases Nat.eq_zero_or_pos w with rfl | hw
  · exact Subsingleton.elim _ _
  apply BitVec.eq_of_toInt_eq
  have hc : (c.toNat : Int) % 2 ^ w = c.toNat := by
    have h1 : 2 ≤ 2 ^ w := by calc 2 = 2 ^ 1 := rfl
                               _ ≤ 2 ^ w := Nat.pow_le_pow_right (by omega) hw
    have h2 : c.toNat % 2 ^ w = c.toNat := Nat.mod_eq_of_lt (by cases c <;> simp; omega)
    exact_mod_cast h2
  simp only [subValue, BitVec.toInt_sub, BitVec.toInt_ofInt]
  simp [BitVec.toInt_eq_toNat_bmod, hc]

/-! ## Shifts and bit changes, bit by bit -/

theorem shiftLeftIn_moves {w : Nat} (v : BitVec w) (b : Bool) : shiftedIn true b v (shiftLeftIn v b) := by
  intro i hi
  simp only [shiftLeftIn, BitVec.getLsbD_or, BitVec.getLsbD_shiftLeft, hi, decide_true, Bool.true_and, if_true]
  cases i with
  | zero => cases b <;> simp [hi]
  | succ n => cases b <;> simp

theorem shiftRightIn_moves {w : Nat} (v : BitVec w) (b : Bool) : shiftedIn false b v (shiftRightIn v b) := by
  intro i hi
  simp only [shiftRightIn, Bool.false_eq_true, if_false, BitVec.getLsbD_or, BitVec.getLsbD_ushiftRight,
    BitVec.getLsbD_shiftLeft, hi, decide_true, Bool.true_and]
  by_cases h : i = w - 1
  · subst h
    rw [BitVec.getLsbD_of_ge v _ (by omega)]
    cases b <;> simp
    omega
  · simp [h, show i < w - 1 by omega, Nat.add_comm]

theorem bitValue_replaces {w : Nat} (k : BitOp) (v : BitVec w) (n : Nat) :
    bitReplaced n (match k with | .tog => !v.getLsbD n | .set => true | .res => false) v (bitValue k v n) := by
  intro i hi
  cases k <;> simp only [bitValue, BitVec.getLsbD_xor, BitVec.getLsbD_or, BitVec.getLsbD_and, BitVec.getLsbD_not,
    oneShift_getLsbD, hi, and_true] <;> by_cases h : i = n <;> simp [h]

end Sys2Proof.Machine
end

