-- ==== Sys2Proof/Laws/Encoding.lean ====
section
/-! SUPPORT. The fields of an opcode that was put together from fields (R110), the codes of registers and conditions read back
(R23, R115), and bytes to values and back (R111, R113). -/

namespace Sys2Proof

theorem opcodeXY_bit (o : Byte) (x y : BitVec 4) (i : Nat) :
    (opcodeXY o x y).getLsbD i = if i < 4 then y.getLsbD i else if i < 8 then x.getLsbD (i - 4) else o.getLsbD (i - 8) := by
  have h : (opcodeXY o x y).getLsbD i = BitVec.getLsbD (w := 8 + 4 + 4) ((o ++ x) ++ y) i := rfl
  rw [h, BitVec.getLsbD_append, BitVec.getLsbD_append]
  by_cases h4 : i < 4
  · simp [h4]
  · by_cases h8 : i < 8
    · simp [h4, h8, show i - 4 < 4 by omega]
    · simp [h4, h8, show ¬ i - 4 < 4 by omega, show i - 4 - 4 = i - 8 by omega]

theorem opcodeXX_bit (o xx : Byte) (i : Nat) :
    (opcodeXX o xx).getLsbD i = if i < 8 then xx.getLsbD i else o.getLsbD (i - 8) := by
  have h : (opcodeXX o xx).getLsbD i = BitVec.getLsbD (w := 8 + 8) (o ++ xx) i := rfl
  rw [h, BitVec.getLsbD_append]

@[simp] theorem typeByte_opcodeXY (o : Byte) (x y : BitVec 4) : typeByte (opcodeXY o x y) = o := by
  apply BitVec.eq_of_getLsbD_eq
  intro i hi
  simp [typeByte, opcodeXY_bit, hi, show ¬ 8 + i < 4 by omega]

@[simp] theorem xField_opcodeXY (o : Byte) (x y : BitVec 4) : xField (opcodeXY o x y) = x := by
  apply BitVec.eq_of_getLsbD_eq
  intro i hi
  simp [xField, opcodeXY_bit, hi, show 4 + i < 8 by omega]

@[simp] theorem yField_opcodeXY (o : Byte) (x y : BitVec 4) : yField (opcodeXY o x y) = y := by
  apply BitVec.eq_of_getLsbD_eq
  intro i hi
  simp [yField, opcodeXY_bit, hi]

@[simp] theorem xxField_opcodeXY_zero (o : Byte) : xxField (opcodeXY o 0#4 0#4) = 0#8 := by
  apply BitVec.eq_of_getLsbD_eq
  intro i hi
  simp [xxField, opcodeXY_bit, hi]

@[simp] theorem typeByte_opcodeXX (o xx : Byte) : typeByte (opcodeXX o xx) = o := by
  apply BitVec.eq_of_getLsbD_eq
  intro i hi
  simp [typeByte, opcodeXX_bit, hi]

@[simp] theorem xxField_opcodeXX (o xx : Byte) : xxField (opcodeXX o xx) = xx := by
  apply BitVec.eq_of_getLsbD_eq
  intro i hi
  simp [xxField, opcodeXX_bit, hi]

@[simp] theorem ofCode_code_reg (r : Reg) : Reg.ofCode r.code = r := by
  obtain ⟨f, v⟩ := r; cases f <;> cases v <;> decide

@[simp] theorem code_ofCode_reg (n : BitVec 4) : (Reg.ofCode n).code = n := by
  revert n; decide

@[simp] theorem ofCode_code_cond (z : Cond) : Cond.ofCode z.code = z := by cases z <;> decide

@[simp] theorem code_ofCode_cond (n : BitVec 4) : (Cond.ofCode n).code = n := by
  revert n; decide

/-- Any opcode is put together from its fields. -/
theorem opcodeXY_fields (op : Half) : opcodeXY (typeByte op) (xField op) (yField op) = op := by
  apply BitVec.eq_of_getLsbD_eq
  intro i hi
  rw [opcodeXY_bit]
  simp only [typeByte, xField, yField, BitVec.getLsbD_extractLsb']
  by_cases h4 : i < 4
  · simp [h4]
  · by_cases h8 : i < 8
    · simp [h4, h8, show i - 4 < 4 by omega, show 4 + (i - 4) = i by omega]
    · simp [h4, h8, show i - 8 < 8 by omega, show 8 + (i - 8) = i by omega]

theorem opcodeXX_fields (op : Half) : opcodeXX (typeByte op) (xxField op) = op := by
  apply BitVec.eq_of_getLsbD_eq
  intro i hi
  rw [opcodeXX_bit]
  simp only [typeByte, xxField, BitVec.getLsbD_extractLsb']
  by_cases h8 : i < 8
  · simp [h8]
  · simp [h8, show i - 8 < 8 by omega, show 8 + (i - 8) = i by omega]

/-! ## Bytes and values -/

@[simp] theorem leBytes_length (n : Nat) (v : Word) : (leBytes n v).length = n := by
  induction n generalizing v with
  | zero => rfl
  | succ n ih => simp [leBytes, ih]

/-- The bytes of a value that fits them give it back. -/
theorem leValue_leBytes (n : Nat) (v : Word) (h : v.toNat < 2 ^ (8 * n)) : leValue (leBytes n v) = v := by
  induction n generalizing v with
  | zero =>
    have : v.toNat = 0 := by simpa using h
    rw [BitVec.eq_of_toNat_eq (x := v) (y := 0) this]
    rfl
  | succ n ih =>
    simp only [leBytes, leValue]
    rw [ih]
    · apply BitVec.eq_of_getLsbD_eq
      intro i hi
      by_cases h8 : i < 8
      · simp [h8, hi]
      · simp [h8, hi, show 8 + (i - 8) = i by omega]
    · rw [BitVec.toNat_ushiftRight, Nat.shiftRight_eq_div_pow]
      have : 2 ^ (8 * (n + 1)) = 2 ^ (8 * n) * 2 ^ 8 := by rw [← Nat.pow_add]; congr 1
      exact Nat.div_lt_of_lt_mul (by rw [Nat.mul_comm]; omega)

theorem leValue_cons_low (b : Byte) (bs : List Byte) : (leValue (b :: bs)).setWidth 8 = b := by
  ext i hi
  simp [leValue]

theorem leValue_bit_high (bs : List Byte) (i : Nat) (h : 8 * bs.length ≤ i) : (leValue bs).getLsbD i = false := by
  induction bs generalizing i with
  | nil => simp [leValue]
  | cons b bs ih =>
    simp only [List.length_cons] at h
    simp only [leValue, BitVec.getLsbD_or, BitVec.getLsbD_setWidth, BitVec.getLsbD_shiftLeft]
    rw [ih (i - 8) (by omega), BitVec.getLsbD_of_ge b i (by omega)]
    simp

theorem leValue_cons_high (b : Byte) (bs : List Byte) (h : bs.length ≤ 3) : leValue (b :: bs) >>> 8 = leValue bs := by
  apply BitVec.eq_of_getLsbD_eq
  intro i hi
  simp only [leValue, BitVec.getLsbD_ushiftRight, BitVec.getLsbD_or, BitVec.getLsbD_setWidth, BitVec.getLsbD_shiftLeft]
  by_cases h24 : i < 24
  · simp [show 8 + i < 32 by omega]
  · rw [leValue_bit_high bs i (by omega)]
    simp [show ¬ 8 + i < 32 by omega]

/-- Bytes come back from their value. -/
theorem leBytes_leValue (bs : List Byte) (h : bs.length ≤ 4) : leBytes bs.length (leValue bs) = bs := by
  induction bs with
  | nil => rfl
  | cons b bs ih =>
    simp only [List.length_cons] at h
    rw [List.length_cons, leBytes, leValue_cons_low, leValue_cons_high b bs (by omega), ih (by omega)]

/-- The value of some bytes fits them. -/
theorem leValue_lt (bs : List Byte) : (leValue bs).toNat < 2 ^ (8 * bs.length) := by
  by_cases h : 32 ≤ 8 * bs.length
  · exact lt_of_lt_of_le (leValue bs).isLt (Nat.pow_le_pow_right (by omega) h)
  · apply Nat.lt_pow_two_of_testBit
    intro i hi
    exact leValue_bit_high bs i hi

end Sys2Proof
end

