-- ==== Sys2Proof/Laws/Exec.lean ====
section
/-! SUPPORT. What an instruction can do to the machine's control state, its stack and its memory, said once for all 88 of them
(`exec_ends`): later proofs take this apart and unfold no meaning. -/

namespace Sys2Proof.Machine

/-! ## What an instruction can do -/

/-- The stack pointer and the `m` bytes stored at `base`: a data write that was allowed (or nothing, `m = 0`), a push with room,
or a pop with something to pop. -/
def StackStep (s u : State) (base : Addr) (m : Nat) : Prop :=
  (u.sp = s.sp ∧ s.allowsAll .write m base = true) ∨
  (0xFFFE0000 < s.sp ∧ u.sp = s.sp - 4 ∧ base = s.sp - 4 ∧ m = 4) ∨
  (s.sp < 0xFFFEFFFC ∧ u.sp = s.sp + 4 ∧ m = 0)

/-- `u` is `s` after `n` cycles on the bus, in which `pc`, `sp`, the latches and `IME` may have been written. -/
structure Moved (n : Nat) (s u : State) : Prop where
  bus : OnBus n { s with pc := u.pc, sp := u.sp, sa := u.sa, da := u.da, sd := u.sd, ime := u.ime } u
  wf : s.mem.wf = true → u.mem.wf = true
  store : ∃ base m v, s.stored u n base m v ∧ StackStep s u base m

/-- The bits of `F` outside the six condition flags: each stays unless `i` is one of the four that write it. -/
def FlagWrites (i : Instr) (s t : State) : Prop :=
  ∀ k, k < 2 ∨ 8 ≤ k →
    t.f.getLsbD k = s.f.getLsbD k ∨ (k = 0 ∧ i = .stop) ∨ (k = 1 ∧ i = .halt) ∨
      ∃ j : BitVec 4, k = 16 + j.toNat ∧ (i = .stf j ∨ i = .clf j)

/-- What an instruction that raises nothing leaves: its bus cycles, then its writes of registers, `F`, `EC` and `EI`. -/
def Completed (i : Instr) (s t : State) : Prop :=
  ∃ n u, Moved n s u ∧
    t = { u with a := t.a, b := t.b, c := t.c, d := t.d, f := t.f, ec := t.ec, ei := t.ei, draws := t.draws } ∧
    FlagWrites i u t ∧ (u.ime = true → s.ime = true ∨ i = .reti) ∧ (t.ei = s.ei ∨ i = .ei) ∧
    (t.ec = s.ec ∨ i = .cec ∨ ∃ xx, i = .sec xx)

/-- An exception was entered after some bus cycles that wrote nothing but latches. -/
def Abandoned (s t : State) : Prop :=
  ∃ e n u, t = State.takeException u e ∧ OnBus n { s with sa := u.sa, da := u.da, sd := u.sd } u ∧ s.bytesSpared u n ∧
    (s.mem.wf = true → u.mem.wf = true)

/-- A result is a next state, abandoned or with `P`. -/
def Ends (P : State → Prop) (s : State) (r : Result) : Prop := ∃ t, r = .next t ∧ (Abandoned s t ∨ P t)

/-- `t` is `s` but for bus cycles, general registers, condition flags and draws. -/
def Plain (s t : State) : Prop :=
  ∃ n u, Moved n s u ∧ u.ime = s.ime ∧
    t = { u with a := t.a, b := t.b, c := t.c, d := t.d, f := t.f, draws := t.draws } ∧
    ∀ k, k < 2 ∨ 8 ≤ k → t.f.getLsbD k = u.f.getLsbD k

/-! ## Bus cycles -/

theorem OnBus.moved {n : Nat} {s u : State} {pc sp sa da sd : Word} {ime : Bool}
    (h : OnBus n { s with pc := pc, sp := sp, sa := sa, da := da, sd := sd, ime := ime } u) :
    OnBus n { s with pc := u.pc, sp := u.sp, sa := u.sa, da := u.da, sd := u.sd, ime := u.ime } u := by
  have h1 := h.pc
  have h2 := h.sp
  have h3 := h.sa
  have h4 := h.da
  have h5 := h.sd
  have h6 := h.ime
  simp only at h1 h2 h3 h4 h5 h6
  rw [h1, h2, h3, h4, h5, h6]
  exact h

theorem Moved.refl (s : State) : Moved 0 s s :=
  ⟨OnBus.refl s, id, 0, 0, 0, fun _ _ => ⟨fun _ => rfl, fun _ hk => by omega⟩, .inl ⟨rfl, rfl⟩⟩

theorem Moved.dataRead (s : State) (adr : Addr) (n : Nat) : Moved n s (s.dataRead adr n).2 :=
  ⟨(s.dataRead_onBus adr n).moved, s.dataRead_wf adr n, 0, 0, 0, (s.dataRead_spared adr n).stored 0 0, .inl ⟨by simp, rfl⟩⟩

theorem Moved.dataWrite {s : State} {adr : Addr} {n : Nat} (v : Word) (hn : n ≤ 2 ^ 32)
    (h : s.allowsAll .write n adr = true) : Moved n s (s.dataWrite adr n v) :=
  ⟨(s.dataWrite_onBus adr n v).moved, s.dataWrite_wf adr n v, adr, n, v, s.dataWrite_stored adr n v hn, .inl ⟨by simp, h⟩⟩

theorem Moved.modifies {s u : State} {adr : Addr} {b r : Byte} (h : s.modifies adr b r u)
    (hw : s.allows .write adr = true) : Moved 2 s u := by
  have hf := h
  obtain ⟨-, -, -, -, hb, hs⟩ := h
  exact ⟨hb.moved, State.modifies_wf hf, adr, 1, _, hs, .inl ⟨hb.sp, by simpa using hw⟩⟩

theorem Moved.push {s : State} (v : Word) (h : s.stackFull = false) : Moved 5 s (s.pushWord v) :=
  ⟨(s.pushWord_onBus v).moved, s.pushWord_wf v, s.sp - 4, 4, v, s.pushWord_stored v,
    .inr (.inl ⟨(State.stackFull_false_iff s).1 h, by simp, rfl, rfl⟩)⟩

theorem Moved.pop {s : State} (h : s.stackEmpty = false) : Moved 5 s s.popWord.2 :=
  ⟨s.popWord_onBus.moved, s.popWord_wf, 0, 0, 0, s.popWord_spared.stored 0 0,
    .inr (.inr ⟨(State.stackEmpty_false_iff s).1 h, by simp, rfl⟩)⟩

/-- `IME` may be written on the way. -/
theorem Moved.setIme {n : Nat} {s u : State} (h : Moved n s u) (b : Bool) : Moved n s { u with ime := b } :=
  ⟨h.bus.setIme b, h.wf, h.store⟩

theorem Moved.imeBefore {n : Nat} {s u : State} {b : Bool} (h : Moved n { s with ime := b } u) : Moved n s u := by
  obtain ⟨hb, hw, base, m, v, hs, hk⟩ := h
  refine ⟨hb, hw, base, m, v, hs, ?_⟩
  rcases hk with ⟨h1, h2⟩ | hk
  · exact .inl ⟨h1, (State.allowsAll_congr (t := s) (s := { s with ime := b }) rfl _ _ _).trans h2⟩
  · exact .inr hk

/-- A jump adds a cycle. -/
theorem Moved.jump {n : Nat} {s u : State} (h : Moved n s u) (target : Addr) : Moved (n + 1) s (u.jump target) := by
  obtain ⟨hb, hw, base, m, v, hs, hk⟩ := h
  refine ⟨?_, fun h => State.jump_wf target (hw h), base, m, v, ?_, ?_⟩
  · exact ((hb.setPc target).trans (u.jump_onBus target)).moved
  · exact State.stored.before
      (s := { s with pc := u.pc, sp := u.sp, sa := u.sa, da := u.da, sd := u.sd, ime := u.ime }) hs hb (u.jump_spared target)
  · simpa [StackStep] using hk

/-! ## Plain changes -/

theorem Moved.plain {n : Nat} {s u : State} (h : Moved n s u) (hi : u.ime = s.ime) : Plain s u :=
  ⟨n, u, h, hi, rfl, fun _ _ => rfl⟩

theorem Plain.refl (s : State) : Plain s s := (Moved.refl s).plain rfl

theorem Plain.dataRead (s : State) (adr : Addr) (n : Nat) : Plain s (s.dataRead adr n).2 :=
  (Moved.dataRead s adr n).plain (by simp)

theorem Plain.reg {s t : State} (h : Plain s t) (x : Reg) (v : BitVec x.bits) : Plain s (t.writeReg x v) := by
  obtain ⟨n, u, hm, hi, ht, hf⟩ := h
  refine ⟨n, u, hm, hi, ?_, fun k hk => by simpa using hf k hk⟩
  rw [State.writeReg_eq, ht]

theorem Plain.column {s t : State} (h : Plain s t) (k : Column) : Plain s (t.putColumn k) := by
  obtain ⟨n, u, hm, hi, ht, hf⟩ := h
  refine ⟨n, u, hm, hi, ?_, fun j hj => by rw [State.putColumn_bit _ _ _ hj]; exact hf j hj⟩
  rw [State.putColumn_eq, ht]

theorem Plain.draw {s t : State} (h : Plain s t) (w : Nat) : Plain s (t.drawH w) := by
  obtain ⟨n, u, hm, hi, ht, hf⟩ := h
  refine ⟨n, u, hm, hi, ?_, fun k hk => by simpa using hf k hk⟩
  unfold State.drawH
  split
  · rw [ht]
  · exact ht

theorem Plain.completed {i : Instr} {s t : State} (h : Plain s t) : Completed i s t := by
  obtain ⟨n, u, hm, hi, ht, hf⟩ := h
  have e3 : t.ei = u.ei := by rw [ht]
  have e4 : t.ec = u.ec := by rw [ht]
  refine ⟨n, u, hm, ?_, fun k hk => .inl (hf k hk), fun h => .inl (hi ▸ h), .inl (e3.trans hm.bus.ei), .inl (e4.trans hm.bus.ec)⟩
  rw [e3, e4]
  exact ht

theorem Plain.ends {i : Instr} {s t : State} (h : Plain s t) : Ends (Completed i s) s (.next t) := ⟨t, rfl, .inr h.completed⟩

theorem Moved.ends {i : Instr} {n : Nat} {s t : State} (h : Moved n s t) (hi : t.ime = s.ime) :
    Ends (Completed i s) s (.next t) := (h.plain hi).ends

/-! ## The shared operations -/

theorem Ends.raised {P : State → Prop} (s : State) (e : Exc) : Ends P s (.next (s.takeException e)) :=
  ⟨_, rfl, .inl ⟨e, 0, s, rfl, OnBus.refl s, fun _ _ => rfl, id⟩⟩

theorem Ends.raisedAt {P : State → Prop} (s : State) (e : Exc) (sa da : Addr) :
    Ends P s (.next ({ s with sa := sa, da := da }.takeException e)) :=
  ⟨_, rfl, .inl ⟨e, 0, _, rfl, OnBus.refl _, fun _ _ => rfl, id⟩⟩

theorem Ends.arg {P : State → Prop} {s : State} {b : Bool} {r : Result} (h : Ends P s r) : Ends P s (requireArg b s r) := by
  cases b
  · exact Ends.raised ..
  · exact h

theorem Ends.abs {P : State → Prop} {s : State} {x : Reg} {adr : Addr} {k : BitVec x.bits → State → Result}
    (h : ∀ v, Ends P s (k v (s.dataRead adr x.bytes).2)) : Ends P s (withAbs x adr s k) := by
  cases hb : s.allowsAll .read x.bytes adr
  · rw [withAbs_refused _ hb]; exact Ends.raisedAt s _ adr s.da
  · rw [withAbs_allowed _ hb]; exact h _

theorem Ends.ind {P : State → Prop} {s : State} {x y : Reg} {k : BitVec x.bits → State → Result}
    (h : ∀ v, Ends P s (k v (s.dataRead (s.address y) x.bytes).2)) : Ends P s (withInd x y s k) := Ends.arg (Ends.abs h)

theorem Ends.load {i : Instr} {s : State} {x : Reg} {adr : Addr} : Ends (Completed i s) s (loadFrom x adr s) := by
  cases hb : s.allowsAll .read x.bytes adr
  · rw [loadFrom_refused hb]; exact Ends.raisedAt s _ adr s.da
  · rw [loadFrom_allowed hb]; exact ((Plain.dataRead ..).reg _ _).ends

theorem bytes_le_four (x : Reg) : x.bytes ≤ 4 := by
  obtain ⟨f, v⟩ := x
  cases f <;> cases v <;> decide

theorem Ends.store {i : Instr} {s : State} {y : Reg} {adr : Addr} : Ends (Completed i s) s (storeTo adr y s) := by
  cases hb : s.allowsAll .write y.bytes adr
  · rw [storeTo_refused hb]; exact Ends.raisedAt s _ s.sa adr
  · rw [storeTo_allowed hb]
    exact (Moved.dataWrite _ (le_trans (bytes_le_four y) (by omega)) hb).ends (by simp)

theorem Ends.modify {i : Instr} {s : State} {x : Reg} {g : Byte → Byte} {col : Byte → Column} :
    Ends (Completed i s) s (modifyByte x g col s) := by
  by_cases hx : x.bits = 32
  swap
  · rw [modifyByte_narrow hx]; exact Ends.raised ..
  cases hr : s.allows .read (s.address x)
  · rw [modifyByte_unreadable hx hr]; exact Ends.raisedAt ..
  cases hw : s.allows .write (s.address x)
  · rw [modifyByte_unwritable hx hr hw]
    have hb := s.modifying_onBus (s.address x)
    refine ⟨_, rfl, .inl ⟨_, 1, _, rfl, ?_, State.dataRead_spared { s with da := s.address x } _ 1,
      State.dataRead_wf (s := { s with da := s.address x }) _ 1⟩⟩
    have h1 := hb.sa
    have h2 := hb.da
    have h3 := hb.sd
    simp only at h1 h2 h3
    rw [h1, h2, h3]
    exact hb
  · rw [modifyByte_allowed hx hr hw]
    have hm := Moved.modifies (s.modifies_data (s.address x) (g (s.modified (s.address x)))) hw
    exact ((hm.plain (by rw [hm.bus.rest]; simp [State.modifying])).column _).ends

theorem Ends.branch {P : State → Prop} {s : State} {r : Result} {b : Bool} (h1 : Ends P s r) (h2 : P s) :
    Ends P s (if b then r else .next s) := by
  cases b
  · exact ⟨_, rfl, .inr h2⟩
  · exact h1

theorem Ends.push {P : State → Prop} {s : State} {v : Word} {k : State → Result}
    (h : s.stackFull = false → Ends P s (k (s.pushWord v))) : Ends P s (withPush v s k) := by
  cases hf : s.stackFull
  · rw [withPush_room _ hf]; exact h hf
  · rw [withPush_full _ hf]; exact Ends.raised ..

theorem Ends.pop {P : State → Prop} {s : State} {k : Word → State → Result}
    (h : s.stackEmpty = false → Ends P s (k s.popWord.1 s.popWord.2)) : Ends P s (withPop s k) := by
  cases hf : s.stackEmpty
  · rw [withPop_some _ hf]; exact h hf
  · rw [withPop_empty _ hf]; exact Ends.raised ..

/-- A state in which one bit of `F` was written. -/
theorem Completed.bit {i : Instr} {s : State} (n : Nat) (hn : n < 32) (b : Bool)
    (h : ∀ k, k = n → (k = 0 ∧ i = .stop) ∨ (k = 1 ∧ i = .halt) ∨
      ∃ j : BitVec 4, k = 16 + j.toNat ∧ (i = .stf j ∨ i = .clf j)) :
    Completed i s { s with f := putBit s.f n b } := by
  refine ⟨0, s, Moved.refl s, rfl, fun k _ => ?_, .inl, .inl rfl, .inl rfl⟩
  by_cases hk : k = n
  · exact .inr (h k hk)
  · refine .inl ?_
    show (putBit s.f n b).getLsbD k = _
    rw [putBit_getLsbD _ _ _ _ hn, if_neg hk]

/-! ## All instructions -/

/-- What an instruction can do, said once: it raises an exception with no effect of its own, or it completes. -/
theorem exec_ends (i : Instr) (s : State) : Ends (Completed i s) s (exec i s) := by
  have r := Plain.refl s
  cases i with
  | nop => exact r.ends
  | stop => exact ⟨_, rfl, .inr (Completed.bit 0 (by omega) true fun _ h => .inl ⟨h, rfl⟩)⟩
  | halt => exact ⟨_, rfl, .inr (Completed.bit 1 (by omega) true fun _ h => .inr (.inl ⟨h, rfl⟩))⟩
  | sec xx => exact ⟨_, rfl, .inr ⟨0, s, Moved.refl s, rfl, fun _ _ => .inl rfl, .inl, .inl rfl, .inr (.inr ⟨xx, rfl⟩)⟩⟩
  | cec => exact ⟨_, rfl, .inr ⟨0, s, Moved.refl s, rfl, fun _ _ => .inl rfl, .inl, .inl rfl, .inr (.inl rfl)⟩⟩
  | di =>
    exact ⟨_, rfl, .inr ⟨0, _, (Moved.refl s).setIme false, rfl, fun _ _ => .inl rfl, fun h => (by cases h), .inl rfl, .inl rfl⟩⟩
  | ei => exact ⟨_, rfl, .inr ⟨0, s, Moved.refl s, rfl, fun _ _ => .inl rfl, .inl, .inr rfl, .inl rfl⟩⟩
  | daa => exact Plain.ends ((r.reg _ _).column _)
  | scf => exact Plain.ends (r.column _)
  | ccf => exact Plain.ends (r.column _)
  | flg => exact Plain.ends (r.column ⟨some _, none, none, none, none, none⟩)
  | stf n =>
    exact ⟨{ s with f := putBit s.f (16 + n.toNat) true }, rfl, .inr (Completed.bit (16 + n.toNat) (by omega) true
      fun _ h => .inr (.inr ⟨n, h, .inl rfl⟩))⟩
  | clf n =>
    exact ⟨{ s with f := putBit s.f (16 + n.toNat) false }, rfl, .inr (Completed.bit (16 + n.toNat) (by omega) false
      fun _ h => .inr (.inr ⟨n, h, .inr rfl⟩))⟩
  | ldImm => exact Plain.ends (r.reg _ _)
  | ldAbs => exact Ends.load
  | ldInd => exact Ends.arg Ends.load
  | ldhAbs => exact Ends.load
  | ldhInd => exact Ends.arg Ends.load
  | ldpAbs => exact Ends.arg Ends.load
  | ldpInd => exact Ends.arg Ends.load
  | stAbs => exact Ends.store
  | stInd => exact Ends.arg Ends.store
  | sthAbs => exact Ends.store
  | sthInd => exact Ends.arg Ends.store
  | stpAbs => exact Ends.arg Ends.store
  | stpInd => exact Ends.arg Ends.store
  | mv => exact Ends.arg (Plain.ends (r.reg _ _))
  | pop => exact Ends.arg (Ends.pop fun h => Plain.ends (((Moved.pop h).plain (by simp)).reg _ _))
  | push => exact Ends.arg (Ends.push fun h => (Moved.push _ h).ends (by simp))
  | jmpImm => exact Ends.arg (Ends.branch (((Moved.refl s).jump _).ends (by simp)) r.completed)
  | jmpReg => exact Ends.arg (Ends.branch (((Moved.refl s).jump _).ends (by simp)) r.completed)
  | jpb => exact Ends.arg (Ends.branch (((Moved.refl s).jump _).ends (by simp)) r.completed)
  | call =>
    exact Ends.arg (Ends.branch (Ends.push fun h => ((Moved.push _ h).jump _).ends (by simp)) r.completed)
  | intVec xx =>
    refine Ends.arg (Ends.push fun h => ⟨_, rfl, .inr
      ⟨6, (s.pushWord s.pc).enterByInt.jump (vectorAddress xx.toNat), ?_, rfl, fun _ _ => .inl rfl, fun hi => ?_, .inl ?_, .inl ?_⟩⟩)
    · rw [State.pushWord_enterByInt]
      exact ((Moved.push s.pc h).setIme _).jump _
    · rw [State.pushWord_enterByInt] at hi
      simp only [State.jump_ime, Bool.and_eq_true] at hi
      exact .inl hi.1
    · simp [State.enterByInt]
    · simp [State.enterByInt]
  | ret =>
    exact Ends.arg (Ends.branch (Ends.pop fun h => ((Moved.pop h).jump _).ends (by simp)) r.completed)
  | reti =>
    rw [show exec .reti s = execReti s from rfl, execReti]
    cases hf : s.stackEmpty
    · have hf' : ({ s with ime := true } : State).stackEmpty = false := hf
      simp only [Bool.false_eq_true, if_false, returnFrom, withPop_some _ hf']
      have hm := (Moved.pop hf').jump ({ s with ime := true } : State).popWord.1
      exact ⟨_, rfl, .inr ⟨6, _, hm.imeBefore, rfl, fun _ _ => .inl rfl, fun _ => .inr rfl, .inl (by simp),
        .inl (by simp)⟩⟩
    · exact Ends.raised ..
  | incReg => exact Plain.ends (((r.reg _ _).column _).draw _)
  | incMem =>
    rw [show exec (.incMem _) s = execIncMem _ s from rfl, execIncMem]
    exact Ends.modify
  | decReg => exact Plain.ends (((r.reg _ _).column _).draw _)
  | decMem =>
    rw [show exec (.decMem _) s = execDecMem _ s from rfl, execDecMem]
    exact Ends.modify
  | addImm => exact Plain.ends (((r.reg _ _).column _).draw _)
  | addAbs =>
    rw [show exec (.addAbs _ _) s = execAddAbs _ _ s from rfl, execAddAbs]
    exact Ends.abs fun _ => Plain.ends ((((Plain.dataRead ..).reg _ _).column _).draw _)
  | addInd =>
    rw [show exec (.addInd _ _) s = execAddInd _ _ s from rfl, execAddInd]
    exact Ends.ind fun _ => Plain.ends ((((Plain.dataRead ..).reg _ _).column _).draw _)
  | adcImm => exact Plain.ends (((r.reg _ _).column _).draw _)
  | adcAbs =>
    rw [show exec (.adcAbs _ _) s = execAdcAbs _ _ s from rfl, execAdcAbs]
    exact Ends.abs fun _ => Plain.ends ((((Plain.dataRead ..).reg _ _).column _).draw _)
  | adcInd =>
    rw [show exec (.adcInd _ _) s = execAdcInd _ _ s from rfl, execAdcInd]
    exact Ends.ind fun _ => Plain.ends ((((Plain.dataRead ..).reg _ _).column _).draw _)
  | subImm => exact Plain.ends (((r.reg _ _).column _).draw _)
  | subAbs =>
    rw [show exec (.subAbs _ _) s = execSubAbs _ _ s from rfl, execSubAbs]
    exact Ends.abs fun _ => Plain.ends ((((Plain.dataRead ..).reg _ _).column _).draw _)
  | subInd =>
    rw [show exec (.subInd _ _) s = execSubInd _ _ s from rfl, execSubInd]
    exact Ends.ind fun _ => Plain.ends ((((Plain.dataRead ..).reg _ _).column _).draw _)
  | sbcImm => exact Plain.ends (((r.reg _ _).column _).draw _)
  | sbcAbs =>
    rw [show exec (.sbcAbs _ _) s = execSbcAbs _ _ s from rfl, execSbcAbs]
    exact Ends.abs fun _ => Plain.ends ((((Plain.dataRead ..).reg _ _).column _).draw _)
  | sbcInd =>
    rw [show exec (.sbcInd _ _) s = execSbcInd _ _ s from rfl, execSbcInd]
    exact Ends.ind fun _ => Plain.ends ((((Plain.dataRead ..).reg _ _).column _).draw _)
  | andImm => exact Plain.ends ((r.reg _ _).column _)
  | andAbs =>
    rw [show exec (.andAbs _ _) s = execAndAbs _ _ s from rfl, execAndAbs]
    exact Ends.abs fun _ => Plain.ends (((Plain.dataRead ..).reg _ _).column _)
  | andInd =>
    rw [show exec (.andInd _ _) s = execAndInd _ _ s from rfl, execAndInd]
    exact Ends.ind fun _ => Plain.ends (((Plain.dataRead ..).reg _ _).column _)
  | orImm => exact Plain.ends ((r.reg _ _).column _)
  | orAbs =>
    rw [show exec (.orAbs _ _) s = execOrAbs _ _ s from rfl, execOrAbs]
    exact Ends.abs fun _ => Plain.ends (((Plain.dataRead ..).reg _ _).column _)
  | orInd =>
    rw [show exec (.orInd _ _) s = execOrInd _ _ s from rfl, execOrInd]
    exact Ends.ind fun _ => Plain.ends (((Plain.dataRead ..).reg _ _).column _)
  | xorImm => exact Plain.ends ((r.reg _ _).column _)
  | xorAbs =>
    rw [show exec (.xorAbs _ _) s = execXorAbs _ _ s from rfl, execXorAbs]
    exact Ends.abs fun _ => Plain.ends (((Plain.dataRead ..).reg _ _).column _)
  | xorInd =>
    rw [show exec (.xorInd _ _) s = execXorInd _ _ s from rfl, execXorInd]
    exact Ends.ind fun _ => Plain.ends (((Plain.dataRead ..).reg _ _).column _)
  | notReg => exact Plain.ends ((r.reg _ _).column _)
  | notMem =>
    rw [show exec (.notMem _) s = execNotMem _ s from rfl, execNotMem]
    exact Ends.modify
  | cmpImm => exact Plain.ends ((r.column _).draw _)
  | cmpAbs =>
    rw [show exec (.cmpAbs _ _) s = execCmpAbs _ _ s from rfl, execCmpAbs]
    exact Ends.abs fun _ => Plain.ends (((Plain.dataRead ..).column _).draw _)
  | cmpInd =>
    rw [show exec (.cmpInd _ _) s = execCmpInd _ _ s from rfl, execCmpInd]
    exact Ends.ind fun _ => Plain.ends (((Plain.dataRead ..).column _).draw _)
  | slaReg => exact Plain.ends ((r.reg _ _).column _)
  | slaMem =>
    rw [show exec (.slaMem _) s = execSlaMem _ s from rfl, execSlaMem, shiftMem]
    exact Ends.modify
  | sraReg => exact Plain.ends ((r.reg _ _).column _)
  | sraMem =>
    rw [show exec (.sraMem _) s = execSraMem _ s from rfl, execSraMem, shiftMem]
    exact Ends.modify
  | srlReg => exact Plain.ends ((r.reg _ _).column _)
  | srlMem =>
    rw [show exec (.srlMem _) s = execSrlMem _ s from rfl, execSrlMem, shiftMem]
    exact Ends.modify
  | rlReg => exact Plain.ends ((r.reg _ _).column _)
  | rlMem =>
    rw [show exec (.rlMem _) s = execRlMem _ s from rfl, execRlMem, shiftMem]
    exact Ends.modify
  | rlcReg => exact Plain.ends ((r.reg _ _).column _)
  | rlcMem =>
    rw [show exec (.rlcMem _) s = execRlcMem _ s from rfl, execRlcMem, shiftMem]
    exact Ends.modify
  | rrReg => exact Plain.ends ((r.reg _ _).column _)
  | rrMem =>
    rw [show exec (.rrMem _) s = execRrMem _ s from rfl, execRrMem, shiftMem]
    exact Ends.modify
  | rrcReg => exact Plain.ends ((r.reg _ _).column _)
  | rrcMem =>
    rw [show exec (.rrcMem _) s = execRrcMem _ s from rfl, execRrcMem, shiftMem]
    exact Ends.modify
  | bitReg => exact Ends.arg (Plain.ends (r.column _))
  | bitMem =>
    rw [show exec (.bitMem _ _) s = execBitMem _ _ s from rfl, execBitMem]
    refine Ends.arg ?_
    cases hb : s.allowsAll .read 1 (s.address ‹Reg›)
    · rw [withRead_refused _ hb]; exact Ends.raisedAt s _ _ s.da
    · rw [withRead_allowed _ hb]; exact Plain.ends ((Plain.dataRead ..).column _)
  | togReg => exact Ends.arg (Plain.ends (r.reg _ _))
  | togMem =>
    rw [show exec (.togMem _ _) s = execTogMem _ _ s from rfl, execTogMem, changeBitMem]
    exact Ends.arg Ends.modify
  | setReg => exact Ends.arg (Plain.ends (r.reg _ _))
  | setMem =>
    rw [show exec (.setMem _ _) s = execSetMem _ _ s from rfl, execSetMem, changeBitMem]
    exact Ends.arg Ends.modify
  | resReg => exact Ends.arg (Plain.ends (r.reg _ _))
  | resMem =>
    rw [show exec (.resMem _ _) s = execResMem _ _ s from rfl, execResMem, changeBitMem]
    exact Ends.arg Ends.modify

/-- The same, from the answer. -/
theorem exec_next {i : Instr} {s t : State} (h : exec i s = .next t) : Abandoned s t ∨ Completed i s t := by
  obtain ⟨t', h1, h2⟩ := exec_ends i s
  rw [h1] at h
  cases h
  exact h2

/-! ## The parts of a frame -/

/-- What every part of a frame, and so a frame, can do in `n` cycles. -/
structure Ran (n : Nat) (s t : State) : Prop where
  cfg : t.cfg = s.cfg
  cycles : t.cycles = s.cycles + n
  platform : t.platform = s.platform.drop n
  reads : ∃ j, j ≤ n ∧ t.ioReads = s.ioReads.drop j
  writes : ∃ j, j ≤ n ∧ t.ioWrites = s.ioWrites.drop j
  enable : (∀ v, .writeEnable v ∉ s.actsWithin n) → t.intEnable = s.intEnable
  set : ∀ k : BitVec 5, .raiseInterrupt k ∉ s.actsWithin n → t.intFlags.getLsbD k.toNat = true →
    s.intFlags.getLsbD k.toNat = true
  reserved : ∀ k, 8 ≤ k → k < 16 → t.f.getLsbD k = s.f.getLsbD k
  wf : s.mem.wf = true → t.mem.wf = true
  stack : s.stackOk = true → t.stackOk = true
  low : s.stackOk = true → ∀ adr : Addr, adr.toNat < 0x80000000 → s.spares n adr → t.byte adr = s.byte adr

theorem Ran.refl (s : State) : Ran 0 s s :=
  ⟨rfl, rfl, rfl, ⟨0, le_rfl, rfl⟩, ⟨0, le_rfl, rfl⟩, fun _ => rfl, fun _ _ h => h, fun _ _ _ => rfl, id, id, fun _ _ _ _ => rfl⟩

theorem Ran.acts {m n : Nat} {s t : State} (h : Ran m s t) {e : PlatformEvent} (he : e ∈ t.actsWithin n) :
    e ∈ s.actsWithin (m + n) := State.actsWithin_after h.platform h.reads h.writes he

theorem Ran.trans {m n : Nat} {s t u : State} (h : Ran m s t) (g : Ran n t u) : Ran (m + n) s u where
  cfg := g.cfg.trans h.cfg
  cycles := by rw [g.cycles, h.cycles, Nat.add_assoc]
  platform := by rw [g.platform, h.platform, List.drop_drop]
  reads := by
    obtain ⟨j, hj, h1⟩ := h.reads
    obtain ⟨k, hk, h2⟩ := g.reads
    exact ⟨j + k, by omega, by rw [h2, h1, List.drop_drop]⟩
  writes := by
    obtain ⟨j, hj, h1⟩ := h.writes
    obtain ⟨k, hk, h2⟩ := g.writes
    exact ⟨j + k, by omega, by rw [h2, h1, List.drop_drop]⟩
  enable hv := (g.enable fun v hm => hv v (h.acts hm)).trans (h.enable fun v hm => hv v (State.actsWithin_mono hm))
  set k hk hu := h.set k (fun hm => hk (State.actsWithin_mono hm)) (g.set k (fun hm => hk (h.acts hm)) hu)
  reserved k h8 h16 := (g.reserved k h8 h16).trans (h.reserved k h8 h16)
  wf hw := g.wf (h.wf hw)
  stack hk := g.stack (h.stack hk)
  low hk adr ha hs := (g.low (h.stack hk) adr ha fun v hm => hs v (h.acts hm)).trans (h.low hk adr ha (State.spares_mono hs))

/-- Bus cycles that write no byte of the CPU's and leave the stack pointer. -/
theorem OnBus.ran {n : Nat} {s s' t : State} (h : OnBus n s' t) (hs : s.bytesSpared t n)
    (hw : s.mem.wf = true → t.mem.wf = true)
    (e : s' = { s with
      pc := s'.pc, ip := s'.ip, sa := s'.sa, da := s'.da, sd := s'.sd, ci := s'.ci, xd := s'.xd, raised := s'.raised }) :
    Ran n s t := by
  rw [e] at h
  refine ⟨h.cfg, h.cycles, h.platform, h.reads, h.writes,
    h.enable, h.set, fun k _ hk => h.low k hk, hw, fun hk => ?_, fun _ adr _ ha => hs adr ha⟩
  rw [State.stackOk, show t.sp = s.sp from h.sp]
  exact hk

/-- A byte that may be written lies at `0x80000000` or above. -/
theorem State.allows_write_ge {s : State} {adr : Addr} (h : s.allows .write adr = true) : 0x80000000 ≤ adr.toNat := by
  simp only [State.allows, Bool.and_eq_true] at h
  have h1 := h.1
  by_contra hlt
  unfold regionOf at h1
  repeat' split at h1
  all_goals first | (simp [regionAllows] at h1; done) | omega

/-- What `StackStep` means for the stack pointer's bounds. -/
theorem StackStep.stackOk {s u : State} {base : Addr} {m : Nat} (h : StackStep s u base m) (hk : s.stackOk = true) :
    u.stackOk = true := by
  simp only [State.stackOk, Bool.and_eq_true, decide_eq_true_eq] at *
  rcases h with ⟨e, -⟩ | ⟨h1, e, -⟩ | ⟨h1, e, -⟩ <;> rw [e]
  · exact hk
  · bv_omega
  · bv_omega

/-- What `StackStep` means for the bytes below `0x80000000`. -/
theorem StackStep.above {s u : State} {base : Addr} {m : Nat} (h : StackStep s u base m) (hk : s.stackOk = true) {k : Nat}
    (hm : k < m) : 0x80000000 ≤ (base + BitVec.ofNat 32 k).toNat := by
  rcases h with ⟨-, h⟩ | ⟨h1, -, rfl, rfl⟩ | ⟨-, -, rfl⟩
  · exact State.allows_write_ge ((State.allowsAll_iff ..).1 h k hm)
  · simp only [State.stackOk, Bool.and_eq_true, decide_eq_true_eq] at hk
    have : k = 0 ∨ k = 1 ∨ k = 2 ∨ k = 3 := by omega
    rcases this with rfl | rfl | rfl | rfl <;> bv_omega
  · omega

theorem Moved.ran {n : Nat} {s u : State} (h : Moved n s u) : Ran n s u := by
  obtain ⟨hb, hw, base, m, v, hs, hk⟩ := h
  exact ⟨hb.cfg, hb.cycles, hb.platform, hb.reads, hb.writes,
    hb.enable, hb.set, fun k _ h => hb.low k h, hw, hk.stackOk, fun ho adr ha hp =>
      (hs adr hp).1 fun k hm e => by have := hk.above ho hm; rw [← e] at this; omega⟩

/-- An exception entry. -/
theorem State.takeException_ran (s : State) (e : Exc) : ∃ n, Ran n s (s.takeException e) := by
  cases h : s.stackFull
  · obtain ⟨hb, hs⟩ := s.takeException_onBus e h
    have hk : StackStep s (s.takeException e) (s.sp - 4) 4 :=
      .inr (.inl ⟨(State.stackFull_false_iff s).1 h, hb.sp, rfl, rfl⟩)
    exact ⟨6, hb.cfg, hb.cycles, hb.platform, hb.reads, hb.writes,
      hb.enable, hb.set, fun k _ h => hb.low k h, State.takeException_wf e, hk.stackOk, fun ho adr ha hp =>
        (hs adr hp).1 fun k hm e => by have := hk.above ho hm; rw [← e] at this; omega⟩
  · rw [State.takeException_full h]
    exact ⟨0, rfl, rfl, rfl, ⟨0, le_rfl, rfl⟩, ⟨0, le_rfl, rfl⟩, fun _ => rfl, fun _ _ h => h, fun _ _ _ => rfl, id, id,
      fun _ _ _ _ => rfl⟩

/-- An interrupt entry. -/
theorem State.takeInterrupt_ran (s : State) {k : Nat} (hk32 : k < 32) : ∃ n, Ran n s (s.takeInterrupt k) := by
  cases h : s.stackFull
  · obtain ⟨hb, hs⟩ := s.takeInterrupt_onBus k h
    have hk : StackStep s (s.takeInterrupt k) (s.sp - 4) 4 :=
      .inr (.inl ⟨(State.stackFull_false_iff s).1 h, hb.sp, rfl, rfl⟩)
    refine ⟨6, hb.cfg, hb.cycles, hb.platform, hb.reads,
      hb.writes, hb.enable, fun j hj ht => ?_, fun j _ hj => ?_, State.takeInterrupt_wf k, hk.stackOk, fun ho adr ha hp =>
        (hs adr hp).1 fun k hm e => by have := hk.above ho hm; rw [← e] at this; omega⟩
    · have := hb.set j hj ht
      rw [putBit_getLsbD _ _ _ _ hk32] at this
      split at this
      · cases this
      · exact this
    · rw [hb.low j hj]
      show (putBit s.f 5 false).getLsbD j = _
      rw [putBit_getLsbD _ _ _ _ (by omega), if_neg (by omega)]
  · rw [State.takeInterrupt_full h]
    exact ⟨0, rfl, rfl, rfl, ⟨0, le_rfl, rfl⟩, ⟨0, le_rfl, rfl⟩, fun _ => rfl, fun _ _ h => h, fun _ _ _ => rfl, id, id,
      fun _ _ _ _ => rfl⟩

/-- An instruction. -/
theorem exec_ran {i : Instr} {s t : State} (h : exec i s = .next t) : ∃ n, Ran n s t := by
  rcases exec_next h with ⟨e, n, u, rfl, hb, hs, hw⟩ | ⟨n, u, hm, ht, hf, -⟩
  · obtain ⟨m, hm⟩ := u.takeException_ran e
    exact ⟨_, (hb.ran hs hw rfl).trans hm⟩
  · have g := hm.ran
    refine ⟨n, ?_⟩
    have hr : ∀ k, 8 ≤ k → k < 16 → t.f.getLsbD k = s.f.getLsbD k := by
      intro k h8 h16
      refine Eq.trans ?_ (g.reserved k h8 h16)
      rcases hf k (.inr h8) with h | ⟨h, -⟩ | ⟨h, -⟩ | ⟨j, h, -⟩
      · exact h
      all_goals omega
    rw [ht]
    exact ⟨g.cfg, g.cycles, g.platform, g.reads, g.writes, g.enable, g.set, hr, g.wf, g.stack, g.low⟩

end Sys2Proof.Machine
end

