-- ==== Sys2Proof/Laws/Frame.lean ====
section
/-! SUPPORT. What each part of a frame can do: cycles without the CPU, the bytes at the program counter, fetch and decode, the
delivery of a hardware error, the interrupt test, and the frame as a whole (`step_next`). -/

namespace Sys2Proof.Machine

/-! ## Cycles in which the CPU does nothing -/

/-- The platform's acts do not depend on the CPU's own registers, which stand before or after them. -/
theorem State.acts_latches (s : State) (es : List PlatformEvent) (pc ip sa da sd : Word) (ci : Half) (xd : Byte)
    (raised : Bool) :
    ({ s with pc := pc, ip := ip, sa := sa, da := da, sd := sd, ci := ci, xd := xd, raised := raised } : State).acts es =
      { s.acts es with pc := pc, ip := ip, sa := sa, da := da, sd := sd, ci := ci, xd := xd, raised := raised } := by
  unfold State.acts
  induction es generalizing s with
  | nil => rfl
  | cons e es ih => rw [List.foldl_cons, List.foldl_cons, ← ih]; cases e <;> rfl

theorem State.clocks_latches (s : State) (n : Nat) (pc ip sa da sd : Word) (ci : Half) (xd : Byte) (raised : Bool) :
    ({ s with pc := pc, ip := ip, sa := sa, da := da, sd := sd, ci := ci, xd := xd, raised := raised } : State).clocks n =
      { s.clocks n with pc := pc, ip := ip, sa := sa, da := da, sd := sd, ci := ci, xd := xd, raised := raised } := by
  induction n with
  | zero => rfl
  | succ n ih =>
    rw [State.clocks, ih, State.clocks]
    exact State.acts_latches
      { s.clocks n with platform := (s.clocks n).platform.tail, cycles := (s.clocks n).cycles + 1 } _ _ _ _ _ _ _ _ _

theorem State.clocks_succ (s : State) (n : Nat) : s.clocks (n + 1) = s.clock.clocks n := by
  induction n with
  | zero => rfl
  | succ n ih => rw [State.clocks, ih]; rfl

theorem State.clocks_add (s : State) (m n : Nat) : s.clocks (m + n) = (s.clocks m).clocks n := by
  induction n with
  | zero => rfl
  | succ n ih => rw [← Nat.add_assoc, State.clocks, ih]; rfl

theorem State.clocks_onBus (s : State) (n : Nat) : OnBus n s (s.clocks n) := by
  induction n with
  | zero => exact OnBus.refl s
  | succ n ih => exact ih.trans (State.clock_onBus _)

theorem State.clocks_spared (s : State) (n : Nat) : s.bytesSpared (s.clocks n) n := by
  induction n with
  | zero => exact fun _ _ => rfl
  | succ n ih => exact ih.trans (s.clocks_onBus n) (State.clock_spared _)

theorem State.clocks_wf {s : State} (n : Nat) (h : s.mem.wf = true) : (s.clocks n).mem.wf = true := by
  induction n with
  | zero => exact h
  | succ n ih => exact State.clock_wf ih

/-! ## Bytes at the program counter -/

/-- A byte that may be executed is no device's. -/
theorem State.allows_execute_plain {s : State} {adr : Addr} (h : s.allows .execute adr = true) : isDevice adr = false := by
  simp only [State.allows, Bool.and_eq_true] at h
  have h1 := h.1
  unfold isDevice
  cases hr : regionOf adr <;> simp [hr, regionAllows] at h1 ⊢

theorem State.bytesSeen_succ (s : State) (adr : Addr) (n : Nat) :
    s.bytesSeen adr (n + 1) = s.byte adr :: s.clock.bytesSeen (adr + 1) n := by
  simp only [State.bytesSeen, List.range_succ_eq_map, List.map_cons, List.map_map]
  congr 1
  · simp [State.clocks]
  · apply List.map_congr_left
    intro k _
    simp only [Function.comp_apply]
    rw [addr_succ, State.clocks_succ]

theorem State.bytesSeen_add (s : State) (adr : Addr) (m n : Nat) :
    s.bytesSeen adr (m + n) = s.bytesSeen adr m ++ (s.clocks m).bytesSeen (adr + BitVec.ofNat 32 m) n := by
  simp only [State.bytesSeen, List.range_add, List.map_append, List.map_map]
  congr 1
  apply List.map_congr_left
  intro k _
  simp only [Function.comp_apply]
  rw [State.clocks_add, BitVec.ofNat_add, BitVec.add_assoc]

@[simp] theorem State.bytesSeen_length (s : State) (adr : Addr) (n : Nat) : (s.bytesSeen adr n).length = n := by
  simp [State.bytesSeen]

/-- The bytes do not depend on the CPU's own registers. -/
theorem State.bytesSeen_latches (s : State) (adr : Addr) (n : Nat) (pc ip sa da sd : Word) (ci : Half) (xd : Byte)
    (raised : Bool) :
    ({ s with pc := pc, ip := ip, sa := sa, da := da, sd := sd, ci := ci, xd := xd, raised := raised } : State).bytesSeen
      adr n = s.bytesSeen adr n := by
  simp only [State.bytesSeen, State.clocks_latches]
  rfl

/-- A read of executable bytes: their little-endian value, and nothing but the cycles. -/
theorem State.readBytes_executable {s : State} {n : Nat} {adr : Addr} (h : s.allowsAll .execute n adr = true) :
    s.readBytes n adr = (leValue (s.bytesSeen adr n), s.clocks n) := by
  induction n generalizing s adr with
  | zero => rfl
  | succ n ih =>
    simp only [State.allowsAll, Bool.and_eq_true] at h
    have hp : s.busRead adr = (s.byte adr, s) := State.busRead_plain (.inl (State.allows_execute_plain h.1))
    have hc : s.clock.allowsAll .execute n (adr + 1) = true := by rw [State.allowsAll_congr (s := s) (by simp), h.2]
    rw [State.readBytes, hp]
    simp only [ih hc]
    rw [State.bytesSeen_succ, State.clocks_succ]
    rfl

/-- The opcode of two bytes. -/
theorem leValue_opcode (b0 b1 : Byte) : (leValue [b0, b1]).setWidth 16 = (b1 ++ b0 : Half) := by
  apply BitVec.eq_of_getLsbD_eq
  intro i hi
  have h0 : (b1 ++ b0 : Half).getLsbD i = BitVec.getLsbD (w := 8 + 8) (b1 ++ b0) i := rfl
  rw [h0, BitVec.getLsbD_append]
  by_cases h8 : i < 8
  · simp [leValue, h8, hi]
  · simp [leValue, h8, hi, BitVec.getLsbD_of_ge b0 i (by omega)]

theorem State.allowsAll_add (s : State) (k : Access) (m n : Nat) (adr : Addr) :
    s.allowsAll k (m + n) adr = true ↔
      s.allowsAll k m adr = true ∧ s.allowsAll k n (adr + BitVec.ofNat 32 m) = true := by
  simp only [State.allowsAll_iff]
  constructor
  · intro h
    refine ⟨fun j hj => h j (by omega), fun j hj => ?_⟩
    have := h (m + j) (by omega)
    rwa [BitVec.add_assoc, ← BitVec.ofNat_add]
  · rintro ⟨h1, h2⟩ j hj
    by_cases hm : j < m
    · exact h1 j hm
    · have := h2 (j - m) (by omega)
      rwa [BitVec.add_assoc, ← BitVec.ofNat_add, show m + (j - m) = j by omega] at this

/-! ## Fetch and decode -/

theorem State.fetch_allowed {s : State} {n : Nat} (h : s.allowsAll .execute n s.pc = true) :
    s.fetch n = some (leValue (s.bytesSeen s.pc n), { s.clocks n with pc := s.pc + BitVec.ofNat 32 n }) := by
  rw [State.fetch, if_pos h, State.readBytes_executable h]

theorem State.fetch_refused {s : State} {n : Nat} (h : s.allowsAll .execute n s.pc = false) : s.fetch n = none := by
  rw [State.fetch, if_neg (by simp [h])]

/-- The opcode's fetch, at the start of an instruction: two cycles. -/
theorem State.fetch_opcode {s : State} (h : s.allowsAll .execute 2 s.pc = true) :
    ∃ w t, s.beginInstruction.fetch 2 = some (w, t) ∧ w.setWidth 16 = (s.clock.byte (s.pc + 1) ++ s.byte s.pc : Half) ∧
      t = { s.clocks 2 with
        ip := s.pc, pc := s.pc + 2, sa := 0, da := 0, sd := 0, ci := 0, xd := 0, raised := false } := by
  have h' : s.beginInstruction.allowsAll .execute 2 s.beginInstruction.pc = true := by
    rw [State.allowsAll_congr (s := s) (by rfl)]; exact h
  refine ⟨_, _, State.fetch_allowed h', ?_, ?_⟩
  · rw [State.beginInstruction, State.bytesSeen_latches]
    rw [show ∀ adr, s.bytesSeen adr 2 = [s.byte adr, s.clock.byte (adr + 1)] from fun adr => by
      rw [State.bytesSeen_succ, State.bytesSeen_succ]; rfl]
    exact leValue_opcode _ _
  · rw [State.beginInstruction, State.clocks_latches]
    rfl

/-- A branch of a table. -/
theorem ite_some {c : Prop} [Decidable c] {a b : Option Instr} {i : Instr} (h : (if c then a else b) = some i) :
    c ∧ a = some i ∨ ¬c ∧ b = some i := by
  split at h
  · exact .inl ⟨‹_›, h⟩
  · exact .inr ⟨‹_›, h⟩

/-- Whether an opcode matches a row does not depend on the immediate. -/
theorem ofOpcode_ne_none {strict : Bool} {op : Half} {imm imm' : Word} {i : Instr}
    (h : Instr.ofOpcode strict op imm = some i) : Instr.ofOpcode strict op imm' ≠ none := by
  unfold Instr.ofOpcode at h ⊢
  simp only at h ⊢
  iterate 88
    (rcases ite_some h with ⟨ho, h⟩ | ⟨hno, h⟩
     · rw [if_pos ho]
       first
         | exact Option.some_ne_none _
         | (split at h; cases h; rename_i hc; rw [if_neg hc]; exact Option.some_ne_none _)
     rw [if_neg hno])
  cases h

/-- Some cycles, after which `pc`, `IP`, the latches and `raised` have been written. -/
def State.refetched (s t : State) : Prop :=
  ∃ n, OnBus n { s with
      pc := t.pc, ip := t.ip, sa := t.sa, da := t.da, sd := t.sd, ci := t.ci, xd := t.xd, raised := t.raised } t ∧
    s.bytesSpared t n ∧ (s.mem.wf = true → t.mem.wf = true)

theorem State.refetched.trans {s t u : State} (h : s.refetched t) (g : t.refetched u) : s.refetched u := by
  obtain ⟨m, hb, hs, hw⟩ := h
  obtain ⟨n, gb, gs, gw⟩ := g
  refine ⟨m + n, ?_, ?_, fun h => gw (hw h)⟩
  · exact (hb.latches u.pc u.ip u.sa u.da u.sd u.ci u.xd u.raised).trans gb
  · exact State.bytesSpared.trans (s := { s with
      pc := t.pc, ip := t.ip, sa := t.sa, da := t.da, sd := t.sd, ci := t.ci, xd := t.xd, raised := t.raised }) hs hb gs

theorem State.refetched.ran {s t : State} (h : s.refetched t) : ∃ n, Ran n s t := by
  obtain ⟨n, hb, hs, hw⟩ := h
  exact ⟨n, hb.ran hs hw rfl⟩

theorem State.fetch_keeps {s t : State} {n : Nat} {w : Word} (h : s.fetch n = some (w, t)) :
    s.refetched t ∧ t.raised = s.raised := by
  cases ha : s.allowsAll .execute n s.pc
  · rw [State.fetch_refused ha] at h; cases h
  rw [State.fetch_allowed ha] at h
  cases h
  have hb := (s.clocks_onBus n).setPc (s.pc + BitVec.ofNat 32 n)
  have hr := (s.clocks_onBus n).raised
  refine ⟨⟨n, ?_, s.clocks_spared n, State.clocks_wf n⟩, hr⟩
  have e1 := (s.clocks_onBus n).ip
  have e2 := (s.clocks_onBus n).sa
  have e3 := (s.clocks_onBus n).da
  have e4 := (s.clocks_onBus n).sd
  have e5 := (s.clocks_onBus n).ci
  have e6 := (s.clocks_onBus n).xd
  simp only [e1, e2, e3, e4, e5, e6, hr]
  have := hb.latches (s.pc + BitVec.ofNat 32 n) s.ip s.sa s.da s.sd s.ci s.xd s.raised
  convert this using 2

theorem State.latchImmediate_keeps (s : State) (i : Instr) :
    s.refetched (s.latchImmediate i) ∧ (s.latchImmediate i).raised = s.raised := by
  cases i <;> exact ⟨⟨0, OnBus.refl _, fun _ _ => rfl, id⟩, rfl⟩

/-- Fetch and decode change nothing else, and leave `raised` clear. -/
theorem State.fetchDecode_keeps (s : State) :
    (∀ e t, s.fetchDecode = .raised e t → s.refetched t ∧ t.raised = false) ∧
    (∀ i t, s.fetchDecode = .ready i t → s.refetched t ∧ t.raised = false) := by
  have h0 : s.refetched s.beginInstruction ∧ s.beginInstruction.raised = false :=
    ⟨⟨0, OnBus.refl _, fun _ _ => rfl, id⟩, rfl⟩
  have hf : ∀ {t u : State} {n : Nat} {w : Word}, s.refetched t ∧ t.raised = false → t.fetch n = some (w, u) →
      s.refetched u ∧ u.raised = false := fun ht hu =>
    ⟨ht.1.trans (State.fetch_keeps hu).1, (State.fetch_keeps hu).2.trans ht.2⟩
  have hl : ∀ {t : State} (i : Instr), s.refetched t ∧ t.raised = false →
      s.refetched (t.latchImmediate i) ∧ (t.latchImmediate i).raised = false := fun i ht =>
    ⟨ht.1.trans (State.latchImmediate_keeps _ i).1, (State.latchImmediate_keeps _ i).2.trans ht.2⟩
  unfold State.fetchDecode
  simp only
  cases h1 : s.beginInstruction.fetch 2 with
  | none => exact ⟨fun e t h => (by cases h; exact h0), fun i t h => (by cases h)⟩
  | some p =>
    obtain ⟨w, u⟩ := p
    have h2 := hf h0 h1
    have h3 : s.refetched { u with ci := w.setWidth 16 } ∧ u.raised = false :=
      ⟨h2.1.trans ⟨0, OnBus.refl _, fun _ _ => rfl, id⟩, h2.2⟩
    simp only
    cases h4 : Instr.ofOpcode u.cfg.strictZeroNibble (w.setWidth 16) 0 with
    | none => exact ⟨fun e t h => (by cases h; exact h3), fun i t h => (by cases h)⟩
    | some j =>
      simp only
      unfold State.fetchImmediate
      cases h5 : ({ u with ci := w.setWidth 16 } : State).fetch (immBytes (w.setWidth 16)) with
      | none => exact ⟨fun e t h => (by cases h; exact h3), fun i t h => (by cases h)⟩
      | some p =>
        obtain ⟨w', u'⟩ := p
        simp only
        cases h6 : Instr.ofOpcode u.cfg.strictZeroNibble (w.setWidth 16) w' with
        | none => exact ⟨fun e t h => (by cases h; exact h3), fun i t h => (by cases h)⟩
        | some j => exact ⟨fun e t h => (by cases h), fun i t h => (by cases h; exact hl _ (hf h3 h5))⟩

/-! ## The end of a frame -/

/-- The lowest set bit is found. -/
theorem lowestBit_eq_some {v : Word} {k : Nat} (hk : v.getLsbD k = true) (hl : ∀ j, j < k → v.getLsbD j = false) :
    lowestBit v = some k := by
  have h32 : k < 32 := by
    by_contra h
    rw [BitVec.getLsbD_of_ge v k (by omega)] at hk
    cases hk
  rw [lowestBit, List.find?_range_eq_some]
  exact ⟨hk, by simpa using h32, fun j hj => by simp [hl j hj]⟩

@[simp] theorem lowestBit_zero : lowestBit 0 = none := by decide

/-- What is found is a set bit. -/
theorem lowestBit_some {v : Word} {k : Nat} (h : lowestBit v = some k) : v.getLsbD k = true ∧ k < 32 := by
  rw [lowestBit, List.find?_range_eq_some] at h
  exact ⟨h.1, by simpa using h.2.1⟩

/-- The service test enters one pending and enabled interrupt or does nothing. -/
theorem State.serviceInterrupt_cases (s : State) :
    s.serviceInterrupt = s ∨ ∃ k, k < 32 ∧ s.ime = true ∧ s.intFlags.getLsbD k = true ∧ s.intEnable.getLsbD k = true ∧
      s.serviceInterrupt = s.takeInterrupt k := by
  unfold State.serviceInterrupt
  split
  · rename_i hi
    split
    · rename_i k hk
      have := lowestBit_some hk
      simp only [BitVec.getLsbD_and, Bool.and_eq_true] at this
      exact .inr ⟨k, this.2, hi, this.1.1, this.1.2, rfl⟩
    · exact .inl rfl
  · exact .inl rfl

/-- A change of fields that no part of a frame's account is about. -/
theorem Ran.other {s t : State} (h : t = { s with
    f := t.f, ime := t.ime, ei := t.ei, hwError := t.hwError, standby := t.standby, raised := t.raised })
    (hf : ∀ k, 8 ≤ k → k < 16 → t.f.getLsbD k = s.f.getLsbD k) : Ran 0 s t := by
  rw [h]
  exact ⟨rfl, rfl, rfl, ⟨0, le_rfl, rfl⟩, ⟨0, le_rfl, rfl⟩, fun _ => rfl, fun _ _ h => h, hf, id, id, fun _ _ _ _ => rfl⟩

theorem State.setFlag_ran (s : State) (g : Flag) (b : Bool) : Ran 0 s (s.setFlag g b) := by
  refine Ran.other rfl fun k h8 h16 => ?_
  show (putBit s.f (flagBit g) b).getLsbD k = _
  rw [putBit_getLsbD _ _ _ _ (by cases g <;> decide), if_neg (by cases g <;> simp [flagBit] <;> omega)]

/-- A hardware error is entered, or waits. -/
theorem State.deliverHwError_cases (s : State) :
    s.deliverHwError = s ∨ s.hwError = true ∧ s.raised = false ∧
      s.deliverHwError = { s with hwError := false }.takeException .hardwareError := by
  unfold State.deliverHwError
  split
  · rename_i h
    simp only [Bool.and_eq_true, Bool.not_eq_true'] at h
    exact .inr ⟨h.1, h.2, rfl⟩
  · exact .inl rfl

theorem State.deliverHwError_ran (s : State) : ∃ n, Ran n s s.deliverHwError := by
  rcases s.deliverHwError_cases with h | ⟨-, -, h⟩ <;> rw [h]
  · exact ⟨0, Ran.refl s⟩
  · obtain ⟨n, h⟩ := State.takeException_ran { s with hwError := false } .hardwareError
    exact ⟨_, (Ran.other rfl fun _ _ _ => rfl : Ran 0 s { s with hwError := false }).trans h⟩

theorem State.endFrame_ran (s : State) : ∃ n, Ran n s s.endFrame := by
  have h1 : Ran 0 s s.haltWake := by
    unfold State.haltWake
    split
    · exact s.setFlag_ran ..
    · exact Ran.refl s
  have h2 : ∃ n, Ran n s s.haltWake.serviceInterrupt := by
    rcases s.haltWake.serviceInterrupt_cases with h | ⟨k, hk, -, -, -, h⟩ <;> rw [h]
    · exact ⟨_, h1⟩
    · obtain ⟨n, h⟩ := s.haltWake.takeInterrupt_ran hk
      exact ⟨_, h1.trans h⟩
  obtain ⟨n, h2⟩ := h2
  unfold State.endFrame
  simp only
  split
  · exact ⟨n, h2⟩
  · unfold State.commitEi
    split
    · exact ⟨_, h2.trans (Ran.other rfl fun _ _ _ => rfl)⟩
    · exact ⟨n, h2⟩

theorem State.afterInstruction_ran (s : State) : ∃ n, Ran n s s.afterInstruction := by
  unfold State.afterInstruction
  split
  · exact ⟨0, Ran.refl s⟩
  obtain ⟨m, h1⟩ := s.deliverHwError_ran
  simp only
  split
  · exact ⟨m, h1⟩
  · obtain ⟨n, h2⟩ := s.deliverHwError.endFrame_ran
    exact ⟨_, h1.trans h2⟩

/-! ## The frame -/

/-- What a stopped frame can do. -/
theorem State.stoppedFrame_keeps (s : State) :
    s.stoppedFrame = { s with
      standby := s.standby.tail, intFlags := s.intFlags ||| (s.standby.headD ⟨0, false⟩).lines, f := s.stoppedFrame.f } ∧
    ∀ k, 0 < k → s.stoppedFrame.f.getLsbD k = s.f.getLsbD k := by
  unfold State.stoppedFrame
  simp only
  split
  · refine ⟨rfl, fun k hk => ?_⟩
    show (putBit s.f 0 false).getLsbD k = _
    rw [putBit_getLsbD _ _ _ _ (by decide), if_neg (by omega)]
  · exact ⟨rfl, fun _ _ => rfl⟩

/-- What a step can do, said once. -/
theorem step_next {s t : State} (h : step s = .next t) :
    s.faulted = false ∧
    ((s.flag .T = true ∧ t = s.stoppedFrame) ∨
      (s.flag .T = false ∧ s.flag .L = true ∧ t = s.haltedFrame) ∨
      (s.flag .T = false ∧ s.flag .L = false ∧
        ((∃ e u, s.fetchDecode = .raised e u ∧ t = (u.takeException e).afterInstruction) ∨
          ∃ i u v, s.fetchDecode = .ready i u ∧ exec i u = .next v ∧ t = v.afterInstruction))) := by
  unfold step at h
  split at h
  · cases h
  rename_i hf
  refine ⟨by simpa using hf, ?_⟩
  unfold State.beginFrame at h
  by_cases hT : s.flag .T = true
  · rw [if_pos hT] at h
    cases h
    exact .inl ⟨hT, rfl⟩
  rw [if_neg hT] at h
  by_cases hL : s.flag .L = true
  · rw [if_pos hL] at h
    cases h
    exact .inr (.inl ⟨by simpa using hT, hL, rfl⟩)
  rw [if_neg hL] at h
  refine .inr (.inr ⟨by simpa using hT, by simpa using hL, ?_⟩)
  cases hd : s.fetchDecode with
  | raised e u =>
    rw [hd] at h
    cases h
    exact .inl ⟨e, u, rfl, rfl⟩
  | ready i u =>
    rw [hd] at h
    simp only [finishFrame] at h
    cases hx : exec i u with
    | next v =>
      rw [hx] at h
      cases h
      exact .inr ⟨i, u, v, rfl, hx, rfl⟩
    | fault e => rw [hx] at h; cases h
    | refused e => rw [hx] at h; cases h

end Sys2Proof.Machine
end

