-- ==== Sys2Proof/Laws/PerInstr.lean ====
section
/-! SUPPORT. The family `EncodeLength`, one lemma per constructor: the encoding of an instruction is as long as R112 says, and the
length can be told from the opcode alone (R118). -/

namespace Sys2Proof.Laws.EncodeLength

open Sys2Proof

/-- `i` is encoded in `i.length` bytes, 2, 3, 4 or 6 of them, and its opcode tells how many are immediate. -/
def Statement (i : Instr) : Prop :=
  (encode i).length = i.length ∧ i.length ∈ [2, 3, 4, 6] ∧ immBytes i.opcode = i.immediate.1

theorem len2 : 2 ∈ [2, 3, 4, 6] := by decide
theorem len3 : 3 ∈ [2, 3, 4, 6] := by decide
theorem len4 : 4 ∈ [2, 3, 4, 6] := by decide
theorem len6 : 6 ∈ [2, 3, 4, 6] := by decide

theorem lenX (x : Reg) : 2 + x.bytes ∈ [2, 3, 4, 6] := by
  obtain ⟨f, v⟩ := x; cases f <;> cases v <;> decide

theorem encX (op : Half) (v : Word) (n : Nat) :
    (op.setWidth 8 :: (op >>> 8).setWidth 8 :: leBytes n v).length = 2 + n := by
  simp; omega

theorem immX {o : Byte} (x : Reg) (y : BitVec 4) (h : o ∈ typesImm) : immBytes (opcodeXY o x.code y) = x.bytes := by
  simp [immBytes, h]

theorem imm32 {o : Byte} {x y : BitVec 4} (h : o ∉ typesImm ∧ o ∈ typesImm32) : immBytes (opcodeXY o x y) = 4 := by
  simp [immBytes, h]

theorem imm16 {o : Byte} {x y : BitVec 4} (h : o ∉ typesImm ∧ o ∉ typesImm32 ∧ o ∈ typesImm16) :
    immBytes (opcodeXY o x y) = 2 := by
  simp [immBytes, h]

theorem imm8 {o : Byte} {x y : BitVec 4} (h : o ∉ typesImm ∧ o ∉ typesImm32 ∧ o ∉ typesImm16 ∧ o ∈ typesImm8) :
    immBytes (opcodeXY o x y) = 1 := by
  simp [immBytes, h]

theorem imm0 {o : Byte} {x y : BitVec 4} (h : o ∉ typesImm ∧ o ∉ typesImm32 ∧ o ∉ typesImm16 ∧ o ∉ typesImm8) :
    immBytes (opcodeXY o x y) = 0 := by
  simp [immBytes, h]

theorem imm0XX {o xx : Byte} (h : o ∉ typesImm ∧ o ∉ typesImm32 ∧ o ∉ typesImm16 ∧ o ∉ typesImm8) :
    immBytes (opcodeXX o xx) = 0 := by
  simp [immBytes, h]

theorem nop : Statement .nop := ⟨rfl, len2, imm0 (by decide)⟩

theorem stop : Statement .stop := ⟨rfl, len2, imm0 (by decide)⟩

theorem halt : Statement .halt := ⟨rfl, len2, imm0 (by decide)⟩

theorem sec (xx : Byte) : Statement (.sec xx) := ⟨rfl, len2, imm0XX (by decide)⟩

theorem cec : Statement .cec := ⟨rfl, len2, imm0 (by decide)⟩

theorem di : Statement .di := ⟨rfl, len2, imm0 (by decide)⟩

theorem ei : Statement .ei := ⟨rfl, len2, imm0 (by decide)⟩

theorem daa : Statement .daa := ⟨rfl, len2, imm0 (by decide)⟩

theorem scf : Statement .scf := ⟨rfl, len2, imm0 (by decide)⟩

theorem ccf : Statement .ccf := ⟨rfl, len2, imm0 (by decide)⟩

theorem flg (k : BitVec 4) : Statement (.flg k) := ⟨rfl, len2, imm0 (by decide)⟩

theorem stf (k : BitVec 4) : Statement (.stf k) := ⟨rfl, len2, imm0 (by decide)⟩

theorem clf (k : BitVec 4) : Statement (.clf k) := ⟨rfl, len2, imm0 (by decide)⟩

theorem ldImm (x : Reg) (imm : Word) : Statement (.ldImm x imm) := ⟨encX _ _ _, lenX x, immX x 0 (by decide)⟩

theorem ldAbs (x : Reg) (addr : Addr) : Statement (.ldAbs x addr) := ⟨rfl, len6, imm32 (by decide)⟩

theorem ldInd (x : Reg) (y : Reg) : Statement (.ldInd x y) := ⟨rfl, len2, imm0 (by decide)⟩

theorem ldhAbs (x : Reg) (addr : Half) : Statement (.ldhAbs x addr) := ⟨rfl, len4, imm16 (by decide)⟩

theorem ldhInd (x : Reg) (y : Reg) : Statement (.ldhInd x y) := ⟨rfl, len2, imm0 (by decide)⟩

theorem ldpAbs (x : Reg) (addr : Byte) : Statement (.ldpAbs x addr) := ⟨rfl, len3, imm8 (by decide)⟩

theorem ldpInd (x : Reg) (y : Reg) : Statement (.ldpInd x y) := ⟨rfl, len2, imm0 (by decide)⟩

theorem stAbs (addr : Addr) (y : Reg) : Statement (.stAbs addr y) := ⟨rfl, len6, imm32 (by decide)⟩

theorem stInd (x : Reg) (y : Reg) : Statement (.stInd x y) := ⟨rfl, len2, imm0 (by decide)⟩

theorem sthAbs (addr : Half) (y : Reg) : Statement (.sthAbs addr y) := ⟨rfl, len4, imm16 (by decide)⟩

theorem sthInd (x : Reg) (y : Reg) : Statement (.sthInd x y) := ⟨rfl, len2, imm0 (by decide)⟩

theorem stpAbs (addr : Byte) (y : Reg) : Statement (.stpAbs addr y) := ⟨rfl, len3, imm8 (by decide)⟩

theorem stpInd (x : Reg) (y : Reg) : Statement (.stpInd x y) := ⟨rfl, len2, imm0 (by decide)⟩

theorem mv (x : Reg) (y : Reg) : Statement (.mv x y) := ⟨rfl, len2, imm0 (by decide)⟩

theorem pop (x : Reg) : Statement (.pop x) := ⟨rfl, len2, imm0 (by decide)⟩

theorem push (y : Reg) : Statement (.push y) := ⟨rfl, len2, imm0 (by decide)⟩

theorem jmpImm (z : Cond) (target : Addr) : Statement (.jmpImm z target) := ⟨rfl, len6, imm32 (by decide)⟩

theorem jmpReg (z : Cond) (y : Reg) : Statement (.jmpReg z y) := ⟨rfl, len2, imm0 (by decide)⟩

theorem jpb (z : Cond) (disp : Half) : Statement (.jpb z disp) := ⟨rfl, len4, imm16 (by decide)⟩

theorem call (z : Cond) (target : Addr) : Statement (.call z target) := ⟨rfl, len6, imm32 (by decide)⟩

theorem intVec (xx : Byte) : Statement (.intVec xx) := ⟨rfl, len2, imm0XX (by decide)⟩

theorem ret (z : Cond) : Statement (.ret z) := ⟨rfl, len2, imm0 (by decide)⟩

theorem reti : Statement .reti := ⟨rfl, len2, imm0 (by decide)⟩

theorem incReg (x : Reg) : Statement (.incReg x) := ⟨rfl, len2, imm0 (by decide)⟩

theorem incMem (x : Reg) : Statement (.incMem x) := ⟨rfl, len2, imm0 (by decide)⟩

theorem decReg (x : Reg) : Statement (.decReg x) := ⟨rfl, len2, imm0 (by decide)⟩

theorem decMem (x : Reg) : Statement (.decMem x) := ⟨rfl, len2, imm0 (by decide)⟩

theorem addImm (x : Reg) (imm : Word) : Statement (.addImm x imm) := ⟨encX _ _ _, lenX x, immX x 0 (by decide)⟩

theorem addAbs (x : Reg) (addr : Addr) : Statement (.addAbs x addr) := ⟨rfl, len6, imm32 (by decide)⟩

theorem addInd (x : Reg) (y : Reg) : Statement (.addInd x y) := ⟨rfl, len2, imm0 (by decide)⟩

theorem adcImm (x : Reg) (imm : Word) : Statement (.adcImm x imm) := ⟨encX _ _ _, lenX x, immX x 0 (by decide)⟩

theorem adcAbs (x : Reg) (addr : Addr) : Statement (.adcAbs x addr) := ⟨rfl, len6, imm32 (by decide)⟩

theorem adcInd (x : Reg) (y : Reg) : Statement (.adcInd x y) := ⟨rfl, len2, imm0 (by decide)⟩

theorem subImm (x : Reg) (imm : Word) : Statement (.subImm x imm) := ⟨encX _ _ _, lenX x, immX x 0 (by decide)⟩

theorem subAbs (x : Reg) (addr : Addr) : Statement (.subAbs x addr) := ⟨rfl, len6, imm32 (by decide)⟩

theorem subInd (x : Reg) (y : Reg) : Statement (.subInd x y) := ⟨rfl, len2, imm0 (by decide)⟩

theorem sbcImm (x : Reg) (imm : Word) : Statement (.sbcImm x imm) := ⟨encX _ _ _, lenX x, immX x 0 (by decide)⟩

theorem sbcAbs (x : Reg) (addr : Addr) : Statement (.sbcAbs x addr) := ⟨rfl, len6, imm32 (by decide)⟩

theorem sbcInd (x : Reg) (y : Reg) : Statement (.sbcInd x y) := ⟨rfl, len2, imm0 (by decide)⟩

theorem andImm (x : Reg) (imm : Word) : Statement (.andImm x imm) := ⟨encX _ _ _, lenX x, immX x 0 (by decide)⟩

theorem andAbs (x : Reg) (addr : Addr) : Statement (.andAbs x addr) := ⟨rfl, len6, imm32 (by decide)⟩

theorem andInd (x : Reg) (y : Reg) : Statement (.andInd x y) := ⟨rfl, len2, imm0 (by decide)⟩

theorem orImm (x : Reg) (imm : Word) : Statement (.orImm x imm) := ⟨encX _ _ _, lenX x, immX x 0 (by decide)⟩

theorem orAbs (x : Reg) (addr : Addr) : Statement (.orAbs x addr) := ⟨rfl, len6, imm32 (by decide)⟩

theorem orInd (x : Reg) (y : Reg) : Statement (.orInd x y) := ⟨rfl, len2, imm0 (by decide)⟩

theorem xorImm (x : Reg) (imm : Word) : Statement (.xorImm x imm) := ⟨encX _ _ _, lenX x, immX x 0 (by decide)⟩

theorem xorAbs (x : Reg) (addr : Addr) : Statement (.xorAbs x addr) := ⟨rfl, len6, imm32 (by decide)⟩

theorem xorInd (x : Reg) (y : Reg) : Statement (.xorInd x y) := ⟨rfl, len2, imm0 (by decide)⟩

theorem notReg (x : Reg) : Statement (.notReg x) := ⟨rfl, len2, imm0 (by decide)⟩

theorem notMem (x : Reg) : Statement (.notMem x) := ⟨rfl, len2, imm0 (by decide)⟩

theorem cmpImm (x : Reg) (imm : Word) : Statement (.cmpImm x imm) := ⟨encX _ _ _, lenX x, immX x 0 (by decide)⟩

theorem cmpAbs (x : Reg) (addr : Addr) : Statement (.cmpAbs x addr) := ⟨rfl, len6, imm32 (by decide)⟩

theorem cmpInd (x : Reg) (y : Reg) : Statement (.cmpInd x y) := ⟨rfl, len2, imm0 (by decide)⟩

theorem slaReg (x : Reg) : Statement (.slaReg x) := ⟨rfl, len2, imm0 (by decide)⟩

theorem slaMem (x : Reg) : Statement (.slaMem x) := ⟨rfl, len2, imm0 (by decide)⟩

theorem sraReg (x : Reg) : Statement (.sraReg x) := ⟨rfl, len2, imm0 (by decide)⟩

theorem sraMem (x : Reg) : Statement (.sraMem x) := ⟨rfl, len2, imm0 (by decide)⟩

theorem srlReg (x : Reg) : Statement (.srlReg x) := ⟨rfl, len2, imm0 (by decide)⟩

theorem srlMem (x : Reg) : Statement (.srlMem x) := ⟨rfl, len2, imm0 (by decide)⟩

theorem rlReg (x : Reg) : Statement (.rlReg x) := ⟨rfl, len2, imm0 (by decide)⟩

theorem rlMem (x : Reg) : Statement (.rlMem x) := ⟨rfl, len2, imm0 (by decide)⟩

theorem rlcReg (x : Reg) : Statement (.rlcReg x) := ⟨rfl, len2, imm0 (by decide)⟩

theorem rlcMem (x : Reg) : Statement (.rlcMem x) := ⟨rfl, len2, imm0 (by decide)⟩

theorem rrReg (x : Reg) : Statement (.rrReg x) := ⟨rfl, len2, imm0 (by decide)⟩

theorem rrMem (x : Reg) : Statement (.rrMem x) := ⟨rfl, len2, imm0 (by decide)⟩

theorem rrcReg (x : Reg) : Statement (.rrcReg x) := ⟨rfl, len2, imm0 (by decide)⟩

theorem rrcMem (x : Reg) : Statement (.rrcMem x) := ⟨rfl, len2, imm0 (by decide)⟩

theorem bitReg (xd : Byte) (x : Reg) : Statement (.bitReg xd x) := ⟨rfl, len3, imm8 (by decide)⟩

theorem bitMem (xd : Byte) (x : Reg) : Statement (.bitMem xd x) := ⟨rfl, len3, imm8 (by decide)⟩

theorem togReg (xd : Byte) (x : Reg) : Statement (.togReg xd x) := ⟨rfl, len3, imm8 (by decide)⟩

theorem togMem (xd : Byte) (x : Reg) : Statement (.togMem xd x) := ⟨rfl, len3, imm8 (by decide)⟩

theorem setReg (xd : Byte) (x : Reg) : Statement (.setReg xd x) := ⟨rfl, len3, imm8 (by decide)⟩

theorem setMem (xd : Byte) (x : Reg) : Statement (.setMem xd x) := ⟨rfl, len3, imm8 (by decide)⟩

theorem resReg (xd : Byte) (x : Reg) : Statement (.resReg xd x) := ⟨rfl, len3, imm8 (by decide)⟩

theorem resMem (xd : Byte) (x : Reg) : Statement (.resMem xd x) := ⟨rfl, len3, imm8 (by decide)⟩

end Sys2Proof.Laws.EncodeLength
end

