-- ==== Sys2Proof/Tests/Slice0.lean ====
section
/-! SUPPORT. Tests: the checks of WellFormed refuse, the words of every instruction decode (written out from R110, R119 and R23), one
frame per instruction from the vectors of 95_test_vectors.md and 96_derived_vectors.md (the name of a test ends in its
vector), and the witnesses: states and operands that meet the hypotheses of each statement. -/

namespace Sys2Proof.Tests

open Sys2Proof Sys2Proof.Machine

/-- The bytes placed at `pc`. -/
def start (bytes : List Byte) (s : State) : State := s.placeAtPc bytes

/-- One frame answers a next state with `p`. -/
def after (s : State) (p : State → Bool) : Bool :=
  match step s with
  | .next t => p t
  | _ => false

/-! ## WellFormed -/


theorem test_wide_immediates_are_ill_formed :
    (Instr.ldImm ⟨.A, .low⟩ 0x100).wellFormed = false ∧
    (Instr.addImm ⟨.A, .low⟩ 0x100).wellFormed = false ∧
    (Instr.adcImm ⟨.A, .low⟩ 0x100).wellFormed = false ∧
    (Instr.subImm ⟨.A, .low⟩ 0x100).wellFormed = false ∧
    (Instr.sbcImm ⟨.A, .low⟩ 0x100).wellFormed = false ∧
    (Instr.andImm ⟨.A, .low⟩ 0x100).wellFormed = false ∧
    (Instr.orImm ⟨.A, .low⟩ 0x100).wellFormed = false ∧
    (Instr.xorImm ⟨.A, .low⟩ 0x100).wellFormed = false ∧
    (Instr.cmpImm ⟨.A, .low⟩ 0x100).wellFormed = false ∧
    (Instr.ldImm ⟨.B, .word⟩ 0x10000).wellFormed = false ∧
    (Instr.ldImm ⟨.A, .low⟩ 0xFF).wellFormed = true := by decide

theorem test_forbidden_arguments_are_refused :
    Instr.argsValid (.ldInd ⟨.A, .low⟩ ⟨.B, .word⟩) = false ∧
    Instr.argsValid (.ldhInd ⟨.A, .word⟩ ⟨.B, .full⟩) = false ∧
    Instr.argsValid (.ldpAbs ⟨.A, .word⟩ 0) = false ∧
    Instr.argsValid (.ldpInd ⟨.A, .word⟩ ⟨.B, .low⟩) = false ∧
    Instr.argsValid (.ldpInd ⟨.A, .high⟩ ⟨.B, .word⟩) = false ∧
    Instr.argsValid (.stInd ⟨.A, .word⟩ ⟨.B, .full⟩) = false ∧
    Instr.argsValid (.sthInd ⟨.A, .low⟩ ⟨.B, .word⟩) = false ∧
    Instr.argsValid (.stpAbs 0 ⟨.A, .full⟩) = false ∧
    Instr.argsValid (.stpInd ⟨.A, .word⟩ ⟨.B, .low⟩) = false ∧
    Instr.argsValid (.stpInd ⟨.A, .high⟩ ⟨.B, .word⟩) = false ∧
    Instr.argsValid (.pop ⟨.A, .low⟩) = false ∧
    Instr.argsValid (.push ⟨.A, .word⟩) = false ∧
    Instr.argsValid (.jmpImm .u5 0) = false ∧
    Instr.argsValid (.jmpReg .uD ⟨.A, .full⟩) = false ∧
    Instr.argsValid (.jmpReg .nc ⟨.A, .low⟩) = false ∧
    Instr.argsValid (.jpb .uF 0) = false ∧
    Instr.argsValid (.call .u5 0) = false ∧
    Instr.argsValid (.intVec 0x20) = false ∧
    Instr.argsValid (.ret .u8) = false ∧
    Instr.argsValid (.incMem ⟨.A, .word⟩) = false ∧
    Instr.argsValid (.decMem ⟨.A, .word⟩) = false ∧
    Instr.argsValid (.addInd ⟨.A, .low⟩ ⟨.B, .word⟩) = false ∧
    Instr.argsValid (.adcInd ⟨.A, .low⟩ ⟨.B, .word⟩) = false ∧
    Instr.argsValid (.subInd ⟨.A, .low⟩ ⟨.B, .word⟩) = false ∧
    Instr.argsValid (.sbcInd ⟨.A, .low⟩ ⟨.B, .word⟩) = false ∧
    Instr.argsValid (.andInd ⟨.A, .low⟩ ⟨.B, .word⟩) = false ∧
    Instr.argsValid (.orInd ⟨.A, .low⟩ ⟨.B, .word⟩) = false ∧
    Instr.argsValid (.xorInd ⟨.A, .low⟩ ⟨.B, .word⟩) = false ∧
    Instr.argsValid (.notMem ⟨.A, .word⟩) = false ∧
    Instr.argsValid (.cmpInd ⟨.A, .low⟩ ⟨.B, .word⟩) = false ∧
    Instr.argsValid (.slaMem ⟨.A, .word⟩) = false ∧
    Instr.argsValid (.sraMem ⟨.A, .word⟩) = false ∧
    Instr.argsValid (.srlMem ⟨.A, .word⟩) = false ∧
    Instr.argsValid (.rlMem ⟨.A, .word⟩) = false ∧
    Instr.argsValid (.rlcMem ⟨.A, .word⟩) = false ∧
    Instr.argsValid (.rrMem ⟨.A, .word⟩) = false ∧
    Instr.argsValid (.rrcMem ⟨.A, .word⟩) = false ∧
    Instr.argsValid (.bitReg 8 ⟨.A, .high⟩) = false ∧
    Instr.argsValid (.bitReg 16 ⟨.A, .word⟩) = false ∧
    Instr.argsValid (.bitReg 32 ⟨.A, .full⟩) = false ∧
    Instr.argsValid (.bitMem 8 ⟨.A, .full⟩) = false ∧
    Instr.argsValid (.bitMem 0 ⟨.A, .word⟩) = false ∧
    Instr.argsValid (.togReg 8 ⟨.A, .high⟩) = false ∧
    Instr.argsValid (.togMem 8 ⟨.A, .full⟩) = false ∧
    Instr.argsValid (.togMem 0 ⟨.A, .word⟩) = false ∧
    Instr.argsValid (.setReg 8 ⟨.A, .high⟩) = false ∧
    Instr.argsValid (.setMem 8 ⟨.A, .full⟩) = false ∧
    Instr.argsValid (.setMem 0 ⟨.A, .word⟩) = false ∧
    Instr.argsValid (.resReg 8 ⟨.A, .high⟩) = false ∧
    Instr.argsValid (.resMem 8 ⟨.A, .full⟩) = false ∧
    Instr.argsValid (.resMem 0 ⟨.A, .word⟩) = false := by decide


/-! ## Decoding: every row of R119, its opcode and immediate written out -/

theorem test_decode_general :
    decode true [0x00, 0x00] = .ok (.nop, []) ∧
    decode true [0x00, 0x01] = .ok (.stop, []) ∧
    decode true [0x00, 0x02] = .ok (.halt, []) ∧
    decode true [0x15, 0x03] = .ok (.sec 0x15, []) ∧
    decode true [0x00, 0x04] = .ok (.cec, []) ∧
    decode true [0x00, 0x05] = .ok (.di, []) ∧
    decode true [0x00, 0x06] = .ok (.ei, []) ∧
    decode true [0x00, 0x07] = .ok (.daa, []) ∧
    decode true [0x00, 0x08] = .ok (.scf, []) ∧
    decode true [0x00, 0x09] = .ok (.ccf, []) ∧
    decode true [0xA0, 0x0A] = .ok (.flg 0xA, []) ∧
    decode true [0xA0, 0x0B] = .ok (.stf 0xA, []) ∧
    decode true [0xA0, 0x0C] = .ok (.clf 0xA, []) := by
  refine ⟨rfl, rfl, rfl, rfl, rfl, rfl, rfl, rfl, rfl, rfl, rfl, rfl, rfl⟩

theorem test_decode_data_transfer :
    decode true [0x50, 0x10, 0x44, 0x33] = .ok (.ldImm ⟨.B, .word⟩ 0x3344, []) ∧
    decode true [0x50, 0x11, 0x44, 0x33, 0x22, 0x11] = .ok (.ldAbs ⟨.B, .word⟩ 0x11223344, []) ∧
    decode true [0x58, 0x12] = .ok (.ldInd ⟨.B, .word⟩ ⟨.C, .full⟩, []) ∧
    decode true [0x50, 0x13, 0x44, 0x33] = .ok (.ldhAbs ⟨.B, .word⟩ 0x3344, []) ∧
    decode true [0x59, 0x14] = .ok (.ldhInd ⟨.B, .word⟩ ⟨.C, .word⟩, []) ∧
    decode true [0xB0, 0x15, 0x05] = .ok (.ldpAbs ⟨.C, .low⟩ 0x5, []) ∧
    decode true [0xBE, 0x16] = .ok (.ldpInd ⟨.C, .low⟩ ⟨.D, .high⟩, []) ∧
    decode true [0x06, 0x17, 0x44, 0x33, 0x22, 0x11] = .ok (.stAbs 0x11223344 ⟨.B, .high⟩, []) ∧
    decode true [0x46, 0x18] = .ok (.stInd ⟨.B, .full⟩ ⟨.B, .high⟩, []) ∧
    decode true [0x06, 0x19, 0x44, 0x33] = .ok (.sthAbs 0x3344 ⟨.B, .high⟩, []) ∧
    decode true [0xD6, 0x1A] = .ok (.sthInd ⟨.D, .word⟩ ⟨.B, .high⟩, []) ∧
    decode true [0x0E, 0x1B, 0x05] = .ok (.stpAbs 0x5 ⟨.D, .high⟩, []) ∧
    decode true [0xBE, 0x1C] = .ok (.stpInd ⟨.C, .low⟩ ⟨.D, .high⟩, []) ∧
    decode true [0x56, 0x1D] = .ok (.mv ⟨.B, .word⟩ ⟨.B, .high⟩, []) ∧
    decode true [0x40, 0x1E] = .ok (.pop ⟨.B, .full⟩, []) ∧
    decode true [0x08, 0x1F] = .ok (.push ⟨.C, .full⟩, []) := by
  refine ⟨rfl, rfl, rfl, rfl, rfl, rfl, rfl, rfl, rfl, rfl, rfl, rfl, rfl, rfl, rfl, rfl⟩

theorem test_decode_control_transfer :
    decode true [0x90, 0x20, 0x44, 0x33, 0x22, 0x11] = .ok (.jmpImm .zs 0x11223344, []) ∧
    decode true [0x98, 0x21] = .ok (.jmpReg .zs ⟨.C, .full⟩, []) ∧
    decode true [0x90, 0x22, 0x44, 0x33] = .ok (.jpb .zs 0x3344, []) ∧
    decode true [0x90, 0x23, 0x44, 0x33, 0x22, 0x11] = .ok (.call .zs 0x11223344, []) ∧
    decode true [0x15, 0x24] = .ok (.intVec 0x15, []) ∧
    decode true [0x90, 0x25] = .ok (.ret .zs, []) ∧
    decode true [0x00, 0x26] = .ok (.reti, []) := by
  refine ⟨rfl, rfl, rfl, rfl, rfl, rfl, rfl⟩

theorem test_decode_arithmetic :
    decode true [0x50, 0x30] = .ok (.incReg ⟨.B, .word⟩, []) ∧
    decode true [0x40, 0x31] = .ok (.incMem ⟨.B, .full⟩, []) ∧
    decode true [0x50, 0x32] = .ok (.decReg ⟨.B, .word⟩, []) ∧
    decode true [0x40, 0x33] = .ok (.decMem ⟨.B, .full⟩, []) ∧
    decode true [0x80, 0x34, 0x44, 0x33, 0x22, 0x11] = .ok (.addImm ⟨.C, .full⟩ 0x11223344, []) ∧
    decode true [0x50, 0x35, 0x44, 0x33, 0x22, 0x11] = .ok (.addAbs ⟨.B, .word⟩ 0x11223344, []) ∧
    decode true [0x58, 0x36] = .ok (.addInd ⟨.B, .word⟩ ⟨.C, .full⟩, []) ∧
    decode true [0xE0, 0x37, 0xA7] = .ok (.adcImm ⟨.D, .high⟩ 0xa7, []) ∧
    decode true [0x50, 0x38, 0x44, 0x33, 0x22, 0x11] = .ok (.adcAbs ⟨.B, .word⟩ 0x11223344, []) ∧
    decode true [0x58, 0x39] = .ok (.adcInd ⟨.B, .word⟩ ⟨.C, .full⟩, []) ∧
    decode true [0x30, 0x3A, 0xA7] = .ok (.subImm ⟨.A, .low⟩ 0xa7, []) ∧
    decode true [0x50, 0x3B, 0x44, 0x33, 0x22, 0x11] = .ok (.subAbs ⟨.B, .word⟩ 0x11223344, []) ∧
    decode true [0x58, 0x3C] = .ok (.subInd ⟨.B, .word⟩ ⟨.C, .full⟩, []) ∧
    decode true [0x00, 0x3D, 0x44, 0x33, 0x22, 0x11] = .ok (.sbcImm ⟨.A, .full⟩ 0x11223344, []) ∧
    decode true [0x50, 0x3E, 0x44, 0x33, 0x22, 0x11] = .ok (.sbcAbs ⟨.B, .word⟩ 0x11223344, []) ∧
    decode true [0x58, 0x3F] = .ok (.sbcInd ⟨.B, .word⟩ ⟨.C, .full⟩, []) := by
  refine ⟨rfl, rfl, rfl, rfl, rfl, rfl, rfl, rfl, rfl, rfl, rfl, rfl, rfl, rfl, rfl, rfl⟩

theorem test_decode_bitwise :
    decode true [0x90, 0x40, 0x44, 0x33] = .ok (.andImm ⟨.C, .word⟩ 0x3344, []) ∧
    decode true [0x50, 0x41, 0x44, 0x33, 0x22, 0x11] = .ok (.andAbs ⟨.B, .word⟩ 0x11223344, []) ∧
    decode true [0x58, 0x42] = .ok (.andInd ⟨.B, .word⟩ ⟨.C, .full⟩, []) ∧
    decode true [0x70, 0x43, 0xA7] = .ok (.orImm ⟨.B, .low⟩ 0xa7, []) ∧
    decode true [0x50, 0x44, 0x44, 0x33, 0x22, 0x11] = .ok (.orAbs ⟨.B, .word⟩ 0x11223344, []) ∧
    decode true [0x58, 0x45] = .ok (.orInd ⟨.B, .word⟩ ⟨.C, .full⟩, []) ∧
    decode true [0xC0, 0x46, 0x44, 0x33, 0x22, 0x11] = .ok (.xorImm ⟨.D, .full⟩ 0x11223344, []) ∧
    decode true [0x50, 0x47, 0x44, 0x33, 0x22, 0x11] = .ok (.xorAbs ⟨.B, .word⟩ 0x11223344, []) ∧
    decode true [0x58, 0x48] = .ok (.xorInd ⟨.B, .word⟩ ⟨.C, .full⟩, []) ∧
    decode true [0x50, 0x4C] = .ok (.notReg ⟨.B, .word⟩, []) ∧
    decode true [0x40, 0x4D] = .ok (.notMem ⟨.B, .full⟩, []) := by
  refine ⟨rfl, rfl, rfl, rfl, rfl, rfl, rfl, rfl, rfl, rfl, rfl⟩

theorem test_decode_comparison :
    decode true [0xB0, 0x50, 0xA7] = .ok (.cmpImm ⟨.C, .low⟩ 0xa7, []) ∧
    decode true [0x50, 0x51, 0x44, 0x33, 0x22, 0x11] = .ok (.cmpAbs ⟨.B, .word⟩ 0x11223344, []) ∧
    decode true [0x58, 0x52] = .ok (.cmpInd ⟨.B, .word⟩ ⟨.C, .full⟩, []) := by
  refine ⟨rfl, rfl, rfl⟩

theorem test_decode_shifts :
    decode true [0x50, 0x60] = .ok (.slaReg ⟨.B, .word⟩, []) ∧
    decode true [0x40, 0x61] = .ok (.slaMem ⟨.B, .full⟩, []) ∧
    decode true [0x50, 0x62] = .ok (.sraReg ⟨.B, .word⟩, []) ∧
    decode true [0x40, 0x63] = .ok (.sraMem ⟨.B, .full⟩, []) ∧
    decode true [0x50, 0x64] = .ok (.srlReg ⟨.B, .word⟩, []) ∧
    decode true [0x40, 0x65] = .ok (.srlMem ⟨.B, .full⟩, []) ∧
    decode true [0x50, 0x66] = .ok (.rlReg ⟨.B, .word⟩, []) ∧
    decode true [0x40, 0x67] = .ok (.rlMem ⟨.B, .full⟩, []) ∧
    decode true [0x50, 0x68] = .ok (.rlcReg ⟨.B, .word⟩, []) ∧
    decode true [0x40, 0x69] = .ok (.rlcMem ⟨.B, .full⟩, []) ∧
    decode true [0x50, 0x6A] = .ok (.rrReg ⟨.B, .word⟩, []) ∧
    decode true [0x40, 0x6B] = .ok (.rrMem ⟨.B, .full⟩, []) ∧
    decode true [0x50, 0x6C] = .ok (.rrcReg ⟨.B, .word⟩, []) ∧
    decode true [0x40, 0x6D] = .ok (.rrcMem ⟨.B, .full⟩, []) := by
  refine ⟨rfl, rfl, rfl, rfl, rfl, rfl, rfl, rfl, rfl, rfl, rfl, rfl, rfl, rfl⟩

theorem test_decode_bits :
    decode true [0x50, 0x70, 0x05] = .ok (.bitReg 0x05 ⟨.B, .word⟩, []) ∧
    decode true [0x40, 0x71, 0x05] = .ok (.bitMem 0x05 ⟨.B, .full⟩, []) ∧
    decode true [0x50, 0x72, 0x05] = .ok (.togReg 0x05 ⟨.B, .word⟩, []) ∧
    decode true [0x40, 0x73, 0x05] = .ok (.togMem 0x05 ⟨.B, .full⟩, []) ∧
    decode true [0x50, 0x74, 0x05] = .ok (.setReg 0x05 ⟨.B, .word⟩, []) ∧
    decode true [0x40, 0x75, 0x05] = .ok (.setMem 0x05 ⟨.B, .full⟩, []) ∧
    decode true [0x50, 0x76, 0x05] = .ok (.resReg 0x05 ⟨.B, .word⟩, []) ∧
    decode true [0x40, 0x77, 0x05] = .ok (.resMem 0x05 ⟨.B, .full⟩, []) := by
  refine ⟨rfl, rfl, rfl, rfl, rfl, rfl, rfl, rfl⟩


theorem test_decode_refuses :
    decode true [0x00, 0x0D] = .error .invalidOpcode ∧ decode true [0x00, 0x78] = .error .invalidOpcode ∧
    decode true [0x01, 0x00] = .error .invalidOpcode ∧ decode false [0x01, 0x00] = .ok (.nop, []) ∧
    decode true [0x00] = .error .truncated ∧ decode true [0x00, 0x20, 0x00] = .error .truncated := by
  refine ⟨rfl, rfl, rfl, rfl, rfl, rfl⟩

theorem test_decodeTableWord :
    decodeTableWord 48 0x123456782000 = some (.jmpImm .nc 0x12345678) ∧ decodeTableWord 16 0x2000 = some (.jmpImm .nc 0) ∧
    decodeTableWord 16 0x1278 = some (.ldInd ⟨.B, .low⟩ ⟨.C, .full⟩) ∧ decodeTableWord 16 0x0D00 = none := by
  refine ⟨rfl, rfl, rfl, rfl⟩

theorem test_withFetchWord_runs :
    after (State.reset.withFetchWord 16 0x0315) (fun t => t.ec == 0x15 && t.pc == 0x3002) = true ∧
    after (State.reset.withFetchWord 48 0x123456782000) (fun t => t.pc == 0x12345678) = true := by decide

/-! ## One frame per instruction -/

theorem test_nop_G1 :
    after (start [0x00, 0x00] State.reset)
      (fun t => t.pc == 0x3002 && t.f == 0x0) = true := by decide

theorem test_stop_G2 :
    after (start [0x00, 0x01] State.reset)
      (fun t => t.f == 0x1 && t.pc == 0x3002) = true := by decide

theorem test_halt_G3 :
    after (start [0x00, 0x02] State.reset)
      (fun t => t.f == 0x2 && t.pc == 0x3002) = true := by decide

theorem test_sec_G4 :
    after (start [0x08, 0x03] State.reset)
      (fun t => t.ec == 0x8 && t.pc == 0x3002 && t.f == 0x0) = true := by decide

theorem test_cec_G6 :
    after (start [0x00, 0x04] { State.reset with ec := 0x4 })
      (fun t => t.ec == 0x0 && t.pc == 0x3002 && t.f == 0x0) = true := by decide

theorem test_di_G7 :
    after (start [0x00, 0x05] { State.reset with ime := true })
      (fun t => t.ime == false && t.pc == 0x3002 && t.f == 0x0) = true := by decide

theorem test_ei_G8 :
    after (start [0x00, 0x06] State.reset)
      (fun t => t.ime == true && t.pc == 0x3002 && t.f == 0x0) = true := by decide

theorem test_daa_G10 :
    after (start [0x00, 0x07] { State.reset with a := 0x9a })
      (fun t => t.a == 0x0 && t.pc == 0x3002 && t.f == 0x94) = true := by decide

theorem test_scf_G14 :
    after (start [0x00, 0x08] { State.reset with f := 0xec })
      (fun t => t.pc == 0x3002 && t.f == 0x9c) = true := by decide

theorem test_ccf_G16 :
    after (start [0x00, 0x09] State.reset)
      (fun t => t.pc == 0x3002 && t.f == 0x10) = true := by decide

theorem test_flg_G20 :
    after (start [0x30, 0x0A] { State.reset with f := 0x80000 })
      (fun t => t.pc == 0x3002 && t.f == 0x80000) = true := by decide

theorem test_stf_G17 :
    after (start [0x00, 0x0B] State.reset)
      (fun t => t.f == 0x10000 && t.pc == 0x3002) = true := by decide

theorem test_clf_G19 :
    after (start [0xF0, 0x0C] { State.reset with f := 0x80010000 })
      (fun t => t.f == 0x10000 && t.pc == 0x3002) = true := by decide

theorem test_ldImm_T1 :
    after (start [0x00, 0x10, 0x78, 0x56, 0x34, 0x12] State.reset)
      (fun t => t.a == 0x12345678 && t.pc == 0x3006 && t.f == 0x0) = true := by decide

theorem test_ldAbs_T5 :
    after (start [0x00, 0x11, 0x00, 0x31, 0x00, 0x00] { State.reset with mem := [(0x3100, 0x78), (0x3101, 0x56), (0x3102, 0x34), (0x3103, 0x12)] })
      (fun t => t.a == 0x12345678 && t.pc == 0x3006 && t.f == 0x0) = true := by decide

theorem test_ldInd_T7 :
    after (start [0xB4, 0x12] { State.reset with b := 0x3103, mem := [(0x3100, 0x78), (0x3101, 0x56), (0x3102, 0x34), (0x3103, 0x12)] })
      (fun t => t.c == 0x12 && t.pc == 0x3002 && t.f == 0x0) = true := by decide

theorem test_ldhAbs_T9 :
    after (start [0x10, 0x13, 0x10, 0x00] { State.reset with mem := [(0xFFFF0010, 0xCD), (0xFFFF0011, 0xAB)] })
      (fun t => t.a == 0xabcd && t.pc == 0x3004 && t.f == 0x0) = true := by decide

theorem test_ldhInd_T10 :
    after (start [0x05, 0x14] { State.reset with b := 0x12340010, mem := [(0xFFFF0010, 0xCD), (0xFFFF0011, 0xAB), (0xFFFF0012, 0x01), (0xFFFF0013, 0x02)] })
      (fun t => t.a == 0x201abcd && t.pc == 0x3002 && t.f == 0x0) = true := by decide

theorem test_ldpAbs_T11 :
    after (start [0x30, 0x15, 0x80] { State.reset with mem := [(0xFFFFFF80, 0x5A)] })
      (fun t => t.a == 0x5a && t.pc == 0x3003 && t.f == 0x0) = true := by decide

theorem test_ldpInd_T12 :
    after (start [0x2B, 0x16] { State.reset with c := 0xff, mem := [(0xFFFFFFFF, 0xA5)] })
      (fun t => t.a == 0xa500 && t.pc == 0x3002 && t.f == 0x0) = true := by decide

theorem test_stAbs_T13 :
    after (start [0x00, 0x17, 0x00, 0x00, 0x00, 0x80] { State.reset with a := 0x12345678 })
      (fun t => t.pc == 0x3006 && t.f == 0x0 && t.byte 0x80000000 == 0x78 && t.byte 0x80000001 == 0x56) = true := by decide

theorem test_stInd_T15 :
    after (start [0x8D, 0x18] { State.reset with c := 0x80000001, d := 0x1234abcd })
      (fun t => t.pc == 0x3002 && t.f == 0x0 && t.byte 0x80000001 == 0xCD && t.byte 0x80000002 == 0xAB) = true := by decide

theorem test_sthAbs_T16 :
    after (start [0x05, 0x19, 0xFF, 0xFE] { State.reset with b := 0x1122 })
      (fun t => t.pc == 0x3004 && t.f == 0x0 && t.byte 0xFFFFFEFF == 0x22 && t.byte 0xFFFFFF00 == 0x11) = true := by decide

theorem test_sthInd_T17 :
    after (start [0x17, 0x1A] { State.reset with a := 0x20, b := 0x77 })
      (fun t => t.pc == 0x3002 && t.f == 0x0 && t.byte 0xFFFF0020 == 0x77) = true := by decide

theorem test_stpAbs_T18 :
    after (start [0x03, 0x1B, 0x00] { State.reset with a := 0x99 })
      (fun t => t.pc == 0x3003 && t.f == 0x0 && t.byte 0xFFFFFF00 == 0x99) = true := by decide

theorem test_stpInd_T19 :
    after (start [0xBE, 0x1C] { State.reset with c := 0x10, d := 0x4400 })
      (fun t => t.pc == 0x3002 && t.f == 0x0 && t.byte 0xFFFFFF10 == 0x44) = true := by decide

theorem test_mv_T20 :
    after (start [0x04, 0x1D] { State.reset with a := 0x1, b := 0xcafebabe })
      (fun t => t.a == 0xcafebabe && t.pc == 0x3002 && t.f == 0x0) = true := by decide

theorem test_pop_T25 :
    after (start [0x40, 0x1E] { State.reset with sp := 0xfffefff8, mem := [(0xFFFEFFF8, 0x78), (0xFFFEFFF9, 0x56), (0xFFFEFFFA, 0x34), (0xFFFEFFFB, 0x12)] })
      (fun t => t.b == 0x12345678 && t.sp == 0xfffefffc && t.pc == 0x3002 && t.f == 0x0) = true := by decide

theorem test_push_T24 :
    after (start [0x00, 0x1F] { State.reset with a := 0x12345678 })
      (fun t => t.sp == 0xfffefff8 && t.pc == 0x3002 && t.f == 0x0 && t.byte 0xFFFEFFF8 == 0x78 && t.byte 0xFFFEFFF9 == 0x56) = true := by decide

theorem test_jmpImm_J2 :
    after (start [0x90, 0x20, 0x00, 0x40, 0x00, 0x00] { State.reset with f := 0x80 })
      (fun t => t.pc == 0x4000 && t.f == 0x80) = true := by decide

theorem test_jmpReg_J12 :
    after (start [0x14, 0x21] { State.reset with b := 0xc0000000, f := 0x80 })
      (fun t => t.pc == 0x3002 && t.f == 0x80) = true := by decide

theorem test_jpb_J13 :
    after (start [0x00, 0x22, 0xFC, 0xFF] State.reset)
      (fun t => t.pc == 0x3000 && t.f == 0x0) = true := by decide

theorem test_call_J17 :
    after (start [0x00, 0x23, 0x00, 0x40, 0x00, 0x00] State.reset)
      (fun t => t.sp == 0xfffefff8 && t.pc == 0x4000 && t.f == 0x0 && t.byte 0xFFFEFFF8 == 0x06 && t.byte 0xFFFEFFF9 == 0x30) = true := by decide

theorem test_intVec_J23 :
    after (start [0x02, 0x24] { State.reset with ime := true, intFlags := 0x4, intEnable := 0x0, f := 0x20 })
      (fun t => t.sp == 0xfffefff8 && t.pc == 0x1200 && t.f == 0x20 && t.byte 0xFFFEFFF8 == 0x02 && t.byte 0xFFFEFFF9 == 0x30) = true := by decide

theorem test_ret_J25 :
    after (start [0x10, 0x25] { State.reset with sp := 0xfffefff8, f := 0x80, mem := [(0xFFFEFFF8, 0x12), (0xFFFEFFF9, 0x30), (0xFFFEFFFA, 0x00), (0xFFFEFFFB, 0x00)] })
      (fun t => t.pc == 0x3002 && t.f == 0x80) = true := by decide

theorem test_reti_J28 :
    after (start [0x00, 0x26] { State.reset with sp := 0xfffefff8, mem := [(0xFFFEFFF8, 0x06), (0xFFFEFFF9, 0x30), (0xFFFEFFFA, 0x00), (0xFFFEFFFB, 0x00)] })
      (fun t => t.sp == 0xfffefffc && t.ime == true && t.pc == 0x3006 && t.f == 0x0) = true := by decide

theorem test_incReg_A2 :
    after (start [0x30, 0x30] { State.reset with a := 0xff, f := 0x10 })
      (fun t => t.a == 0x0 && t.pc == 0x3002 && t.f == 0xb4) = true := by decide

theorem test_incMem_A10 :
    after (start [0x40, 0x31] { State.reset with b := 0x80000000, mem := [(0x80000000, 0xFF), (0x80000001, 0x77)] })
      (fun t => t.pc == 0x3002 && t.f == 0xa4 && t.byte 0x80000000 == 0x00) = true := by decide

theorem test_decReg_A6 :
    after (start [0x30, 0x32] { State.reset with a := 0x10 })
      (fun t => t.a == 0xf && t.pc == 0x3002 && t.f == 0x64) = true := by decide

theorem test_decMem_A11 :
    after (start [0x40, 0x33] { State.reset with b := 0x80000000, mem := [(0x80000000, 0x00)] })
      (fun t => t.pc == 0x3002 && t.f == 0x64 && t.byte 0x80000000 == 0xFF) = true := by decide

theorem test_addImm_A15 :
    after (start [0x30, 0x34, 0x01] { State.reset with a := 0xff })
      (fun t => t.a == 0x0 && t.pc == 0x3003 && t.f == 0xb4) = true := by decide

/-- Hand calculation from R220 and R226 (the vectors of this form are 32-bit and leave `H` open). -/
theorem test_addAbs_word :
    after (start [0x10, 0x35, 0x00, 0x31, 0x00, 0x00] { State.reset with a := 0x77770005, mem := [(0x3100, 0xFB), (0x3101, 0xFF)] })
      (fun t => t.a == 0x77770000 && t.pc == 0x3006 && t.f == 0xb4) = true := by decide

theorem test_addInd_A24 :
    after (start [0x78, 0x36] { State.reset with b := 0x1, c := 0x3100, mem := [(0x3100, 0x7F)] })
      (fun t => t.b == 0x80 && t.pc == 0x3002 && t.f == 0x20) = true := by decide

theorem test_adcImm_A25 :
    after (start [0x30, 0x37, 0x00] { State.reset with a := 0xff, f := 0x10 })
      (fun t => t.a == 0x0 && t.pc == 0x3003 && t.f == 0xb4) = true := by decide

theorem test_adcAbs_A30 :
    after (start [0x90, 0x38, 0x00, 0x31, 0x00, 0x00] { State.reset with c := 0xff, f := 0x10, mem := [(0x3100, 0x00), (0x3101, 0x01)] })
      (fun t => t.c == 0x200 && t.pc == 0x3006 && t.f == 0x0) = true := by decide

theorem test_adcInd_A31 :
    after (start [0xF0, 0x39] { State.reset with a := 0x3100, d := 0x10, f := 0x10, mem := [(0x3100, 0x0F)] })
      (fun t => t.d == 0x20 && t.pc == 0x3002 && t.f == 0x20) = true := by decide

theorem test_subImm_A33 :
    after (start [0x30, 0x3A, 0x01] { State.reset with a := 0x0 })
      (fun t => t.a == 0xff && t.pc == 0x3003 && t.f == 0x7c) = true := by decide

theorem test_subAbs_A39 :
    after (start [0x50, 0x3B, 0x00, 0x31, 0x00, 0x00] { State.reset with b := 0x100, mem := [(0x3100, 0x01), (0x3101, 0x00)] })
      (fun t => t.b == 0xff && t.pc == 0x3006 && t.f == 0x44) = true := by decide

theorem test_subInd_A40 :
    after (start [0xBC, 0x3C] { State.reset with c := 0x5, d := 0x3100, mem := [(0x3100, 0x06)] })
      (fun t => t.c == 0xff && t.pc == 0x3002 && t.f == 0x7c) = true := by decide

theorem test_sbcImm_A41 :
    after (start [0x30, 0x3D, 0x00] { State.reset with a := 0x0, f := 0x10 })
      (fun t => t.a == 0xff && t.pc == 0x3003 && t.f == 0x7c) = true := by decide

theorem test_sbcAbs_A46 :
    after (start [0x10, 0x3E, 0x00, 0x31, 0x00, 0x00] { State.reset with a := 0x0, f := 0x10, mem := [(0x3100, 0xFF), (0x3101, 0xFF)] })
      (fun t => t.pc == 0x3006 && t.f == 0xf4) = true := by decide

theorem test_sbcInd_A47 :
    after (start [0x78, 0x3F] { State.reset with b := 0x20, c := 0x3100, f := 0x10, mem := [(0x3100, 0x10)] })
      (fun t => t.b == 0xf && t.pc == 0x3002 && t.f == 0x64) = true := by decide

theorem test_andImm_B2 :
    after (start [0x30, 0x40, 0x0F] { State.reset with a := 0xf0, f := 0x58 })
      (fun t => t.a == 0x0 && t.pc == 0x3003 && t.f == 0xa4) = true := by decide

theorem test_andAbs_B3 :
    after (start [0x10, 0x41, 0x00, 0x31, 0x00, 0x00] { State.reset with a := 0xffffffff, mem := [(0x3100, 0x0F), (0x3101, 0xF0)] })
      (fun t => t.a == 0xfffff00f && t.pc == 0x3006 && t.f == 0x24) = true := by decide

theorem test_andInd_B4 :
    after (start [0x78, 0x42] { State.reset with b := 0xaa, c := 0x3100, mem := [(0x3100, 0x0F)] })
      (fun t => t.b == 0xa && t.pc == 0x3002 && t.f == 0x24) = true := by decide

theorem test_orImm_B5 :
    after (start [0x30, 0x43, 0x0F] { State.reset with a := 0xf0, f := 0x78 })
      (fun t => t.a == 0xff && t.pc == 0x3003 && t.f == 0x4) = true := by decide

theorem test_orAbs_B7 :
    after (start [0x90, 0x44, 0x00, 0x31, 0x00, 0x00] { State.reset with c := 0x100, mem := [(0x3100, 0x01), (0x3101, 0x00)] })
      (fun t => t.c == 0x101 && t.pc == 0x3006 && t.f == 0x4) = true := by decide

theorem test_orInd_B8 :
    after (start [0xF0, 0x45] { State.reset with a := 0x3100, d := 0x80, mem := [(0x3100, 0x01)] })
      (fun t => t.d == 0x81 && t.pc == 0x3002 && t.f == 0x4) = true := by decide

theorem test_xorImm_B10 :
    after (start [0x00, 0x46, 0x78, 0x56, 0x34, 0x12] { State.reset with a := 0x12345678, f := 0x78 })
      (fun t => t.a == 0x0 && t.pc == 0x3006 && t.f == 0x84) = true := by decide

theorem test_xorAbs_B11 :
    after (start [0x60, 0x47, 0x00, 0x31, 0x00, 0x00] { State.reset with b := 0xff00, mem := [(0x3100, 0x0F)] })
      (fun t => t.b == 0xf000 && t.pc == 0x3006 && t.f == 0x4) = true := by decide

theorem test_xorInd_B12 :
    after (start [0xBC, 0x48] { State.reset with c := 0x1, d := 0x3100, mem := [(0x3100, 0x03)] })
      (fun t => t.c == 0x2 && t.pc == 0x3002 && t.f == 0x0) = true := by decide

theorem test_notReg_B14 :
    after (start [0x30, 0x4C] { State.reset with a := 0x123456ff, f := 0x9c })
      (fun t => t.a == 0x12345600 && t.pc == 0x3002 && t.f == 0xfc) = true := by decide

theorem test_notMem_B16 :
    after (start [0x40, 0x4D] { State.reset with b := 0x80000000, mem := [(0x80000000, 0x0F)] })
      (fun t => t.pc == 0x3002 && t.f == 0x60 && t.byte 0x80000000 == 0xF0) = true := by decide

theorem test_cmpImm_C1 :
    after (start [0x30, 0x50, 0x10] { State.reset with a := 0xf, f := 0x4 })
      (fun t => t.pc == 0x3003 && t.f == 0x5c) = true := by decide

theorem test_cmpAbs_C9 :
    after (start [0x50, 0x51, 0x00, 0x31, 0x00, 0x00] { State.reset with b := 0x1234, mem := [(0x3100, 0x34), (0x3101, 0x12)] })
      (fun t => t.pc == 0x3006 && t.f == 0xc0) = true := by decide

theorem test_cmpInd_C10 :
    after (start [0xBC, 0x52] { State.reset with c := 0x1, d := 0x3100, mem := [(0x3100, 0xFF)] })
      (fun t => t.pc == 0x3002 && t.f == 0x70) = true := by decide

theorem test_slaReg_S2 :
    after (start [0x30, 0x60] { State.reset with a := 0x80 })
      (fun t => t.a == 0x0 && t.pc == 0x3002 && t.f == 0x94) = true := by decide

theorem test_slaMem_S5 :
    after (start [0x40, 0x61] { State.reset with b := 0x80000000, mem := [(0x80000000, 0x40)] })
      (fun t => t.pc == 0x3002 && t.f == 0x0 && t.byte 0x80000000 == 0x80) = true := by decide

theorem test_sraReg_S7 :
    after (start [0x30, 0x62] { State.reset with a := 0x1 })
      (fun t => t.a == 0x0 && t.pc == 0x3002 && t.f == 0x94) = true := by decide

theorem test_sraMem_S10 :
    after (start [0x40, 0x63] { State.reset with b := 0x80000000, mem := [(0x80000000, 0x80)] })
      (fun t => t.pc == 0x3002 && t.f == 0x4 && t.byte 0x80000000 == 0xC0) = true := by decide

theorem test_srlReg_S12 :
    after (start [0x30, 0x64] { State.reset with a := 0x1 })
      (fun t => t.a == 0x0 && t.pc == 0x3002 && t.f == 0x94) = true := by decide

theorem test_srlMem_S15 :
    after (start [0x40, 0x65] { State.reset with b := 0x80000000, mem := [(0x80000000, 0x80)] })
      (fun t => t.pc == 0x3002 && t.f == 0x0 && t.byte 0x80000000 == 0x40) = true := by decide

theorem test_rlReg_S18 :
    after (start [0x30, 0x66] { State.reset with a := 0x80 })
      (fun t => t.a == 0x0 && t.pc == 0x3002 && t.f == 0x94) = true := by decide

theorem test_rlMem_S22 :
    after (start [0x40, 0x67] { State.reset with b := 0x80000000, f := 0x10, mem := [(0x80000000, 0x7F)] })
      (fun t => t.pc == 0x3002 && t.f == 0x4 && t.byte 0x80000000 == 0xFF) = true := by decide

theorem test_rlcReg_S23 :
    after (start [0x30, 0x68] { State.reset with a := 0x81 })
      (fun t => t.a == 0x3 && t.pc == 0x3002 && t.f == 0x14) = true := by decide

theorem test_rlcMem_S28 :
    after (start [0x40, 0x69] { State.reset with b := 0x80000000, mem := [(0x80000000, 0xC0)] })
      (fun t => t.pc == 0x3002 && t.f == 0x14 && t.byte 0x80000000 == 0x81) = true := by decide

theorem test_rrReg_S31 :
    after (start [0x30, 0x6A] { State.reset with a := 0x1 })
      (fun t => t.a == 0x0 && t.pc == 0x3002 && t.f == 0x94) = true := by decide

theorem test_rrMem_S35 :
    after (start [0x40, 0x6B] { State.reset with b := 0x80000000, f := 0x10, mem := [(0x80000000, 0x02)] })
      (fun t => t.pc == 0x3002 && t.f == 0x4 && t.byte 0x80000000 == 0x81) = true := by decide

theorem test_rrcReg_S36 :
    after (start [0x30, 0x6C] { State.reset with a := 0x81 })
      (fun t => t.a == 0xc0 && t.pc == 0x3002 && t.f == 0x14) = true := by decide

theorem test_rrcMem_S41 :
    after (start [0x40, 0x6D] { State.reset with b := 0x80000000, mem := [(0x80000000, 0x03)] })
      (fun t => t.pc == 0x3002 && t.f == 0x14 && t.byte 0x80000000 == 0x81) = true := by decide

theorem test_bitReg_X2 :
    after (start [0x30, 0x70, 0x00] { State.reset with a := 0x80, f := 0x5c })
      (fun t => t.pc == 0x3003 && t.f == 0xbc) = true := by decide

theorem test_bitMem_X7 :
    after (start [0x40, 0x71, 0x00] { State.reset with b := 0x3100, mem := [(0x3100, 0x80)] })
      (fun t => t.pc == 0x3003 && t.f == 0xa0) = true := by decide

theorem test_togReg_X8 :
    after (start [0x30, 0x72, 0x00] { State.reset with a := 0x1 })
      (fun t => t.a == 0x0 && t.pc == 0x3003 && t.f == 0x0) = true := by decide

theorem test_togMem_X10 :
    after (start [0x40, 0x73, 0x04] { State.reset with b := 0x80000000, mem := [(0x80000000, 0x10)] })
      (fun t => t.pc == 0x3003 && t.f == 0x0 && t.byte 0x80000000 == 0x00) = true := by decide

theorem test_setReg_X11 :
    after (start [0x50, 0x74, 0x0F] { State.reset with b := 0xffff0000 })
      (fun t => t.b == 0xffff8000 && t.pc == 0x3003 && t.f == 0x0) = true := by decide

theorem test_setMem_X13 :
    after (start [0x40, 0x75, 0x07] { State.reset with b := 0xffff0010, mem := [(0xFFFF0010, 0x05)] })
      (fun t => t.pc == 0x3003 && t.f == 0x0 && t.byte 0xFFFF0010 == 0x85) = true := by decide

theorem test_resReg_X14 :
    after (start [0x30, 0x76, 0x07] { State.reset with a := 0xff, f := 0xfc })
      (fun t => t.a == 0x7f && t.pc == 0x3003 && t.f == 0xfc) = true := by decide

theorem test_resMem_X16 :
    after (start [0x40, 0x77, 0x00] { State.reset with b := 0x80000000, mem := [(0x80000000, 0xFF)] })
      (fun t => t.pc == 0x3003 && t.f == 0x0 && t.byte 0x80000000 == 0xFE) = true := by decide

/-! ## The platform inside an instruction (R6, R17, R83, R91), by hand from the cycles of R393 -/

/-- `INC [B]`: two cycles of fetch, one read, one write. The platform writes the byte in the cycle of the read: the instruction
writes over it what it computed from the old byte. -/
theorem test_incMem_platform_between_read_and_write :
    after (start [0x40, 0x31] { State.reset with
        b := 0x80000000, mem := [(0x80000000, 0x10)], platform := [[], [], [.writeByte 0x80000000 0x77]] })
      (fun t => t.byte 0x80000000 == 0x11 && t.cycles == 4) = true ∧
    after (start [0x40, 0x31] { State.reset with
        b := 0x80000000, mem := [(0x80000000, 0x10)], platform := [[], [.writeByte 0x80000000 0x77]] })
      (fun t => t.byte 0x80000000 == 0x78) = true := by decide

/-- `LD A.W, [B]`: both bytes change in the cycle of the first read, and the read sees the old low byte and the new high one. -/
theorem test_ldInd_platform_between_bytes :
    after (start [0x14, 0x12] { State.reset with
        b := 0x80000000, platform := [[], [], [.writeByte 0x80000000 0x77, .writeByte 0x80000001 0x55]] })
      (fun t => t.a == 0x5500) = true := by decide

/-- `NOP` with a line raised in its second cycle: the interrupt is entered at the end of the same frame. -/
theorem test_interrupt_raised_inside_an_instruction :
    after (start [0x00, 0x00] { State.reset with
        ime := true, intEnable := 0x20, platform := [[], [.raiseInterrupt 5]] })
      (fun t => t.pc == 0x1500 && t.intFlags == 0 && !t.ime && t.cycles == 8) = true := by decide

/-- `LDP A.L, [5]` and `STP [5], A.L` with a device there. -/
theorem test_port_with_a_device :
    after (start [0x30, 0x15, 0x05] { State.reset with ioReads := [⟨0x5A, [.raiseInterrupt 3]⟩] })
      (fun t => t.a == 0x5A && t.intFlags == 8 && t.ioReads == []) = true ∧
    after (start [0x03, 0x1B, 0x05] { State.reset with a := 0x5A, ioWrites := [[.writeByte 0x80000000 0x33]] })
      (fun t => t.byte 0xFFFFFF05 == 0 && t.byte 0x80000000 == 0x33) = true := by decide

/-! ## Witnesses: concrete states and operands that meet the hypotheses of the statements -/

/-- `B` points at RAM. -/
def ramState : State := { State.reset with b := 0x80000000 }

theorem test_DecodeInvertsEncode_witness :
    Instr.wellFormed (.ldImm ⟨.A, .low⟩ 0xFF) = true ∧ Instr.wellFormed (.cmpImm ⟨.D, .word⟩ 0xFFFF) = true ∧
    Instr.wellFormed (.xorImm ⟨.B, .full⟩ 0xFFFFFFFF) = true ∧ Instr.wellFormed (.intVec 0xFF) = true := by decide

theorem test_DecodedBytesAreTheEncoding_witness : decode true [0x08, 0x03, 0xAA] = .ok (.sec 0x08, [0xAA]) := rfl

theorem test_UnassignedTypeBytesRaise_witness :
    ∀ b ∈ [(0x0D : Byte), 0x0F, 0x27, 0x2F, 0x49, 0x4B, 0x4E, 0x4F, 0x53, 0x5F, 0x6E, 0x6F, 0x78, 0xFF],
      let s := start [0x12, b] { State.reset with sp := 0xFFFE0004 }
      (b.toNat ∈ [0x0D, 0x0E, 0x0F, 0x49, 0x4A, 0x4B, 0x4E, 0x4F, 0x6E, 0x6F] ∨ (0x27 ≤ b.toNat ∧ b.toNat ≤ 0x2F) ∨
        (0x53 ≤ b.toNat ∧ b.toNat ≤ 0x5F) ∨ 0x78 ≤ b.toNat) ∧
      s.allowsAll .execute 2 s.pc = true ∧ s.byte s.pc = 0x12 ∧ s.clock.byte (s.pc + 1) = b ∧ 0xFFFE0000 < s.sp := by
  decide

theorem test_MustBeZeroNibbles_witness :
    (∀ o ∈ [(0x0A : Byte), 0x3E, 0x77], Instr.ofOpcode true (opcodeXY o 3 1) 0 = none ∧
      Instr.ofOpcode true (opcodeXY o 3 0) 0 ≠ none) ∧
    (∀ o ∈ [(0x17 : Byte), 0x1F], Instr.ofOpcode true (opcodeXY o 1 3) 0 = none ∧
      Instr.ofOpcode true (opcodeXY o 0 3) 0 ≠ none) ∧
    (∀ o ∈ [(0x00 : Byte), 0x09, 0x26], Instr.ofOpcode true (opcodeXY o 0 1) 0 = none ∧
      Instr.ofOpcode true (opcodeXY o 1 0) 0 = none ∧ Instr.ofOpcode true (opcodeXY o 0 0) 0 ≠ none) := by decide

theorem test_ConditionsReadTheFlags_witness :
    (∀ n ∈ [(0x5 : BitVec 4), 0x8, 0xD, 0xF], (Cond.ofCode n).assigned = false) ∧
    (∀ n ∈ [(0x0 : BitVec 4), 0x4, 0x9, 0xC], (Cond.ofCode n).assigned = true) ∧
    State.reset.cond (Cond.ofCode 0x9) = false ∧ State.reset.cond (Cond.ofCode 0xC) = false ∧
    ({ State.reset with f := 0x80 } : State).cond (Cond.ofCode 0x1) = false ∧ Reg.bits ⟨.B, .full⟩ = 32 := by decide

/-- The ends of every region of R73, in the order read, write, execute. -/
theorem test_PermissionMap_witness :
    let p (adr : Addr) : Bool × Bool × Bool :=
      (State.reset.allows .read adr, State.reset.allows .write adr, State.reset.allows .execute adr)
    State.reset.cfg.restrictions = [] ∧
    p 0x00000000 = (true, false, false) ∧ p 0x00000FFF = (true, false, false) ∧ p 0x00001000 = (true, false, true) ∧
    p 0x7FFFFFFF = (true, false, true) ∧ p 0x80000000 = (true, true, false) ∧ p 0xBFFFFFFF = (true, true, false) ∧
    p 0xC0000000 = (true, true, true) ∧ p 0xEFFFFFFF = (true, true, true) ∧ p 0xF0000000 = (true, true, false) ∧
    p 0xFFFDFFFF = (true, true, false) ∧ p 0xFFFE0000 = (false, false, false) ∧ p 0xFFFEFFFF = (false, false, false) ∧
    p 0xFFFF0000 = (true, true, false) ∧ p 0xFFFFFFFF = (true, true, false) := by decide

/-- A refinement refuses its own range and no other address. -/
theorem test_PermissionMap_refined_witness :
    let s : State := { State.reset with cfg := { Config.standard with restrictions := [⟨0x90000000, 0x9000000F, true, true, false⟩] } }
    s.allows .read 0x90000000 = false ∧ s.allows .write 0x9000000F = false ∧ s.allows .read 0x90000010 = true ∧
    s.allows .write 0x8FFFFFFF = true := by decide

/-- The platform still, a write across the top of the address space: every byte is spared and plain. -/
theorem test_MixedWidthAccesses_witness :
    (∀ k, k < 4 → State.reset.spares 8 (0xFFFFFFFE + BitVec.ofNat 32 k) ∧
      State.reset.plain (0xFFFFFFFE + BitVec.ofNat 32 k)) ∧
    (let t := State.reset.writeBytes 4 0xFFFFFFFE 0x44332211
     t.mem = [(0, 0x33), (1, 0x44), (0xFFFFFFFE, 0x11), (0xFFFFFFFF, 0x22)] ∧ t.cycles = 4 ∧
       (t.readBytes 2 1).1 = 0x44 ∧ (t.readBytes 2 0xFFFFFFFF).1 = 0x3322) :=
  ⟨fun _ _ => ⟨fun v => by simp [State.actsWithin, State.reset], .inr ⟨rfl, rfl⟩⟩, by decide⟩

/-- The platform writes one byte: the byte beside it is spared, and it is spared itself before that cycle. -/
theorem test_spares_witness :
    let s : State := { State.reset with platform := [[], [.writeByte 0x80000001 0xFF]] }
    s.spares 2 0x80000000 ∧ s.spares 1 0x80000001 ∧ ¬ s.spares 2 0x80000001 := by
  simp [State.spares, State.actsWithin, State.reset]

/-- The ends of the devices' windows (R84); a device that answers, and one that takes a write. -/
theorem test_devices_witness :
    isDevice 0xEFFFFFFF = false ∧ isDevice 0xF0000000 = true ∧ isDevice 0xFFFDFFFF = true ∧
    isDevice 0xFFFE0000 = false ∧ isDevice 0xFFFFFEFF = false ∧ isDevice 0xFFFFFF00 = true ∧ isDevice 0xFFFFFFFF = true ∧
    (let s : State := { State.reset with ioReads := [⟨0x5A, [.raiseInterrupt 3]⟩], ioWrites := [[.hwError]] }
     (s.busRead 0xFFFFFFFF).1 = 0x5A ∧ (s.busRead 0xFFFFFFFF).2.intFlags = 8 ∧ (s.busRead 0xFFFFFEFF).1 = 0 ∧
       (s.busWrite 0xF0000000 1).hwError = true ∧ (s.busWrite 0xF0000000 1).byte 0xF0000000 = 0 ∧
       (s.busWrite 0xFFFE0000 1).byte 0xFFFE0000 = 1) := by decide

theorem test_DiAtOnceEiAtTheFramesEnd_witness :
    let s := State.reset
    s.faulted = false ∧ s.hwError = false ∧ s.flag .T = false ∧ s.flag .L = false ∧ s.ei = false ∧ s.ime = false := by
  decide

theorem test_LoadImmediate_witness :
    (0xFF : Word).toNat < 2 ^ Reg.bits ⟨.A, .high⟩ ∧ (0xFFFF : Word).toNat < 2 ^ Reg.bits ⟨.B, .word⟩ ∧
    (0xFFFFFFFF : Word).toNat < 2 ^ Reg.bits ⟨.C, .full⟩ := by decide

/-- The hypotheses of `LoadsFromMemory`, form by form, at the ends of the readable ranges. -/
theorem test_LoadsFromMemory_witness :
    let s : State := { State.reset with b := 0xFFFF0000, c := 0xFFFDFFFC }
    s.allowsAll .read 4 0 = true ∧ s.allowsAll .read 4 0xFFFDFFFC = true ∧ s.allowsAll .read 4 0xFFFF0000 = true ∧
    (Reg.bits ⟨.C, .full⟩ = 32 ∧ s.allowsAll .read (Reg.bytes ⟨.A, .full⟩) (s.address ⟨.C, .full⟩) = true) ∧
    (Reg.bits ⟨.C, .word⟩ = 16 ∧
      s.allowsAll .read (Reg.bytes ⟨.A, .word⟩) (highPage (s.readReg ⟨.C, .word⟩)) = true) ∧
    s.allowsAll .read 4 (highPage (0 : Half)) = true ∧ s.allowsAll .read 1 (highPage (0xFFFF : Half)) = true ∧
    s.allowsAll .read (Reg.bytes ⟨.A, .low⟩) (portPage (0xFF : Byte)) = true ∧
    (Reg.bits ⟨.A, .low⟩ = 8 ∧ Reg.bits ⟨.B, .high⟩ = 8 ∧
      s.allowsAll .read (Reg.bytes ⟨.A, .low⟩) (portPage (s.readReg ⟨.B, .high⟩)) = true) := by decide

/-- The hypotheses of `StoresToMemory`, form by form, at the ends of the writable ranges. -/
theorem test_StoresToMemory_witness :
    let s : State := { State.reset with b := 0xFFFF0000, c := 0xFFFDFFFC }
    s.allowsAll .write 4 0x80000000 = true ∧ s.allowsAll .write 4 0xFFFDFFFC = true ∧
    s.allowsAll .write 4 0xFFFF0000 = true ∧
    (Reg.bits ⟨.C, .full⟩ = 32 ∧ s.allowsAll .write (Reg.bytes ⟨.A, .full⟩) (s.address ⟨.C, .full⟩) = true) ∧
    (Reg.bits ⟨.C, .word⟩ = 16 ∧
      s.allowsAll .write (Reg.bytes ⟨.A, .word⟩) (highPage (s.readReg ⟨.C, .word⟩)) = true) ∧
    s.allowsAll .write 4 (highPage (0 : Half)) = true ∧
    s.allowsAll .write (Reg.bytes ⟨.A, .low⟩) (portPage (0xFF : Byte)) = true ∧
    (Reg.bits ⟨.B, .high⟩ = 8 ∧ Reg.bits ⟨.A, .low⟩ = 8 ∧
      s.allowsAll .write (Reg.bytes ⟨.A, .low⟩) (portPage (s.readReg ⟨.B, .high⟩)) = true) := by decide

theorem test_EffectiveAddresses_witness :
    (highPage (0xFFFF : Half)).toNat = 0xFFFFFFFF ∧ (portPage (0xFF : Byte)).toNat = 0xFFFFFFFF ∧
    Reg.bits ⟨.A, .word⟩ = 16 ∧ Reg.bits ⟨.A, .high⟩ = 8 ∧ Reg.bits ⟨.A, .full⟩ = 32 := by decide

theorem test_MvCopies_witness :
    Reg.bits ⟨.A, .word⟩ = Reg.bits ⟨.B, .word⟩ ∧ Reg.bits ⟨.A, .full⟩ ≠ Reg.bits ⟨.B, .low⟩ ∧
    State.reset.cfg.mvMixedWidth = .zeroExtendTruncate := by decide

/-- A push at the lowest `sp` that has room and at the empty stack; a pop at the full stack and at the last entry. -/
theorem test_PushAndPop_witness :
    Reg.bits ⟨.A, .full⟩ = 32 ∧
    (0xFFFE0000 < ({ State.reset with sp := 0xFFFE0004 } : State).sp) ∧ 0xFFFE0000 < State.reset.sp ∧
    (({ State.reset with sp := 0xFFFEFFF8 } : State).sp < 0xFFFEFFFC) ∧
    (({ State.reset with sp := 0xFFFE0000 } : State).sp < 0xFFFEFFFC) := by decide

theorem test_JmpGoesToItsTarget_witness :
    Cond.assigned .u5 = false ∧ Cond.assigned .zs = true ∧ Reg.bits ⟨.A, .full⟩ = 32 ∧ Reg.bits ⟨.A, .word⟩ ≠ 32 := by
  decide

theorem test_JpbIsRelative_witness :
    Cond.assigned .zs = true ∧ State.reset.cond .zs = false ∧ ({ State.reset with f := 0x80 } : State).cond .zs = true ∧
    State.reset.cond .nc = true := by decide

theorem test_CallAndInt_witness :
    Cond.assigned .cs = true ∧ State.reset.cond .cs = false ∧
    (let s : State := { State.reset with f := 0x10, sp := 0xFFFE0004 }
     s.cond .cs = true ∧ 0xFFFE0000 < s.sp ∧ (0x1F : Byte).toNat ≤ 0x1F ∧ s.cfg.intClearsIme = false) ∧
    ({ State.reset with cfg := { Config.standard with intClearsIme := true } } : State).cfg.intClearsIme = true := by
  decide

theorem test_RetAndReti_witness :
    Cond.assigned .cc = true ∧ ({ State.reset with f := 0x10 } : State).cond .cc = false ∧
    (let s : State := { State.reset with sp := 0xFFFEFFF8 }
     s.cond .cc = true ∧ s.sp < 0xFFFEFFFC) := by decide

/-- The hypotheses of the statements about the byte in memory (`IncAndDecMemory`, `NotComplements`, `ShiftsOfMemory`,
`BitTests`, `BitChangesOfMemory`). -/
theorem test_byte_in_memory_witness :
    Reg.bits ⟨.B, .full⟩ = 32 ∧ ramState.allows .read (ramState.address ⟨.B, .full⟩) = true ∧
    ramState.allows .write (ramState.address ⟨.B, .full⟩) = true ∧ (7 : Byte).toNat < 8 := by decide

/-- The hypotheses of the statements with an operand in memory (`AddAndAdc`, `SubAndSbc`, `AndOrXor`, `CmpCompares`). -/
theorem test_operand_in_memory_witness :
    Reg.bits ⟨.B, .full⟩ = 32 ∧ ramState.address ⟨.B, .full⟩ = 0x80000000 ∧
    ramState.allowsAll .read (Reg.bytes ⟨.A, .full⟩) 0x80000000 = true ∧
    ramState.allowsAll .read (Reg.bytes ⟨.A, .high⟩) 0xFFFDFFFF = true := by decide

/-- Bit numbers at the ends of their ranges (`BitTests`, `BitChangesOfRegisters`). -/
theorem test_BitTests_witness :
    (31 : Byte).toNat < Reg.bits ⟨.A, .full⟩ ∧ (15 : Byte).toNat < Reg.bits ⟨.A, .word⟩ ∧
    (7 : Byte).toNat < Reg.bits ⟨.A, .high⟩ ∧ (0 : Byte).toNat < Reg.bits ⟨.A, .low⟩ := by decide

theorem test_InvalidArgumentsTrap_witness :
    Instr.argsValid (.intVec 0x20) = false ∧ Instr.argsValid (.intVec 0x1F) = true ∧
    Instr.argsValid (.bitReg 8 ⟨.A, .low⟩) = false ∧ Instr.argsValid (.bitReg 7 ⟨.A, .low⟩) = true ∧
    Reg.bits ⟨.A, .full⟩ ≠ Reg.bits ⟨.B, .word⟩ ∧
    ({ State.reset with cfg := { Config.standard with mvMixedWidth := .invalidArgument } } : State).cfg.mvMixedWidth =
      .invalidArgument := by decide

/-- A read whose last byte lies in the stack window, and a read-modify-write on its first byte. -/
theorem test_RefusedReadsTrap_witness :
    (let i : Instr := .ldAbs ⟨.A, .full⟩ 0xFFFDFFFD
     i.argsValid = true ∧ readSite i State.reset = some (0xFFFDFFFD, 4) ∧
       State.reset.allowsAll .read 4 0xFFFDFFFD = false) ∧
    (let i : Instr := .incMem ⟨.B, .full⟩
     let s : State := { State.reset with b := 0xFFFE0000 }
     i.argsValid = true ∧ readSite i s = some (0xFFFE0000, 1) ∧ s.allowsAll .read 1 0xFFFE0000 = false) := by decide

/-- A write whose first byte is program memory, and a read-modify-write on a readable byte that may not be written. -/
theorem test_RefusedWritesTrap_witness :
    (let i : Instr := .stAbs 0x7FFFFFFF ⟨.A, .word⟩
     i.argsValid = true ∧ writeSite i State.reset = some (0x7FFFFFFF, 2) ∧
       State.reset.allowsAll .write 2 0x7FFFFFFF = false ∧ readSite i State.reset = none) ∧
    (let i : Instr := .rlMem ⟨.B, .full⟩
     let s : State := { State.reset with b := 0x7FFFFFFF }
     i.argsValid = true ∧ writeSite i s = some (0x7FFFFFFF, 1) ∧ s.allowsAll .write 1 0x7FFFFFFF = false ∧
       readSite i s = some (0x7FFFFFFF, 1) ∧ s.allowsAll .read 1 0x7FFFFFFF = true) := by decide

theorem test_StackRefusalsTrap_witness :
    (let s : State := { State.reset with sp := 0xFFFE0000 }
     ∀ i ∈ [Instr.push ⟨.A, .full⟩, .call .nc 0x4000, .intVec 0x1F],
       i.argsValid = true ∧ pushes i s = true ∧ s.sp ≤ 0xFFFE0000) ∧
    (∀ i ∈ [Instr.pop ⟨.A, .full⟩, .ret .nc, .reti],
       i.argsValid = true ∧ pops i State.reset = true ∧ 0xFFFEFFFC ≤ State.reset.sp) := by decide

/-- Boundary values of the two outcomes of an entry (`ExceptionEntry`, `FullStackEntryFaults`): the last `sp` with room, the
first without. -/
theorem test_ExceptionEntry_witness :
    0xFFFE0000 < ({ State.reset with sp := 0xFFFE0004 } : State).sp ∧
    ({ State.reset with sp := 0xFFFE0000 } : State).sp ≤ 0xFFFE0000 ∧
    ({ State.reset with faulted := true } : State).faulted = true ∧ State.reset.cfg.intClearsIme = false := by decide

/-- Both outcomes of `ExceptionsArePrecise`: on the empty stack an entry, on the full stack the double fault. -/
theorem test_ExceptionsArePrecise_witness :
    (State.reset.raised = false ∧ ∃ t, exec (.jmpImm .u5 0) State.reset = .next t ∧ t.raised = true ∧ t.faulted = false) ∧
    (let s : State := { State.reset with sp := 0xFFFE0000 }
     s.raised = false ∧ ∃ t, exec (.jmpImm .u5 0) s = .next t ∧ t.raised = true ∧ t.faulted = true) :=
  ⟨⟨rfl, _, rfl, by decide, by decide⟩, rfl, _, rfl, by decide, by decide⟩

theorem test_ControlStateHasFewWriters_witness :
    exec .stop State.reset = .next { State.reset with f := 1 } ∧
    exec (.sec 0x08) State.reset = .next { State.reset with ec := 0x08 } ∧
    exec .ei State.reset = .next { State.reset with ei := true } := ⟨rfl, rfl, rfl⟩

theorem test_StepRunsTheDecodedInstruction_witness :
    let s := start [0x00, 0x20, 0x78, 0x56, 0x34, 0x12] State.reset
    let i : Instr := .jmpImm .nc 0x12345678
    s.faulted = false ∧ s.flag .T = false ∧ s.flag .L = false ∧ i.wellFormed = true ∧
    s.allowsAll .execute i.length s.pc = true ∧
    decode s.cfg.strictZeroNibble (s.bytesSeen s.pc i.length) = .ok (i, []) :=
  ⟨by decide, by decide, by decide, by decide, by decide, rfl⟩

/-- A fetch from metadata; an opcode at the end of program memory whose immediate lies in RAM; a frame whose fetch raises. -/
theorem test_RefusedFetchesRaise_witness :
    (let s : State := { State.reset with pc := 0x00000FFF }
     s.allowsAll .execute 2 s.pc = false ∧ s.faulted = false ∧ s.flag .T = false ∧ s.flag .L = false ∧
       s.fetchDecode = .raised .invalidExecute s.beginInstruction) ∧
    (let s : State := start [0x00, 0x20] { State.reset with pc := 0x7FFFFFFE }
     s.allowsAll .execute 2 s.pc = true ∧ s.clock.byte (s.pc + 1) ++ s.byte s.pc = (0x2000 : Half) ∧
       Instr.ofOpcode s.cfg.strictZeroNibble 0x2000 0 ≠ none ∧
       s.allowsAll .execute (immBytes 0x2000) (s.pc + 2) = false) := by decide

/-- Nothing pending; lines 5 and 31 the lowest that are pending and enabled, the second with the `EI` latch set. -/
theorem test_LowestInterruptIsServiced_witness :
    State.reset.ime = false ∧ State.reset.intFlags &&& State.reset.intEnable = 0 ∧
    (let s : State := { State.reset with ime := true, intFlags := 0x24, intEnable := 0x20 }
     s.ime = true ∧ s.intFlags.getLsbD 5 = true ∧ s.intEnable.getLsbD 5 = true ∧
       (∀ j < 5, s.intFlags.getLsbD j = false ∨ s.intEnable.getLsbD j = false) ∧
       s.faulted = false ∧ s.flag .T = false ∧ s.flag .L = false ∧ s.hwError = false ∧ s.ei = false) ∧
    (let s : State := { State.reset with ime := true, ei := true, sp := 0xFFFE0004, intFlags := 0x80000000,
                                         intEnable := 0xFFFFFFFF }
     s.ime = true ∧ s.intFlags.getLsbD 31 = true ∧ s.intEnable.getLsbD 31 = true ∧
       (∀ j < 31, s.intFlags.getLsbD j = false ∨ s.intEnable.getLsbD j = false) ∧
       s.faulted = false ∧ s.flag .T = false ∧ s.flag .L = false ∧ s.hwError = false ∧ s.ei = true ∧
       0xFFFE0000 < s.sp) := by decide

theorem test_InterruptEntry_witness :
    let s : State := { State.reset with sp := 0xFFFE0004, intFlags := 0x80000001 }
    31 < 32 ∧ 0xFFFE0000 < s.sp ∧ (s.takeInterrupt 31).pc = 0x00002F00 ∧ (s.takeInterrupt 0).pc = 0x00001000 := by decide

/-- The four cases of a halted frame: nothing pending; pending with `IME` clear; pending and not enabled; enabled. -/
theorem test_HaltedFrame_witness :
    let halted : State := { State.reset with f := 0x2 }
    (halted.faulted = false ∧ halted.ei = false ∧ halted.flag .T = false ∧ halted.flag .L = true ∧
      halted.clock.intFlags = 0) ∧
    (let p := ({ halted with platform := [[.raiseInterrupt 5]] } : State).clock
     p.intFlags ≠ 0 ∧ p.ime = false) ∧
    (let p := ({ halted with ime := true, intFlags := 0x20 } : State).clock
     p.intFlags ≠ 0 ∧ p.ime = true ∧ p.intFlags &&& p.intEnable = 0) ∧
    (let p := ({ halted with ime := true, intFlags := 0x20, intEnable := 0x20 } : State).clock
     p.intFlags ≠ 0 ∧ p.ime = true ∧ p.intFlags.getLsbD 5 = true ∧ p.intEnable.getLsbD 5 = true ∧
       ∀ j < 5, p.intFlags.getLsbD j = false ∨ p.intEnable.getLsbD j = false) := by decide

theorem test_StoppedFrame_witness :
    let s : State := { State.reset with f := 0x1 }
    (s.faulted = false ∧ s.flag .T = true ∧ s.standby = []) ∧
    (let u : State := { s with standby := [⟨0x24, false⟩, ⟨0, true⟩] }
     u.faulted = false ∧ u.flag .T = true ∧
       after u (fun t => t.flag .T && t.intFlags == 0x24 && t.standby == [⟨0, true⟩] && t.cycles == 0) = true) ∧
    (let u : State := { s with ime := true, intFlags := 1, intEnable := 1, standby := [⟨0, true⟩] }
     after u (fun t => !t.flag .T && t.pc == 0x3000 && t.intFlags == 1) = true) := by decide

/-- The last `sp` with room and the full stack; no error, and one that waits; a delivery that ends the frame in the double
fault, one the frame goes on from (in the frame of `HALT`, with an interrupt on top), one nothing follows. -/
theorem test_HardwareErrorDelivery_witness :
    let s : State := { State.reset with hwError := true, sp := 0xFFFE0004 }
    (s.hwError = true ∧ s.raised = false ∧ 0xFFFE0000 < s.sp ∧ s.faulted = false ∧ s.flag .T = false ∧
      s.deliverHwError.faulted = false ∧ s.flag .L = false ∧ s.ime = false ∧ s.ei = false ∧ s.cfg.intClearsIme = false) ∧
    ({ s with raised := true } : State).raised = true ∧ State.reset.hwError = false ∧
    (let u : State := { s with sp := 0xFFFE0000 }
     u.hwError = true ∧ u.raised = false ∧ u.sp ≤ 0xFFFE0000 ∧ u.faulted = false ∧ u.flag .T = false ∧
       u.deliverHwError.faulted = true) ∧
    (let u : State := { s with f := 0x2, ime := true, ei := true, intFlags := 0x20, intEnable := 0x20,
                               cfg := { Config.standard with intClearsIme := true } }
     u.faulted = false ∧ u.flag .T = false ∧ u.deliverHwError.faulted = false ∧ u.cfg.intClearsIme = true) := by decide

/-- A step from a state of the invariant, beside a platform that writes one byte: the hypotheses of
`EveryStepKeepsTheInvariant`, and of `ProgramMemoryIsReadOnly` at the ends of its range and beside the byte written. -/
theorem test_EveryStepKeepsTheInvariant_witness :
    let s := start [0x00, 0x1F] { State.reset with platform := [[.writeByte 0x3002 0xFF]] }
    s.sound = true ∧ after s (fun t => t.sp == 0xFFFEFFF8 && t.cycles == 7 && t.byte 0x3002 == 0xFF) = true ∧
    ∀ adr ∈ [(0x00000000 : Addr), 0x3001, 0x3003, 0x7FFFFFFF], adr.toNat < 0x80000000 ∧
      ∀ v, .writeByte adr v ∉ s.actsWithin 7 := by
  refine ⟨by decide, by decide, ?_⟩
  simp [State.actsWithin, start, State.placeAtPc, State.reset]

/-- The CPU's own clearing of `IF` at an entry, no act of the platform: the hypotheses of `PlatformOwnsInterruptLines`. -/
theorem test_PlatformOwnsInterruptLines_witness :
    let s : State := { State.reset with ime := true, intFlags := 0x24, intEnable := 0x20 }
    (∀ n, s.actsWithin n = []) ∧
    after s (fun t => t.intFlags == 0x04 && t.intEnable == 0x20 && t.intFlags.getLsbD 2) = true :=
  ⟨fun n => by simp [State.actsWithin, State.reset], by decide⟩

theorem test_CyclesOfTheTable_witness :
    State.reset.raised = false ∧
    exec (.jmpImm .nc 0x4000) State.reset = .next { State.reset with pc := 0x4000, cycles := 1 } ∧
    exec (.jmpImm .zs 0x4000) State.reset = .next State.reset := ⟨rfl, rfl, rfl⟩

/-- Hand calculation from R220: `ADD` at 32 bits; `H` is left open, so only the result and the other flags are looked at. -/
theorem test_addImm_32_bits :
    (match exec (.addImm ⟨.A, .full⟩ 1) { State.reset with a := 0xFFFFFFFF } with
     | .next t => t.a == 0 && t.draws == 1
     | _ => false) = true := rfl

end Sys2Proof.Tests
end

section
/-! PROOFS. The family 10_state.md: the register codes (R23) and the values after reset (R49). -/

namespace Sys2Proof.Proofs.StateFamily

open Sys2Proof Sys2Proof.Machine

/-! ## Two-byte instructions -/

/-- R110, R111: the byte after `0xOO` in an opcode is the field `X` above the field `Y`. -/
theorem opcodeXX_append (o : Byte) (x y : BitVec 4) : opcodeXX o (x ++ y) = opcodeXY o x y :=
  (BitVec.append_assoc (x₁ := o) (x₂ := x) (x₃ := y)).symm

/-- An opcode that no immediate follows decodes to the instruction the opcode map gives it. -/
theorem decode_of_immBytes_eq_zero {strict : Bool} {o xx : Byte} {i : Instr} (rest : List Byte)
    (himm : immBytes (opcodeXX o xx) = 0) (hop : Instr.ofOpcode strict (opcodeXX o xx) 0#32 = some i) :
    decode strict (xx :: o :: rest) = .ok (i, rest) := by
  rw [opcodeXX] at himm hop
  simp [decode, himm, leValue, hop]

theorem decode_ldInd (strict : Bool) (x y : BitVec 4) (rest : List Byte) :
    decode strict ((x ++ y) :: 0x12 :: rest) = .ok (.ldInd (Reg.ofCode x) (Reg.ofCode y), rest) :=
  decode_of_immBytes_eq_zero rest (Laws.EncodeLength.imm0XX (by decide)) (by
    rw [opcodeXX_append]; simp [Instr.ofOpcode])

theorem decode_mv (strict : Bool) (x y : BitVec 4) (rest : List Byte) :
    decode strict ((x ++ y) :: 0x1D :: rest) = .ok (.mv (Reg.ofCode x) (Reg.ofCode y), rest) :=
  decode_of_immBytes_eq_zero rest (Laws.EncodeLength.imm0XX (by decide)) (by
    rw [opcodeXX_append]; simp [Instr.ofOpcode])

/-! ## The register codes -/

/-- A code names the register it is the code of, at the width of its view. -/
theorem ofCode_names {n : BitVec 4} {f : Full} {v : View} (h : n = Reg.code ⟨f, v⟩) :
    Reg.ofCode n = ⟨f, v⟩ ∧ (Reg.ofCode n).bits = v.bits := by
  subst h
  exact ⟨ofCode_code_reg _, by rw [ofCode_code_reg]⟩

/-- Settles O6: each code of the table is `Reg.code` of the register beside it, and `LD X, [Y32]` and `MV X, Y`, which have no
immediate, decode by their two fields. -/
theorem registerCodes : Obligations.RegisterCodes :=
  ⟨ofCode_names rfl, ofCode_names rfl, ofCode_names rfl, ofCode_names rfl,
   ofCode_names rfl, ofCode_names rfl, ofCode_names rfl, ofCode_names rfl,
   ofCode_names rfl, ofCode_names rfl, ofCode_names rfl, ofCode_names rfl,
   ofCode_names rfl, ofCode_names rfl, ofCode_names rfl, ofCode_names rfl,
   fun x y => ⟨decode_ldInd true x y [], decode_mv true x y []⟩⟩

/-! ## The values after reset -/

/-- R49: `PC` and `SP` start at their own addresses, the general and the internal registers at 0. -/
theorem reset_registers :
    (State.reset.pc = 0x00003000 ∧ State.reset.sp = 0xFFFEFFFC) ∧
    (∀ r, State.reset.full r = 0) ∧
    (State.reset.ip = 0 ∧ State.reset.da = 0 ∧ State.reset.sa = 0 ∧ State.reset.sd = 0 ∧ State.reset.ci = 0) := by
  refine ⟨⟨rfl, rfl⟩, fun r => ?_, rfl, rfl, rfl, rfl, rfl⟩
  cases r <;> rfl

/-- R49: no flag is set, no interrupt is pending or enabled, no exception is recorded. -/
theorem reset_flags_and_interrupts :
    (State.reset.f = 0 ∧ State.reset.intFlags = 0 ∧ State.reset.intEnable = 0) ∧
    (State.reset.ec = 0 ∧ State.reset.xd = 0) ∧ (State.reset.ime = false ∧ State.reset.ei = false) :=
  ⟨⟨rfl, rfl, rfl⟩, ⟨rfl, rfl⟩, rfl, rfl⟩

/-- Settles O9: the table of R49, its registers and its flags and interrupt registers put together. -/
theorem resetValues : Obligations.ResetValues := by
  obtain ⟨⟨hpc, hsp⟩, hfull, hip, hda, hsa, hsd, hci⟩ := reset_registers
  obtain ⟨⟨hf, hif, hie⟩, ⟨hec, hxd⟩, hime, hei⟩ := reset_flags_and_interrupts
  exact ⟨hfull .A, hfull .B, hfull .C, hfull .D, hpc, hsp, hip, hda, hsa, hsd, hci, hf, hif, hie, hec, hxd, hime, hei⟩

end Sys2Proof.Proofs.StateFamily
end

section
/-! PROOFS. The family 30_encoding.md: the type bytes that head no row of the opcode map (R119, R120). -/

namespace Sys2Proof.Proofs.EncodingFamily

open Sys2Proof Sys2Proof.Machine

/-! ## The opcode map -/

/-- R120, the whole list: the type bytes that head no row of R119. -/
abbrev HeadsNoRow (b : Byte) : Prop :=
  b.toNat ∈ [0x0D, 0x0E, 0x0F, 0x49, 0x4A, 0x4B, 0x4E, 0x4F, 0x6E, 0x6F] ∨ (0x27 ≤ b.toNat ∧ b.toNat ≤ 0x2F) ∨
    (0x53 ≤ b.toNat ∧ b.toNat ≤ 0x5F) ∨ 0x78 ≤ b.toNat

/-- The type byte of each of the 88 rows is outside the list, so the map passes every row by, whatever the nibbles, the
immediate and the reading of the zero nibbles. -/
theorem ofOpcode_eq_none_of_headsNoRow {op : Half} (h : HeadsNoRow (typeByte op)) (strict : Bool) (imm : Word) :
    Instr.ofOpcode strict op imm = none := by
  have typeByte_ne : ∀ o : Byte, ¬ HeadsNoRow o → typeByte op ≠ o := fun o ho heq => ho (heq ▸ h)
  unfold Instr.ofOpcode
  iterate 88 rw [if_neg (typeByte_ne _ (by decide))]

/-! ## Fetch and decode of an opcode that matches no row -/

/-- R79, R118: the opcode's two bytes have been fetched, two cycles have passed, and nothing has been executed. -/
def opcodeFetched (s : State) (op : Half) : State :=
  { s.clocks 2 with ip := s.pc, pc := s.pc + 2, sa := 0, da := 0, sd := 0, ci := op, xd := 0, raised := false }

@[simp] theorem opcodeFetched_sp (s : State) (op : Half) : (opcodeFetched s op).sp = s.sp := (s.clocks_onBus 2).sp

/-- R118: an opcode that matches no row ends fetch and decode at its second byte; no immediate is fetched. -/
theorem fetchDecode_of_ofOpcode_eq_none {s : State} {b0 b1 : Byte} (hexec : s.allowsAll .execute 2 s.pc = true)
    (h0 : s.byte s.pc = b0) (h1 : s.clock.byte (s.pc + 1) = b1)
    (hop : ∀ strict, Instr.ofOpcode strict (b1 ++ b0) 0 = none) :
    s.fetchDecode = .raised .invalidOpcode (opcodeFetched s (b1 ++ b0)) := by
  obtain ⟨w, t, hfetch, hw, rfl⟩ := State.fetch_opcode hexec
  rw [h0, h1] at hw
  simp only [State.fetchDecode, hfetch, hw, hop]
  rfl

/-! ## Exception entry on a stack with room -/

/-- R341: entry on a stack with room leaves the exception's code in `EC` and goes to vector 0. -/
theorem takeException_room_ec_pc {s : State} (e : Exc) (hroom : 0xFFFE0000 < s.sp) :
    (s.takeException e).ec = e.code ∧ (s.takeException e).pc = 0x00001000 := by
  have hbus := (s.takeException_onBus e (s.stackFull_false_iff.2 hroom)).1
  exact ⟨hbus.ec, hbus.pc⟩

/-- Settles O4: the two bytes form an opcode whose type byte heads no row, so fetch and decode raise when both are fetched; the
entry finds the stack pointer as it was. -/
theorem unassignedTypeBytesRaise : Obligations.UnassignedTypeBytesRaise := by
  intro s b0 b1 hrow hexec h0 h1
  have hop (strict : Bool) : Instr.ofOpcode strict (b1 ++ b0) 0 = none :=
    ofOpcode_eq_none_of_headsNoRow (op := opcodeXX b1 b0) (by rw [typeByte_opcodeXX]; exact hrow) strict 0
  refine ⟨opcodeFetched s (b1 ++ b0), fetchDecode_of_ofOpcode_eq_none hexec h0 h1 hop, rfl, rfl, rfl,
    opcodeFetched_sp s _, fun hroom => ?_⟩
  exact takeException_room_ec_pc .invalidOpcode (by rwa [opcodeFetched_sp])

end Sys2Proof.Proofs.EncodingFamily
end

section
/-! PROOFS. The family 40_general.md: `NOP`, `SEC`, `CEC`, `SCF` and `CCF` (R150, R153, R154, R158, R159) and the software flags
(R160 to R162). -/

namespace Sys2Proof.Proofs.GeneralFamily

open Sys2Proof Sys2Proof.Machine

/-! ## The bytes of an instruction -/

/-- R112, R118: an instruction takes its own length in bytes, a cycle a byte; latching its immediate costs none. -/
theorem takesBytes_length (i : Instr) (s : State) : takesBytes i i.length s := by
  refine ⟨Laws.EncodeLength.encX _ _ _, ?_, ?_⟩
  · simp [State.fetched]
  · simp [State.fetched, (s.clocks_onBus i.length).cycles]

/-- R111: an instruction without an immediate is encoded by its opcode alone, the byte after `0xOO` first. -/
theorem encode_of_opcodeXX {i : Instr} {o xx : Byte} (hop : i.opcode = opcodeXX o xx) (himm : i.immediate.1 = 0) :
    encode i = [xx, o] := by
  have hlow : i.opcode.setWidth 8 = xx := by
    rw [hop]; exact BitVec.setWidth_append_eq_right
  have hhigh : (i.opcode >>> 8).setWidth 8 = o := by
    rw [hop]; exact BitVec.setWidth_ushiftRight_eq_extractLsb.trans (typeByte_opcodeXX o xx)
  rw [encode, hlow, hhigh, himm, leBytes]

/-- R110: the same where the byte after `0xOO` is two fields. -/
theorem encode_of_opcodeXY {i : Instr} {o : Byte} {x y : BitVec 4} (hop : i.opcode = opcodeXY o x y)
    (himm : i.immediate.1 = 0) : encode i = [x ++ y, o] :=
  encode_of_opcodeXX (hop.trans (StateFamily.opcodeXX_append o x y).symm) himm

/-- R119: the row shows `0` for both fields. -/
theorem encode_of_zero_nibbles {i : Instr} {o : Byte} (hop : i.opcode = opcodeXY o 0 0) (himm : i.immediate.1 = 0) :
    encode i = [0x00, o] :=
  encode_of_opcodeXY hop himm

/-! ## What each instruction answers -/

section

variable (s : State)

theorem exec_nop : exec .nop s = .next s := rfl

theorem exec_sec (xx : Byte) : exec (.sec xx) s = .next { s with ec := xx } := rfl

theorem exec_cec : exec .cec s = .next { s with ec := 0 } := rfl

theorem exec_scf : exec .scf s = .next (s.putColumn ⟨none, some false, some false, some true, none, none⟩) := rfl

theorem exec_ccf : exec .ccf s = .next (s.putColumn ⟨none, some false, some false, some (!s.flag .C), none, none⟩) := rfl

/-- R160: `FLG` in the form of the other flag writers, a column of which only `Z` is written. -/
theorem exec_flg (k : BitVec 4) :
    exec (.flg k) s = .next (s.putColumn ⟨some (!s.f.getLsbD (16 + k.toNat)), none, none, none, none, none⟩) := rfl

theorem exec_stf (k : BitVec 4) : exec (.stf k) s = .next { s with f := putBit s.f (16 + k.toNat) true } := rfl

theorem exec_clf (k : BitVec 4) : exec (.clf k) s = .next { s with f := putBit s.f (16 + k.toNat) false } := rfl

end

/-! ## Instructions that write `F` and nothing else -/

/-- An instruction that only writes a flags column does to `F` what the column says. -/
theorem completes_of_putColumn {i : Instr} {s : State} {k : Column} (hexec : exec i s = .next (s.putColumn k))
    {z n h c sg p : FlagEffect} (hz : z.fits k.z) (hn : n.fits k.n) (hh : h.fits k.h) (hc : c.fits k.c)
    (hs : sg.fits k.s) (hp : p.fits k.p) :
    completes i s fun t => s.flagsAfter t z n h c sg p ∧ s.bytesKept t ∧ t = { s with f := t.f } :=
  ⟨_, hexec, State.flagsAfter_putColumn s k rfl hz hn hh hc hs hp, s.putColumn_byte k, s.putColumn_eq k⟩

/-- An instruction that only writes one bit of `F` keeps every other bit of it. -/
theorem completes_of_putBit {i : Instr} {s : State} {m : Nat} {b : Bool} (hm : m < 32)
    (hexec : exec i s = .next { s with f := putBit s.f m b }) :
    completes i s fun t => bitReplaced m b s.f t.f ∧ s.bytesKept t ∧ t = { s with f := t.f } :=
  ⟨_, hexec, fun j _ => putBit_getLsbD s.f m b j hm, fun _ => rfl, rfl⟩

/-- The bit that `FLG`, `STF` and `CLF` name is a bit of `F`. -/
theorem softFlag_lt (k : BitVec 4) : 16 + k.toNat < 32 := by omega

/-! ## The statements -/

/-- Settles O13: `NOP` answers the state it starts from, `SEC` and `CEC` write `EC`, `SCF` and `CCF` write a column. -/
theorem nopSecCecScfCcf : Obligations.NopSecCecScfCcf := by
  intro s
  refine ⟨takesBytes_length _ s, fun _ => takesBytes_length _ s, takesBytes_length _ s, takesBytes_length _ s,
    takesBytes_length _ s, ⟨encode_of_zero_nibbles rfl rfl, ?nop⟩, fun xx => ⟨encode_of_opcodeXX rfl rfl, ?sec⟩,
    ⟨encode_of_zero_nibbles rfl rfl, ?cec⟩, ⟨encode_of_zero_nibbles rfl rfl, ?scf⟩,
    ⟨encode_of_zero_nibbles rfl rfl, ?ccf⟩⟩
  case nop => exact ⟨s, exec_nop s, fun _ => rfl, rfl⟩
  case sec => exact ⟨_, exec_sec s xx, fun _ => rfl, rfl⟩
  case cec => exact ⟨_, exec_cec s, fun _ => rfl, rfl⟩
  case scf => exact completes_of_putColumn (exec_scf s) rfl rfl rfl rfl rfl rfl
  case ccf => exact completes_of_putColumn (exec_ccf s) rfl rfl rfl rfl rfl rfl

/-- Settles O14: `FLG` writes a column that keeps all flags but `Z`; `STF` and `CLF` write one bit of `F`. -/
theorem softwareFlags : Obligations.SoftwareFlags := by
  intro k s
  refine ⟨takesBytes_length _ s, takesBytes_length _ s, takesBytes_length _ s, ⟨encode_of_opcodeXY rfl rfl, ?flg⟩,
    ⟨encode_of_opcodeXY rfl rfl, ?stf⟩, ⟨encode_of_opcodeXY rfl rfl, ?clf⟩⟩
  case flg => exact completes_of_putColumn (exec_flg s k) rfl rfl rfl rfl rfl rfl
  case stf => exact completes_of_putBit (softFlag_lt k) (exec_stf s k)
  case clf => exact completes_of_putBit (softFlag_lt k) (exec_clf s k)

end Sys2Proof.Proofs.GeneralFamily
end

section
/-! PROOFS. The family 41_data_transfer.md: `LD X, IMM` (R171). -/

namespace Sys2Proof.Proofs.DataTransferFamily

open Sys2Proof Sys2Proof.Machine

/-! ## The bytes of an instruction with an immediate -/

/-- R111: the opcode's two bytes stand before the immediate's, the byte of the two fields first. -/
theorem encode_eq_opcodeXY_append {i : Instr} {o : Byte} {x y : BitVec 4} (hop : i.opcode = opcodeXY o x y) :
    encode i = [x ++ y, o] ++ leBytes i.immediate.1 i.immediate.2 := by
  have hXX : i.opcode = opcodeXX o (x ++ y) := hop.trans (StateFamily.opcodeXX_append o x y).symm
  have hlow : i.opcode.setWidth 8 = x ++ y := by
    rw [hXX]; exact BitVec.setWidth_append_eq_right
  have hhigh : (i.opcode >>> 8).setWidth 8 = typeByte i.opcode := BitVec.setWidth_ushiftRight_eq_extractLsb
  rw [encode, hlow, hhigh, hXX, typeByte_opcodeXX]
  rfl

/-! ## Instructions that write one view and nothing else -/

/-- R22: an instruction that only writes a view leaves every other bit of the registers, the flags and memory as they were. -/
theorem completes_of_writeReg {i : Instr} {s : State} {x : Reg} {v : BitVec x.bits}
    (hexec : exec i s = .next (s.writeReg x v)) :
    completes i s fun t =>
      s.regsAfter t x v ∧ s.bytesKept t ∧ t = { s with a := t.a, b := t.b, c := t.c, d := t.d } :=
  ⟨_, hexec, State.regsAfter_of_full fun _ => rfl, s.writeReg_byte x v, s.writeReg_eq x v⟩

/-- R171: the view takes the immediate at its own width. -/
theorem exec_ldImm (x : Reg) (imm : Word) (s : State) :
    exec (.ldImm x imm) s = .next (s.writeReg x (imm.setWidth x.bits)) := rfl

/-! ## The statement -/

/-- Settles O18: the immediate of `LD X, IMM` has the bytes of `X`, its length counts them, and its meaning is one register
write. That the immediate fits `X` is not needed: both its bytes and the value written are cut to the width of `X`. -/
theorem loadImmediate : Obligations.LoadImmediate := fun x imm s _ =>
  ⟨encode_eq_opcodeXY_append rfl, GeneralFamily.takesBytes_length (.ldImm x imm) s,
    completes_of_writeReg (exec_ldImm x imm s)⟩

end Sys2Proof.Proofs.DataTransferFamily
end

section
/-! PROOFS. The whole machine: the invariant of a frame boundary (R27, R33, R44), read-only program memory (R74, R83), and what
the platform alone may change (R6, R17, R50, R345). Each follows from one account of a frame, `step_ran`, and from what a
stopped frame keeps. -/

namespace Sys2Proof.Proofs.WholeMachine

open Sys2Proof Sys2Proof.Machine

/-! ## A frame, said once -/

/-- R330: a frame of a machine that is not stopped is a `Ran`, whether it halts, raises in the fetch, or runs an instruction. -/
theorem step_ran {s t : State} (h : step s = .next t) (hT : s.flag .T = false) : ∃ n, Ran n s t := by
  obtain ⟨-, ⟨hT', -⟩ | ⟨-, -, rfl⟩ | ⟨-, -, ⟨e, u, hf, rfl⟩ | ⟨i, u, v, hf, hx, rfl⟩⟩⟩ := step_next h
  case inl => rw [hT] at hT'; cases hT'
  case inr.inl =>
    have hc : Ran 1 s s.clock := (State.clock_onBus s).ran s.clock_spared State.clock_wf rfl
    obtain ⟨n, he⟩ := s.clock.endFrame_ran
    exact ⟨_, hc.trans he⟩
  case inr.inr.inl =>
    obtain ⟨l, hu⟩ := ((s.fetchDecode_keeps.1 e u hf).1).ran
    obtain ⟨m, he⟩ := u.takeException_ran e
    obtain ⟨n, ha⟩ := (u.takeException e).afterInstruction_ran
    exact ⟨_, (hu.trans he).trans ha⟩
  case inr.inr.inr =>
    obtain ⟨l, hu⟩ := ((s.fetchDecode_keeps.2 i u hf).1).ran
    obtain ⟨m, hv⟩ := exec_ran hx
    obtain ⟨n, ha⟩ := v.afterInstruction_ran
    exact ⟨_, (hu.trans hv).trans ha⟩

/-- The same in the cycles the frame counts. -/
theorem step_ran_cycles {s t : State} (h : step s = .next t) (hT : s.flag .T = false) : Ran (t.cycles - s.cycles) s t := by
  obtain ⟨n, hr⟩ := step_ran h hT
  rwa [show t.cycles - s.cycles = n by rw [hr.cycles]; omega]

/-- R356: a step of a stopped machine is a stopped frame. -/
theorem step_stopped {s t : State} (h : step s = .next t) (hT : s.flag .T = true) : t = s.stoppedFrame := by
  obtain ⟨-, ⟨-, ht⟩ | ⟨hT', -⟩ | ⟨hT', -⟩⟩ := step_next h
  case inl => exact ht
  all_goals rw [hT] at hT'; cases hT'

/-! ## The `EI` latch -/

/-- R44: `F[15:8]` reads as 0, bit by bit. -/
theorem reservedClear_iff (s : State) : s.reservedClear = true ↔ ∀ k, 8 ≤ k → k < 16 → s.f.getLsbD k = false := by
  rw [State.reservedClear, beq_iff_eq]
  constructor
  · intro h k h8 h16
    have hk := congrArg (fun v => v.getLsbD (k - 8)) h
    simpa [show k - 8 < 8 by omega, show 8 + (k - 8) = k by omega] using hk
  · intro h
    ext i hi
    simpa using h (8 + i) (by omega) (by omega)

/-- Of the four parts of the invariant a frame's account speaks of the first three. -/
theorem sound_of_ran {s t : State} {n : Nat} (hs : s.sound = true) (h : Ran n s t) (he : t.eiSettled = true) :
    t.sound = true := by
  simp only [State.sound, Bool.and_eq_true] at hs ⊢
  obtain ⟨⟨⟨hmem, hstack⟩, hres⟩, -⟩ := hs
  refine ⟨⟨⟨h.wf hmem, h.stack hstack⟩, (reservedClear_iff t).2 fun k h8 h16 => ?_⟩, he⟩
  rw [h.reserved k h8 h16]
  exact (reservedClear_iff s).1 hres k h8 h16

/-- R349: the end of a frame commits the latch. -/
theorem endFrame_eiSettled (s : State) : s.endFrame.eiSettled = true := by
  unfold State.endFrame
  simp only
  split
  case isTrue hf => simp [State.eiSettled, hf]
  case isFalse =>
    unfold State.commitEi State.eiSettled
    split
    · simp
    · simp [*]

/-- What follows an instruction leaves the latch settled; where `STOP` skips it the latch must have been clear. -/
theorem afterInstruction_eiSettled {s : State} (h : s.ei = false ∨ s.flag .T = false) :
    s.afterInstruction.eiSettled = true := by
  unfold State.afterInstruction
  split
  case isTrue hskip =>
    rcases Bool.or_eq_true_iff.1 hskip with hf | hT
    · simp [State.eiSettled, hf]
    · have hei : s.ei = false := h.resolve_right (by simp [hT])
      simp [State.eiSettled, hei]
  case isFalse =>
    simp only
    split
    case isTrue hf => simp [State.eiSettled, hf]
    case isFalse => exact endFrame_eiSettled _

/-- An instruction that starts with the latch and `F.T` clear sets at most one of them: `EI` the latch, `STOP` the flag. -/
theorem exec_ei_or_stop {i : Instr} {s t : State} (h : exec i s = .next t) (hei : s.ei = false) (hT : s.flag .T = false) :
    t.ei = false ∨ t.flag .T = false := by
  rcases exec_next h with ⟨e, n, u, rfl, hb, -, -⟩ | ⟨n, u, hm, -, hf, -, he, -⟩
  · left
    obtain ⟨-, hkeep, -⟩ := u.takeException_keeps e
    rw [hkeep, hb.ei, hei]
  rcases he with he | rfl
  · exact .inl (he.trans hei)
  · right
    rcases hf 0 (by omega) with h0 | ⟨-, h0⟩ | ⟨-, h0⟩ | ⟨j, h0, -⟩
    · exact (h0.trans (hm.bus.low 0 (by omega))).trans hT
    · cases h0
    · cases h0
    · omega

/-- Fetch and decode leave the latch and the low half of `F`. -/
theorem refetched_keeps {s u : State} (h : s.refetched u) : u.ei = s.ei ∧ u.flag .T = s.flag .T := by
  obtain ⟨n, hb, -, -⟩ := h
  exact ⟨hb.ei, hb.low 0 (by omega)⟩

/-- R33: every frame of a machine that is not stopped ends with the latch settled. -/
theorem step_eiSettled {s t : State} (hei : s.eiSettled = true) (h : step s = .next t) (hT : s.flag .T = false) :
    t.eiSettled = true := by
  obtain ⟨hfault, hcase⟩ := step_next h
  have hclear : s.ei = false := by simpa [State.eiSettled, hfault] using hei
  rcases hcase with ⟨hT', -⟩ | ⟨-, -, rfl⟩ | ⟨-, -, ⟨e, u, hf, rfl⟩ | ⟨i, u, v, hf, hx, rfl⟩⟩
  · rw [hT] at hT'; cases hT'
  · exact endFrame_eiSettled _
  · obtain ⟨hu, -⟩ := refetched_keeps (s.fetchDecode_keeps.1 e u hf).1
    obtain ⟨-, hkeep, -⟩ := u.takeException_keeps e
    exact afterInstruction_eiSettled (.inl (hkeep.trans (hu.trans hclear)))
  · obtain ⟨hu, huT⟩ := refetched_keeps (s.fetchDecode_keeps.2 i u hf).1
    exact afterInstruction_eiSettled (exec_ei_or_stop hx (hu.trans hclear) (huT.trans hT))

/-- R356: a stopped frame keeps the invariant: of what it speaks of only bit 0 of `F` may change. -/
theorem stoppedFrame_sound {s : State} (h : s.sound = true) : s.stoppedFrame.sound = true := by
  obtain ⟨hrest, hbits⟩ := s.stoppedFrame_keeps
  simp only [State.sound, Bool.and_eq_true] at h ⊢
  obtain ⟨⟨⟨hmem, hstack⟩, hres⟩, hei⟩ := h
  have hres' : s.stoppedFrame.reservedClear = true := (reservedClear_iff _).2 fun k h8 h16 => by
    rw [hbits k (by omega)]
    exact (reservedClear_iff s).1 hres k h8 h16
  rw [hrest] at hres' ⊢
  exact ⟨⟨⟨hmem, hstack⟩, hres'⟩, hei⟩

/-! ## The statements about a step -/

/-- Settles O56: a stopped frame keeps the invariant; any other is a `Ran`, which keeps memory canonical, the stack pointer in
its window and `F[15:8]`, and settles the latch. -/
theorem everyStepKeepsTheInvariant : Obligations.EveryStepKeepsTheInvariant := by
  intro s t hs hstep
  cases hT : s.flag .T with
  | true => rw [step_stopped hstep hT]; exact stoppedFrame_sound hs
  | false =>
    have hei : s.eiSettled = true := by
      simp only [State.sound, Bool.and_eq_true] at hs
      exact hs.2
    exact sound_of_ran hs (step_ran_cycles hstep hT) (step_eiSettled hei hstep hT)

/-- Settles O57: the reset values, evaluated. -/
theorem resetMeetsTheInvariant : Obligations.ResetMeetsTheInvariant := by
  unfold Obligations.ResetMeetsTheInvariant
  decide

/-- Settles O58: a stopped frame writes no memory; in any other the CPU writes where it may write data, or in the stack window,
and both lie above the program (`Ran.low`). -/
theorem programMemoryIsReadOnly : Obligations.ProgramMemoryIsReadOnly := by
  intro s t adr hs hstep hlow hspared
  cases hT : s.flag .T with
  | true =>
    rw [step_stopped hstep hT, s.stoppedFrame_keeps.1]
    rfl
  | false =>
    simp only [State.sound, Bool.and_eq_true] at hs
    exact (step_ran_cycles hstep hT).low hs.1.1.2 adr hlow hspared

/-! ## The platform's acts -/

/-- R345: a raised or a cleared line is one bit of `IF`. -/
theorem putBit_replaces (v : Word) (k : BitVec 5) (b : Bool) : bitReplaced k.toNat b v (putBit v k.toNat b) :=
  fun i _ => putBit_getLsbD v k.toNat b i (show k.toNat < 32 from k.isLt)

/-- R45: the software flags are the upper half of `F`. -/
theorem putField_upper (f : Word) (h : Half) : putField f 16 h = h ++ f.extractLsb' 0 16 := by
  apply BitVec.eq_of_getLsbD_eq
  intro i hi
  rw [putField_getLsbD f 16 h i hi]
  have happ : (h ++ f.extractLsb' 0 16 : Word).getLsbD i = BitVec.getLsbD (w := 16 + 16) (h ++ f.extractLsb' 0 16) i := rfl
  rw [happ, BitVec.getLsbD_append]
  by_cases h16 : i < 16
  · simp [h16, show ¬ 16 ≤ i by omega]
  · simp [h16, show 16 ≤ i by omega, hi]

/-- R83: a byte written behind the bus is that byte of memory and no other. -/
theorem byte_writeByte (s : State) (adr a : Addr) (b : Byte) :
    (s.acts [.writeByte adr b]).byte a = if a = adr then b else s.byte a := by
  simp [State.acts, State.platformEvent, State.byte, BitVec.toNat_inj]

/-- R356: a bit of `IF` after a stopped frame was pending before, or is a line the platform raised in it. -/
theorem stoppedFrame_set {s : State} {k : BitVec 5} (h : s.stoppedFrame.intFlags.getLsbD k.toNat = true) :
    s.intFlags.getLsbD k.toNat = true ∨
      ∃ now later, s.standby = now :: later ∧ now.lines.getLsbD k.toNat = true := by
  rw [s.stoppedFrame_keeps.1] at h
  simp only [BitVec.getLsbD_or, Bool.or_eq_true] at h
  refine h.imp_right fun hline => ?_
  cases hst : s.standby with
  | nil => simp [hst] at hline
  | cons now later => exact ⟨now, later, rfl, by simpa [hst] using hline⟩

/-- Settles O59: for a step, a stopped frame touches neither `IE` nor the schedule, and any other is a `Ran`; each act writes
its own target. -/
theorem platformOwnsInterruptLines : Obligations.PlatformOwnsInterruptLines := by
  refine ⟨fun s t hstep => ?step, fun s e es => ⟨rfl, rfl⟩, fun s k v h adr b => ?acts⟩
  case step =>
    cases hT : s.flag .T with
    | true =>
      obtain rfl := step_stopped hstep hT
      have hset := fun k : BitVec 5 => stoppedFrame_set (s := s) (k := k)
      have hkeep := s.stoppedFrame_keeps.1
      have hcycles : s.stoppedFrame.cycles = s.cycles := by rw [hkeep]
      simp only [hcycles, Nat.sub_self, List.drop_zero, Nat.add_zero]
      refine ⟨by rw [hkeep], by rw [hkeep], trivial, fun _ => by rw [hkeep], fun k hk => ?_⟩
      rcases hset k hk with hbefore | hline
      · exact .inl hbefore
      · exact .inr (.inr ⟨trivial, hline⟩)
    | false =>
      have hr := step_ran_cycles hstep hT
      refine ⟨hr.cfg, hr.platform, hr.cycles, hr.enable, fun k hk => ?_⟩
      by_cases hact : .raiseInterrupt k ∈ s.actsWithin (t.cycles - s.cycles)
      · exact .inr (.inl hact)
      · exact .inl (hr.set k hact hk)
  case acts =>
    refine ⟨⟨putBit_replaces _ k true, rfl⟩, ⟨putBit_replaces _ k false, rfl⟩, rfl, ?_,
      ⟨fun a => byte_writeByte s adr a b, rfl⟩, rfl⟩
    show ({ s with f := putField s.f 16 h } : State) = _
    rw [putField_upper]

end Sys2Proof.Proofs.WholeMachine
end

section
/-! PROOFS. The family 30_encoding.md: the must-be-zero nibbles (R119, R121), and the round trip of encoder and decoder in both
directions (R110 to R119). -/

namespace Sys2Proof.Proofs.RoundTrip

open Sys2Proof Sys2Proof.Machine

/-! ## The rows of the opcode map by their must-be-zero nibbles (R119) -/

/-- The type bytes of the rows that show `0` for `Y` alone. -/
def typesNoY : List Byte := [0x0A, 0x0B, 0x0C, 0x10, 0x11, 0x13, 0x15, 0x1E, 0x20, 0x22, 0x23, 0x25, 0x30, 0x31, 0x32, 0x33,
  0x34, 0x35, 0x37, 0x38, 0x3A, 0x3B, 0x3D, 0x3E, 0x40, 0x41, 0x43, 0x44, 0x46, 0x47, 0x4C, 0x4D, 0x50, 0x51, 0x60, 0x61,
  0x62, 0x63, 0x64, 0x65, 0x66, 0x67, 0x68, 0x69, 0x6A, 0x6B, 0x6C, 0x6D, 0x70, 0x71, 0x72, 0x73, 0x74, 0x75, 0x76, 0x77]

/-- The type bytes of the rows that show `0` for `X` alone. -/
def typesNoX : List Byte := [0x17, 0x19, 0x1B, 0x1F]

/-- The type bytes of the rows that show `0` for both. -/
def typesNoXY : List Byte := [0x00, 0x01, 0x02, 0x04, 0x05, 0x06, 0x07, 0x08, 0x09, 0x26]

/-- R116: the byte `XX` of an opcode is its two fields. -/
@[simp] theorem xxField_opcodeXY (o : Byte) (x y : BitVec 4) : xxField (opcodeXY o x y) = x ++ y := by
  rw [← StateFamily.opcodeXX_append, xxField_opcodeXX]

theorem append_eq_zero (x y : BitVec 4) : x ++ y = 0#8 ↔ x = 0 ∧ y = 0 := by
  revert x y; decide

/-- R121: what a strict reading refuses and a lax one ignores, in a row without `Y`. -/
theorem ofOpcode_noY : ∀ o ∈ typesNoY, ∀ (strict : Bool) (x y : BitVec 4) (imm : Word),
    Instr.ofOpcode strict (opcodeXY o x y) imm =
      if strict && y != 0 then none else Instr.ofOpcode true (opcodeXY o x 0) imm := by
  simp only [typesNoY, List.forall_mem_cons]
  and_intros
  all_goals simp [Instr.ofOpcode]

/-- The same in a row without `X`. -/
theorem ofOpcode_noX : ∀ o ∈ typesNoX, ∀ (strict : Bool) (x y : BitVec 4) (imm : Word),
    Instr.ofOpcode strict (opcodeXY o x y) imm =
      if strict && x != 0 then none else Instr.ofOpcode true (opcodeXY o 0 y) imm := by
  simp only [typesNoX, List.forall_mem_cons]
  and_intros
  all_goals simp [Instr.ofOpcode]

/-- The same in a row without either. -/
theorem ofOpcode_noXY : ∀ o ∈ typesNoXY, ∀ (strict : Bool) (x y : BitVec 4) (imm : Word),
    Instr.ofOpcode strict (opcodeXY o x y) imm =
      if strict && (x ++ y != 0#8) then none else Instr.ofOpcode true (opcodeXY o 0 0) imm := by
  simp only [typesNoXY, List.forall_mem_cons]
  and_intros
  all_goals simp [Instr.ofOpcode]

/-- Settles O5: the three kinds of rows with a must-be-zero nibble, read strictly and laxly. -/
theorem mustBeZeroNibbles : Obligations.MustBeZeroNibbles := by
  unfold Obligations.MustBeZeroNibbles
  intro noY noX none2 o x y imm
  refine ⟨?strict, fun ho => ?laxY, fun ho => ?laxX, fun ho => ?laxXY⟩
  case strict =>
    rintro (⟨ho, hy⟩ | ⟨ho, hx⟩ | ⟨ho, hxy⟩)
    · rw [ofOpcode_noY o ho, if_pos (by simpa using hy)]
    · rw [ofOpcode_noX o ho, if_pos (by simpa using hx)]
    · have hne : x ++ y ≠ 0#8 := by rw [Ne, append_eq_zero, not_and_or]; exact hxy
      rw [ofOpcode_noXY o ho, if_pos (by simpa using hne)]
  case laxY => simpa using ofOpcode_noY o ho false x y imm
  case laxX => simpa using ofOpcode_noX o ho false x y imm
  case laxXY => simpa using ofOpcode_noXY o ho false x y imm

/-! ## From the instruction to its bytes and back -/

/-- R112, R118: an opcode tells how many immediate bytes its instruction has. -/
theorem immBytes_opcode (i : Instr) : immBytes i.opcode = i.immediate.1 := by
  cases i <;>
    simp [immBytes, Instr.opcode, Instr.immediate, typesImm, typesImm32, typesImm16, typesImm8]

/-- R119: the row of an instruction's own opcode gives the instruction back from its immediate. -/
theorem ofOpcode_opcode (strict : Bool) (i : Instr) : Instr.ofOpcode strict i.opcode i.immediate.2 = some i := by
  cases i <;> simp [Instr.opcode, Instr.immediate, Instr.ofOpcode]

/-- R113: the immediate of a well-formed instruction fits its bytes. -/
theorem immediate_fits {i : Instr} (h : i.wellFormed = true) : i.immediate.2.toNat < 2 ^ (8 * i.immediate.1) := by
  have hword (v : Word) : v.toNat < 2 ^ (8 * 4) := v.isLt
  have hhalf (v : Half) : (v.setWidth 32).toNat < 2 ^ (8 * 2) := by have := v.isLt; simp; omega
  have hbyte (v : Byte) : (v.setWidth 32).toNat < 2 ^ (8 * 1) := by have := v.isLt; simp; omega
  have himm {x : Reg} {imm : Word} (h : immFits x imm = true) : imm.toNat < 2 ^ (8 * x.bytes) := by
    rw [← reg_bits_eq_bytes]; exact of_decide_eq_true h
  cases i
  all_goals first
    | exact himm h
    | exact hword _
    | exact hhalf _
    | exact hbyte _
    | exact Nat.one_pos

/-- R111: the two bytes of an opcode, the high one in front, are the opcode. -/
theorem append_opcode_bytes (op : Half) : ((op >>> 8).setWidth 8 ++ op.setWidth 8 : Half) = op := by
  have hhigh : (op >>> 8).setWidth 8 = typeByte op := BitVec.setWidth_ushiftRight_eq_extractLsb
  have hlow : op.setWidth 8 = xxField op := BitVec.setWidth_eq_extractLsb' (by omega)
  rw [hhigh, hlow]
  exact opcodeXX_fields op

/-- Settles O1: the two bytes in front are the opcode, which tells the immediate's bytes from those that follow; their value is
the immediate; the opcode's row is the instruction's. -/
theorem decodeInvertsEncode : Obligations.DecodeInvertsEncode := by
  intro strict i rest hwf
  have hval : leValue (leBytes i.immediate.1 i.immediate.2) = i.immediate.2 := leValue_leBytes _ _ (immediate_fits hwf)
  have htake : (leBytes i.immediate.1 i.immediate.2 ++ rest).take i.immediate.1 = leBytes i.immediate.1 i.immediate.2 :=
    List.take_left' (leBytes_length _ _)
  have hdrop : (leBytes i.immediate.1 i.immediate.2 ++ rest).drop i.immediate.1 = rest :=
    List.drop_left' (leBytes_length _ _)
  simp only [encode, List.cons_append, decode, append_opcode_bytes, immBytes_opcode, htake, hdrop, hval, ofOpcode_opcode]
  simp

/-! ## From the bytes to the instruction and back -/

/-- The immediate read by a row, if it is no wider than the row's, is the one its instruction has. -/
def HasImmediate (i : Instr) (imm : Word) : Prop :=
  imm.toNat < 2 ^ (8 * i.immediate.1) → i.immediate.2 = imm ∧ i.wellFormed = true

/-- A row without an immediate. -/
theorem HasImmediate.none {i : Instr} {imm : Word} (hi : i.immediate = (0, 0)) (hwf : i.wellFormed = true) :
    HasImmediate i imm := fun h => by
  rw [hi] at h ⊢
  exact ⟨(BitVec.eq_of_toNat_eq (by simpa using h)).symm, hwf⟩

/-- A row whose immediate is a whole word. -/
theorem HasImmediate.word {i : Instr} {imm : Word} (hi : i.immediate.2 = imm) (hwf : i.wellFormed = true) :
    HasImmediate i imm := fun _ => ⟨hi, hwf⟩

/-- A row whose immediate has the width of `X`. -/
theorem HasImmediate.reg {i : Instr} {x : Reg} {imm : Word} (hi : i.immediate = (x.bytes, imm))
    (hwf : i.wellFormed = immFits x imm) : HasImmediate i imm := fun h => by
  rw [hi, ← reg_bits_eq_bytes] at h
  exact ⟨by rw [hi], hwf.trans (decide_eq_true h)⟩

/-- A narrow immediate is cut to its width without loss. -/
theorem setWidth_setWidth_of_lt {w : Nat} {v : Word} (h : v.toNat < 2 ^ w) : (v.setWidth w).setWidth 32 = v := by
  apply BitVec.eq_of_toNat_eq
  rw [BitVec.toNat_setWidth, BitVec.toNat_setWidth, Nat.mod_eq_of_lt h, Nat.mod_eq_of_lt v.isLt]

/-- A row whose immediate is narrower than a word. -/
theorem HasImmediate.cut {i : Instr} {imm : Word} (n : Nat)
    (hi : i.immediate = (n, (imm.setWidth (8 * n)).setWidth 32)) (hwf : i.wellFormed = true) :
    HasImmediate i imm := fun h => by
  rw [hi] at h ⊢
  exact ⟨setWidth_setWidth_of_lt h, hwf⟩

/-- The type bytes of the general, data transfer and control transfer rows without an immediate. -/
def typesBare : List Byte := [0x00, 0x01, 0x02, 0x03, 0x04, 0x05, 0x06, 0x07, 0x08, 0x09, 0x0A, 0x0B, 0x0C, 0x12, 0x14, 0x16,
  0x18, 0x1A, 0x1C, 0x1D, 0x1E, 0x1F, 0x21, 0x24, 0x25, 0x26]

/-- The type bytes of the other rows without an immediate. -/
def typesBareAlu : List Byte := [0x30, 0x31, 0x32, 0x33, 0x36, 0x39, 0x3C, 0x3F, 0x42, 0x45, 0x48, 0x4C, 0x4D, 0x52, 0x60, 0x61,
  0x62, 0x63, 0x64, 0x65, 0x66, 0x67, 0x68, 0x69, 0x6A, 0x6B, 0x6C, 0x6D]

/-- R112, R119, R120: every type byte heads a row with one kind of immediate, or none. -/
theorem typeByte_cases (o : Byte) :
    o ∈ typesBare ∨ o ∈ typesBareAlu ∨ o ∈ typesImm ∨ o ∈ typesImm32 ∨ o ∈ typesImm16 ∨ o ∈ typesImm8 ∨
      EncodingFamily.HeadsNoRow o := by
  revert o; decide

/-- What a strictly read row says: its instruction has the opcode read, with each must-be-zero nibble 0, and the immediate. -/
def RowsInvert (types : List Byte) : Prop :=
  ∀ o ∈ types, ∀ (imm : Word) (x y : BitVec 4) (i : Instr), Instr.ofOpcode true (opcodeXY o x y) imm = some i →
    i.opcode = opcodeXY o x y ∧ HasImmediate i imm

theorem rowsInvert_bare : RowsInvert typesBare := by
  simp only [RowsInvert, typesBare, List.forall_mem_cons]
  and_intros
  all_goals simp [Instr.ofOpcode, append_eq_zero, Instr.opcode, StateFamily.opcodeXX_append]
  all_goals first
    | intros; exact .none rfl rfl
    | rintro imm x y rfl; exact ⟨rfl, .none rfl rfl⟩

theorem rowsInvert_bareAlu : RowsInvert typesBareAlu := by
  simp only [RowsInvert, typesBareAlu, List.forall_mem_cons]
  and_intros
  all_goals simp [Instr.ofOpcode, Instr.opcode]
  all_goals intros; exact .none rfl rfl

theorem rowsInvert_imm : RowsInvert typesImm := by
  simp only [RowsInvert, typesImm, List.forall_mem_cons]
  and_intros
  all_goals simp [Instr.ofOpcode, Instr.opcode]
  all_goals intros; exact .reg rfl rfl

theorem rowsInvert_imm32 : RowsInvert typesImm32 := by
  simp only [RowsInvert, typesImm32, List.forall_mem_cons]
  and_intros
  all_goals simp [Instr.ofOpcode, Instr.opcode]
  all_goals first
    | intros; exact .word rfl rfl
    | rintro imm x y rfl; exact ⟨rfl, .word rfl rfl⟩

theorem rowsInvert_imm16 : RowsInvert typesImm16 := by
  simp only [RowsInvert, typesImm16, List.forall_mem_cons]
  and_intros
  all_goals simp [Instr.ofOpcode, Instr.opcode]
  all_goals first
    | intros; exact .cut 2 rfl rfl
    | rintro imm x y rfl; exact ⟨rfl, .cut 2 rfl rfl⟩

theorem rowsInvert_imm8 : RowsInvert typesImm8 := by
  simp only [RowsInvert, typesImm8, List.forall_mem_cons]
  and_intros
  all_goals simp [Instr.ofOpcode, Instr.opcode]
  all_goals first
    | intros; exact .cut 1 rfl rfl
    | rintro imm x y rfl; exact ⟨rfl, .cut 1 rfl rfl⟩

/-- R119: a strictly read opcode is the opcode of the instruction its row gives, which has the immediate read. -/
theorem ofOpcode_inverts {op : Half} {imm : Word} {i : Instr} (h : Instr.ofOpcode true op imm = some i) :
    i.opcode = op ∧ HasImmediate i imm := by
  have hop := opcodeXY_fields op
  rw [← hop] at h ⊢
  rcases typeByte_cases (typeByte op) with ho | ho | ho | ho | ho | ho | ho
  · exact rowsInvert_bare _ ho _ _ _ _ h
  · exact rowsInvert_bareAlu _ ho _ _ _ _ h
  · exact rowsInvert_imm _ ho _ _ _ _ h
  · exact rowsInvert_imm32 _ ho _ _ _ _ h
  · exact rowsInvert_imm16 _ ho _ _ _ _ h
  · exact rowsInvert_imm8 _ ho _ _ _ _ h
  · rw [hop, EncodingFamily.ofOpcode_eq_none_of_headsNoRow ho] at h
    cases h

/-- R111: the bytes of an opcode, read back from the opcode they form. -/
theorem opcode_bytes_append (b0 b1 : Byte) :
    (b1 ++ b0 : Half).setWidth 8 = b0 ∧ ((b1 ++ b0 : Half) >>> 8).setWidth 8 = b1 :=
  ⟨BitVec.setWidth_append_eq_right,
    BitVec.setWidth_ushiftRight_eq_extractLsb.trans (typeByte_opcodeXX b1 b0)⟩

/-- What the decoder has seen when it answers an instruction (R111, R118). -/
theorem decode_ok {strict : Bool} {bytes rest : List Byte} {i : Instr} (h : decode strict bytes = .ok (i, rest)) :
    ∃ b0 b1 imm, bytes = b0 :: b1 :: (imm ++ rest) ∧ imm.length = immBytes (b1 ++ b0 : Half) ∧
      Instr.ofOpcode strict (b1 ++ b0 : Half) (leValue imm) = some i := by
  match bytes, h with
  | [], h => cases h
  | [_], h => cases h
  | b0 :: b1 :: tail, h =>
    simp only [decode] at h
    split at h
    · cases h
    · rename_i j hj
      split at h
      · cases h
      · rename_i hlen
        cases h
        exact ⟨b0, b1, tail.take (immBytes (b1 ++ b0)), by rw [List.take_append_drop],
          by rw [List.length_take]; omega, hj⟩

/-- R112: no instruction has more than four immediate bytes. -/
theorem immBytes_le (op : Half) : immBytes op ≤ 4 := by
  unfold immBytes
  split_ifs
  · exact reg_bytes_le _
  all_goals omega

/-- Settles O2: what the decoder read is the opcode of the instruction and the bytes of its immediate, which are determined by
their value. -/
theorem decodedBytesAreTheEncoding : Obligations.DecodedBytesAreTheEncoding := by
  intro bytes rest i h
  obtain ⟨b0, b1, imm, rfl, hlen, hrow⟩ := decode_ok h
  obtain ⟨hop, himm⟩ := ofOpcode_inverts hrow
  have hcount : i.immediate.1 = imm.length := by rw [hlen, ← hop, immBytes_opcode]
  obtain ⟨hval, hwf⟩ := himm (by rw [hcount]; exact leValue_lt imm)
  have hbytes : leBytes i.immediate.1 i.immediate.2 = imm := by
    rw [hcount, hval]
    exact leBytes_leValue imm (by rw [hlen]; exact immBytes_le _)
  obtain ⟨hlow, hhigh⟩ := opcode_bytes_append b0 b1
  refine ⟨hwf, ?_⟩
  rw [encode, hop, hlow, hhigh, hbytes]
  rfl

/-! ## The bytes of the source's examples -/

/-- Settles O3: each row of R128 is the encoding of its instruction, which decodes to it (O1). -/
theorem wordsOfTheSourceDecode : Obligations.WordsOfTheSourceDecode := by
  have row {i : Instr} {bytes : List Byte} (hwf : i.wellFormed = true) (hbytes : encode i = bytes) :
      decode true bytes = .ok (i, []) := by
    simpa [hbytes] using decodeInvertsEncode true i [] hwf
  exact ⟨row rfl rfl, row rfl rfl, row rfl rfl, row rfl rfl, row rfl rfl, row rfl rfl, row rfl rfl, row rfl rfl, row rfl rfl,
    row rfl rfl, row rfl rfl, row rfl rfl, row rfl rfl, row rfl rfl, row rfl rfl⟩

end Sys2Proof.Proofs.RoundTrip
end

section
/-! PROOFS. The families 10_state.md and 20_memory.md and the reset of 70_reset_and_hazards.md: a write to a view (R21, R22), the
host's reset (R380), accesses of several bytes and devices (R71, R84, R86), the permission map (R73 to R76) and the effective
addresses (R85). -/

namespace Sys2Proof.Proofs.StateAndMemory

open Sys2Proof Sys2Proof.Machine

/-! ## Views and reset -/

/-- Settles O8: a register write is the four registers' bits of the view (`putField`), and no other field. -/
theorem writingAViewReplacesItsBits : Obligations.WritingAViewReplacesItsBits := fun s x v =>
  ⟨State.regsAfter_of_full fun _ => rfl, s.writeReg_readReg x v, s.writeReg_byte x v, s.writeReg x v, s.writeReg_eq x v⟩

/-- Settles O10: `hostReset` is the reset state but for memory and the platform's side, so not `Faulted`, at the first
program address, with an empty stack. -/
theorem hostResetRestores : Obligations.HostResetRestores := fun _ _ => ⟨rfl, rfl, rfl, rfl⟩

/-! ## The permission map (R73 to R76) -/

theorem region_read_iff (adr : Addr) :
    regionAllows .read (regionOf adr) = true ↔ ¬ (0xFFFE0000 ≤ adr.toNat ∧ adr.toNat ≤ 0xFFFEFFFF) := by
  unfold regionOf
  split_ifs <;> simp only [regionAllows, true_iff, Bool.false_eq_true, false_iff, not_not] <;> omega

theorem region_write_iff (adr : Addr) :
    regionAllows .write (regionOf adr) = true ↔
      0x80000000 ≤ adr.toNat ∧ ¬ (0xFFFE0000 ≤ adr.toNat ∧ adr.toNat ≤ 0xFFFEFFFF) := by
  unfold regionOf
  split_ifs <;> simp only [regionAllows, true_iff, Bool.false_eq_true, false_iff] <;> omega

theorem region_execute_iff (adr : Addr) :
    regionAllows .execute (regionOf adr) = true ↔
      (0x1000 ≤ adr.toNat ∧ adr.toNat ≤ 0x7FFFFFFF) ∨ (0xC0000000 ≤ adr.toNat ∧ adr.toNat ≤ 0xEFFFFFFF) := by
  unfold regionOf
  split_ifs <;> simp only [regionAllows, true_iff, Bool.false_eq_true, false_iff] <;> omega

/-- R76: where the platform refines nothing the region alone decides. -/
theorem allows_of_no_restrictions {s : State} (h : s.cfg.restrictions = []) (k : Access) (adr : Addr) :
    s.allows k adr = regionAllows k (regionOf adr) := by
  simp [State.allows, h]

/-- R76, R88: what is allowed with refinements is allowed by the region. -/
theorem region_of_allows {s : State} {k : Access} {adr : Addr} (h : s.allows k adr = true) :
    regionAllows k (regionOf adr) = true := by
  rw [State.allows, Bool.and_eq_true] at h
  exact h.1

/-- Settles O12: with no refinement the map of the regions decides; a refinement only adds a conjunct. -/
theorem permissionMap : Obligations.PermissionMap := by
  intro s adr
  refine ⟨fun h => ?_, fun k h => ?_⟩
  · simp only [allows_of_no_restrictions h]
    exact ⟨region_read_iff adr, region_write_iff adr, region_execute_iff adr⟩
  · rw [allows_of_no_restrictions rfl]
    exact region_of_allows h

/-! ## Accesses of several bytes (R71, R86) -/

/-- The first of several bytes written, split off. -/
theorem writing_succ (s : State) (adr : Addr) (v : Word) (n : Nat) :
    s.writing adr v (n + 1) = (s.busWrite adr (v.setWidth 8)).clock.writing (adr + 1) (v >>> 8) n := by
  induction n with
  | zero => simp [State.writing, BitVec.setWidth_eq_extractLsb']
  | succ n ih => rw [State.writing, ih, State.writing, addr_succ, extract_shift]

theorem writeBytes_eq_writing (s : State) (n : Nat) (adr : Addr) (v : Word) :
    s.writeBytes n adr v = s.writing adr v n := by
  induction n generalizing s adr v with
  | zero => rfl
  | succ n ih => rw [writing_succ, State.writeBytes, ih]

/-- The first of several bytes read, split off. -/
theorem reading_succ (s : State) (adr : Addr) (n : Nat) :
    s.reading adr (n + 1) = (s.busRead adr).2.clock.reading (adr + 1) n := by
  induction n with
  | zero => simp [State.reading]
  | succ n ih => rw [State.reading, ih, State.reading, addr_succ]

theorem readBytes_eq_reading (s : State) (n : Nat) (adr : Addr) : (s.readBytes n adr).2 = s.reading adr n := by
  induction n generalizing s adr with
  | zero => rfl
  | succ n ih => rw [reading_succ, State.readBytes, ih]

/-- A value whose bytes are the low `m` bytes of `w`, and which has no other, is `w` cut to `m` bytes. -/
theorem eq_of_bytes {m : Nat} {v w : Word} (hhigh : ∀ i, 8 * m ≤ i → v.getLsbD i = false)
    (hbyte : ∀ k, k < m → v.extractLsb' (8 * k) 8 = w.extractLsb' (8 * k) 8) : v = (w.setWidth (8 * m)).setWidth 32 := by
  apply BitVec.eq_of_getLsbD_eq
  intro i hi
  by_cases him : i < 8 * m
  · have hb := congrArg (fun b => b.getLsbD (i % 8)) (hbyte (i / 8) (by omega))
    simp only [BitVec.getLsbD_extractLsb', show i % 8 < 8 by omega, show 8 * (i / 8) + i % 8 = i by omega] at hb
    simpa [hi, him] using hb
  · simp [hhigh i (by omega), him]

/-- R71: bytes that hold those of `w`, that no device answers for and the platform spares, read as `w`. -/
theorem readBytes_of_bytes {t : State} {m : Nat} {adr : Addr} {w : Word} (hm : m ≤ 4)
    (hspares : ∀ k, k < m → t.spares m (adr + BitVec.ofNat 32 k)) (hplain : ∀ k, k < m → t.plain (adr + BitVec.ofNat 32 k))
    (hbyte : ∀ k, k < m → t.byte (adr + BitVec.ofNat 32 k) = w.extractLsb' (8 * k) 8) :
    (t.readBytes m adr).1 = (w.setWidth (8 * m)).setWidth 32 := by
  obtain ⟨hhigh, hval⟩ := t.readBytes_valueAt m adr hm
  exact eq_of_bytes hhigh fun k hk => (hval k hk (hspares k hk) (hplain k hk)).trans (hbyte k hk)

theorem extract_shift_bytes (v : Word) (k j : Nat) :
    (v >>> (8 * k)).extractLsb' (8 * j) 8 = v.extractLsb' (8 * (k + j)) 8 := by
  ext i hi
  simp [show 8 * k + (8 * j + i) = 8 * (k + j) + i by omega]

/-- R71: of a double-word stored in four plain bytes that the platform spares, any part reads back. -/
theorem readBytes_writeBytes {s : State} {adr : Addr} (v : Word)
    (h : ∀ k, k < 4 → s.spares 8 (adr + BitVec.ofNat 32 k) ∧ s.plain (adr + BitVec.ofNat 32 k)) {k m : Nat} (hkm : k + m ≤ 4) :
    ((s.writeBytes 4 adr v).readBytes m (adr + BitVec.ofNat 32 k)).1 =
      ((v >>> (8 * k)).setWidth (8 * m)).setWidth 32 := by
  have hbus := s.writeBytes_onBus 4 adr v
  have hstored := s.writeBytes_stored 4 adr v (by omega)
  have haddr (j : Nat) : adr + BitVec.ofNat 32 k + BitVec.ofNat 32 j = adr + BitVec.ofNat 32 (k + j) := by
    rw [BitVec.add_assoc, ← BitVec.ofNat_add]
  have hspares (j : Nat) (hj : j < m) : s.spares (4 + m) (adr + BitVec.ofNat 32 (k + j)) := by
    refine State.spares_mono (n := 4 - m) ?_
    rw [show 4 + m + (4 - m) = 8 by omega]
    exact (h (k + j) (by omega)).1
  apply readBytes_of_bytes (by omega) <;> intro j hj <;> rw [haddr]
  · exact hbus.spares (hspares j hj)
  · exact hbus.plain (h (k + j) (by omega)).2
  · rw [extract_shift_bytes]
    exact (hstored _ (State.spares_mono (hspares j hj))).2 (k + j) (by omega) rfl (h (k + j) (by omega)).2

theorem and_byteMask (v : Word) : v &&& 0xFF = (v.setWidth 8).setWidth 32 := by
  apply BitVec.eq_of_toNat_eq
  have hlt := v.isLt
  simp only [BitVec.toNat_and, BitVec.toNat_setWidth]
  rw [show (0xFF : Word).toNat = 2 ^ 8 - 1 from rfl, Nat.and_two_pow_sub_one_eq_mod]
  omega

theorem and_halfMask (v : Word) : v &&& 0xFFFF = (v.setWidth 16).setWidth 32 := by
  apply BitVec.eq_of_toNat_eq
  have hlt := v.isLt
  simp only [BitVec.toNat_and, BitVec.toNat_setWidth]
  rw [show (0xFFFF : Word).toNat = 2 ^ 16 - 1 from rfl, Nat.and_two_pow_sub_one_eq_mod]
  omega

/-! ## Devices (R84) -/

theorem isDevice_iff (adr : Addr) :
    isDevice adr = true ↔ (0xF0000000 ≤ adr.toNat ∧ adr.toNat ≤ 0xFFFDFFFF) ∨ 0xFFFFFF00 ≤ adr.toNat := by
  have hlt := adr.isLt
  unfold isDevice regionOf
  split_ifs <;> simp only [true_iff, false_iff] <;> omega

/-- A byte written where no device takes it is memory's. -/
theorem busWrite_plain {s : State} {adr : Addr} (h : s.plain adr) (v : Byte) :
    s.busWrite adr v = { s with mem := s.mem.write adr.toNat v } :=
  (s.busWrite_cases adr v).resolve_right fun hdev => hdev.1 h

theorem busWrite_plain_byte {s : State} {adr : Addr} (h : s.plain adr) (v : Byte) (b : Addr) :
    (s.busWrite adr v).byte b = if b = adr then v else s.byte b := by
  rw [busWrite_plain h]
  simp [State.byte, BitVec.toNat_inj]

/-- A device that has an answer gives it. -/
theorem busRead_device {s : State} {adr : Addr} {r : IoAnswer} {answers : List IoAnswer} (hdev : isDevice adr = true)
    (hr : s.ioReads = r :: answers) :
    s.busRead adr = (r.value, ({ s with ioReads := answers } : State).acts r.events) := by
  simp [State.busRead, hdev, hr]

/-- A device that takes a write does its own effect. -/
theorem busWrite_device {s : State} {adr : Addr} {es : List PlatformEvent} {effects : List (List PlatformEvent)} (v : Byte)
    (hdev : isDevice adr = true) (hw : s.ioWrites = es :: effects) :
    s.busWrite adr v = ({ s with ioWrites := effects } : State).acts es := by
  simp [State.busWrite, hdev, hw]

/-- Settles O11: an access is its bytes; a stored double-word reads back part by part; one byte on the bus is memory's or a
device's. -/
theorem mixedWidthAccesses : Obligations.MixedWidthAccesses := by
  refine ⟨fun s adr n v hn => ?bytes, fun s adr v h => ?stored, fun s adr v => ?bus⟩
  case bytes =>
    refine ⟨writeBytes_eq_writing s n adr v, readBytes_eq_reading s n adr, s.readBytes_bit_high n adr, fun k hk => ?_⟩
    rw [s.readBytes_byte n adr k hk hn, readBytes_eq_reading]
  case stored =>
    refine ⟨?_, fun k hk => ?_, fun k hk => ?_, fun b h0 h1 h2 h3 hb => ?_⟩
    · simpa using readBytes_writeBytes v h (k := 0) (m := 4) (by omega)
    · rw [and_byteMask]
      exact readBytes_writeBytes v h (m := 1) (by omega)
    · rw [and_halfMask]
      exact readBytes_writeBytes v h (m := 2) (by omega)
    · refine (s.writeBytes_stored 4 adr v (by omega) b hb).1 fun k hk => ?_
      have : k = 0 ∨ k = 1 ∨ k = 2 ∨ k = 3 := by omega
      rcases this with rfl | rfl | rfl | rfl
      · simpa using h0
      · exact h1
      · exact h2
      · exact h3
  case bus =>
    exact ⟨isDevice_iff adr,
      fun hp => ⟨State.busRead_plain hp, busWrite_plain_byte hp v, by rw [busWrite_plain hp]⟩,
      fun r answers hdev hr => busRead_device hdev hr, fun es effects hdev hw => busWrite_device v hdev hw⟩

/-! ## Effective addresses (R85) -/

/-- A half word or a byte, extended by zeroes and added to the start of its page, does not wrap. -/
theorem page_add_toNat {w : Nat} (base : Addr) (v : BitVec w) (hw : w ≤ 32) (hfit : base.toNat + 2 ^ w ≤ 2 ^ 32) :
    (base + v.setWidth 32).toNat = base.toNat + v.toNat := by
  have hv := v.isLt
  have hext : (v.setWidth 32).toNat = v.toNat := BitVec.toNat_setWidth_of_le hw
  rw [BitVec.toNat_add, hext, Nat.mod_eq_of_lt (by omega)]

theorem highPage_toNat {w : Nat} (v : BitVec w) (hw : w = 16) : (highPage v).toNat = 0xFFFF0000 + v.toNat :=
  page_add_toNat 0xFFFF0000 v (by omega) (by subst hw; decide)

theorem portPage_toNat {w : Nat} (v : BitVec w) (hw : w = 8) : (portPage v).toNat = 0xFFFFFF00 + v.toNat :=
  page_add_toNat 0xFFFFFF00 v (by omega) (by subst hw; decide)

/-- Settles O21: neither page wraps, and a register's value is its own 32-bit address. -/
theorem effectiveAddresses : Obligations.EffectiveAddresses := by
  refine ⟨fun h => highPage_toNat h rfl, fun b => portPage_toNat b rfl, fun s y hy => highPage_toNat _ hy,
    fun s y hy => portPage_toNat _ hy, fun s y hy => ?_⟩
  rw [State.address, BitVec.toNat_setWidth_of_le (by omega)]

end Sys2Proof.Proofs.StateAndMemory
end

section
/-! PROOFS. The family 60_exceptions.md: exception and interrupt entry (R331 to R354), the parts of a frame and the frame around
them (R330, R340, R346 to R349, R355 to R357), and the instructions whose meaning the end of the frame completes: `DI`, `EI`,
`STOP` and `HALT` (R151, R152, R155, R156). -/

namespace Sys2Proof.Proofs.FrameFamily

open Sys2Proof Sys2Proof.Machine

/-! ## Exception and interrupt entry -/

/-- R354: the 32 vectors do not wrap. -/
theorem vectorAddress_toNat {k : Nat} (hk : k < 32) : (vectorAddress k).toNat = 0x1000 + 0x100 * k := by
  simp [vectorAddress]
  omega

/-- R352: what `INT_CLEARS_IME` makes of `IME`. -/
theorem ime_of_intClearsIme {b ime ime' : Bool} (h : ime' = (ime && !b)) :
    (b = false → ime' = ime) ∧ (b = true → ime' = false) := by
  subst h
  exact ⟨fun hb => by simp [hb], fun hb => by simp [hb]⟩

/-- R341: the account of an entry on a stack with room, in the terms of the statements. -/
theorem takeException_entry (e : Exc) {s : State} (hroom : 0xFFFE0000 < s.sp) :
    let t := s.takeException e
    t.ec = e.code ∧ t.pc = 0x00001000 ∧ t.sp = s.sp - 4 ∧ s.stored t 6 (s.sp - 4) 4 s.pc ∧
    (s.cfg.intClearsIme = false → t.ime = s.ime) ∧ (s.cfg.intClearsIme = true → t.ime = false) ∧
    OnBus 6 { s with ec := t.ec, pc := t.pc, sp := t.sp, ime := t.ime, raised := true } t := by
  obtain ⟨hbus, hstored⟩ := s.takeException_onBus e (s.stackFull_false_iff.2 hroom)
  obtain ⟨hkeep, hclear⟩ := ime_of_intClearsIme hbus.ime
  refine ⟨hbus.ec, hbus.pc, hbus.sp, hstored, hkeep, hclear, ?_⟩
  simp only [hbus.ec, hbus.pc, hbus.sp, hbus.ime]
  exact hbus

/-- Settles O44: the codes are the table's; an entry with room is a push and a jump. -/
theorem exceptionEntry : Obligations.ExceptionEntry :=
  ⟨rfl, rfl, rfl, rfl, rfl, rfl, rfl, rfl, fun e _ hroom => takeException_entry e hroom⟩

/-- R344: a machine that is `Faulted` is stuck. -/
theorem step_faulted {s : State} (h : s.faulted = true) : step s = .fault .doubleFault := by
  simp [step, h]

/-- Settles O45: both entries test the stack first. -/
theorem fullStackEntryFaults : Obligations.FullStackEntryFaults :=
  ⟨fun _ s h => State.takeException_full (s.stackFull_iff.2 h), fun _ s h => State.takeInterrupt_full (s.stackFull_iff.2 h),
    fun _ h => step_faulted h⟩

/-- Settles O52: the state the entry pushes from has the bit of `IF` and `H` cleared and nothing else. -/
theorem interruptEntry : Obligations.InterruptEntry := by
  intro k s hk hroom
  obtain ⟨hbus, hstored⟩ := s.takeInterrupt_onBus k (s.stackFull_false_iff.2 hroom)
  refine ⟨({ s with intFlags := putBit s.intFlags k false } : State).putColumn ⟨none, none, some false, none, none, none⟩,
    rfl, fun i _ => putBit_getLsbD _ _ _ _ hk, State.flagsAfter_putColumn _ _ rfl rfl rfl rfl rfl rfl rfl, hbus.ime, hbus.sp,
    ?_, hstored, ?_⟩
  · rw [hbus.pc]
    exact vectorAddress_toNat hk
  · rw [hbus.sp, hbus.pc]
    exact hbus

/-- An interrupt entry leaves the `EI` latch. -/
theorem takeInterrupt_ei (s : State) (k : Nat) : (s.takeInterrupt k).ei = s.ei := by
  cases h : s.stackFull
  · exact (s.takeInterrupt_onBus k h).1.ei
  · rw [State.takeInterrupt_full h]

/-! ## The end of a frame, part by part -/

theorem deliverHwError_waits {s : State} (h : s.hwError = false ∨ s.raised = true) : s.deliverHwError = s := by
  unfold State.deliverHwError
  rcases h with h | h <;> simp [h]

theorem deliverHwError_enters {s : State} (hw : s.hwError = true) (hr : s.raised = false) :
    s.deliverHwError = ({ s with hwError := false } : State).takeException .hardwareError := by
  simp [State.deliverHwError, hw, hr]

theorem haltWake_awake {s : State} (h : s.flag .L = false ∨ s.intFlags = 0) : s.haltWake = s := by
  unfold State.haltWake
  rcases h with h | h <;> simp [h]

theorem haltWake_wakes {s : State} (hL : s.flag .L = true) (h : s.intFlags ≠ 0) : s.haltWake = s.setFlag .L false := by
  unfold State.haltWake
  rw [if_pos (by simpa [hL] using h)]

theorem serviceInterrupt_none {s : State} (h : s.ime = false ∨ s.intFlags &&& s.intEnable = 0) : s.serviceInterrupt = s := by
  unfold State.serviceInterrupt
  rcases h with h | h
  · simp [h]
  · rw [h, lowestBit_zero]
    simp

/-- R348: of the enabled pending interrupts the lowest-numbered is entered. -/
theorem serviceInterrupt_lowest {s : State} {k : Nat} (hime : s.ime = true) (hflag : s.intFlags.getLsbD k = true)
    (henable : s.intEnable.getLsbD k = true)
    (hlow : ∀ j, j < k → s.intFlags.getLsbD j = false ∨ s.intEnable.getLsbD j = false) :
    s.serviceInterrupt = s.takeInterrupt k := by
  have hk : lowestBit (s.intFlags &&& s.intEnable) = some k :=
    lowestBit_eq_some (by simp [hflag, henable]) fun j hj => by
      rcases hlow j hj with h | h <;> simp [h]
  simp [State.serviceInterrupt, hime, hk]

theorem commitEi_clear {s : State} (h : s.ei = false) : s.commitEi = s := by
  simp [State.commitEi, h]

theorem commitEi_set {s : State} (h : s.ei = true) : s.commitEi = { s with ime := true, ei := false } := by
  simp [State.commitEi, h]

/-- R330, steps 3 to 5: what the interrupt test leaves is committed unless it faulted. -/
theorem endFrame_of_service {s t : State} (h : s.haltWake.serviceInterrupt = t) :
    s.endFrame = if t.faulted then t else t.commitEi := by
  rw [State.endFrame, h]

/-- With the latch clear the end of a frame is the interrupt test alone. -/
theorem endFrame_of_service_clear {s t : State} (h : s.haltWake.serviceInterrupt = t) (hei : t.ei = false) :
    s.endFrame = t := by
  rw [endFrame_of_service h, commitEi_clear hei, ite_self]

/-- R330: with nothing to wake, no interrupt to enter and the latch clear, nothing follows. -/
theorem endFrame_quiet {s : State} (hL : s.flag .L = false) (hime : s.ime = false) (hei : s.ei = false) : s.endFrame = s :=
  endFrame_of_service_clear (by rw [haltWake_awake (.inl hL), serviceInterrupt_none (.inl hime)]) hei

/-- R344, D34: after a double fault or `STOP` the rest of the frame is skipped. -/
theorem afterInstruction_skips {s : State} (h : s.faulted = true ∨ s.flag .T = true) : s.afterInstruction = s := by
  unfold State.afterInstruction
  rw [if_pos (by simpa using h)]

/-- R330: steps 2b to 5, the delivery first. -/
theorem afterInstruction_delivers {s : State} (hf : s.faulted = false) (hT : s.flag .T = false) :
    s.afterInstruction = if s.deliverHwError.faulted then s.deliverHwError else s.deliverHwError.endFrame := by
  unfold State.afterInstruction
  rw [if_neg (by simp [hf, hT])]

/-- R330: with no hardware error the end of the frame follows the instruction. -/
theorem afterInstruction_of_no_error {s : State} (hf : s.faulted = false) (hT : s.flag .T = false) (hw : s.hwError = false) :
    s.afterInstruction = s.endFrame := by
  rw [afterInstruction_delivers hf hT, deliverHwError_waits (.inl hw), if_neg (by simp [hf])]

/-! ## The statements about the end of a frame -/

/-- R346, R349: the interrupt test of a running frame, the latch clear or set. -/
theorem afterInstruction_interrupted {s : State} {k : Nat} (hserve : s.serviceInterrupt = s.takeInterrupt k)
    (hf : s.faulted = false) (hT : s.flag .T = false) (hL : s.flag .L = false) (hw : s.hwError = false) :
    (s.ei = false → s.afterInstruction = s.takeInterrupt k) ∧
    (s.ei = true → 0xFFFE0000 < s.sp →
      s.afterInstruction = { s.takeInterrupt k with ime := true, ei := false }) := by
  have hend : s.haltWake.serviceInterrupt = s.takeInterrupt k := by rw [haltWake_awake (.inl hL), hserve]
  rw [afterInstruction_of_no_error hf hT hw]
  refine ⟨fun hei => endFrame_of_service_clear hend ((takeInterrupt_ei s k).trans hei), fun hei hroom => ?_⟩
  have hnofault : (s.takeInterrupt k).faulted = false :=
    ((s.takeInterrupt_onBus k (s.stackFull_false_iff.2 hroom)).1.faulted).trans hf
  rw [endFrame_of_service hend, if_neg (by simp [hnofault]), commitEi_set ((takeInterrupt_ei s k).trans hei)]

/-- Settles O51: the test enters the lowest bit it finds in `IF` and `IE`; it is what stands between the instruction and the
commit. -/
theorem lowestInterruptIsServiced : Obligations.LowestInterruptIsServiced := by
  intro s
  refine ⟨fun h => serviceInterrupt_none (.inl h), fun h => serviceInterrupt_none (.inr h),
    fun k hime hflag henable hlow => ?_⟩
  have hserve := serviceInterrupt_lowest hime hflag henable hlow
  exact ⟨hserve, fun hf hT hL hw => afterInstruction_interrupted hserve hf hT hL hw⟩

/-- R340: where nothing else is to do, the delivery is all that follows an instruction. -/
theorem afterInstruction_quiet {s : State} (hf : s.faulted = false) (hT : s.flag .T = false) (hL : s.flag .L = false)
    (hime : s.ime = false) (hei : s.ei = false) : s.afterInstruction = s.deliverHwError := by
  rw [afterInstruction_delivers hf hT]
  split
  case isTrue => rfl
  case isFalse hnofault =>
    rcases s.deliverHwError_cases with h | ⟨-, -, h⟩ <;> rw [h] at hnofault ⊢
    · exact endFrame_quiet hL hime hei
    · cases hfull : ({ s with hwError := false } : State).stackFull
      · have hbus := (State.takeException_onBus .hardwareError hfull).1
        exact endFrame_quiet ((hbus.low 1 (by omega)).trans hL) (hbus.ime.trans (by simp [hime])) (hbus.ei.trans hei)
      · exact absurd (by rw [State.takeException_full hfull]) hnofault

/-- Settles O55: the delivery is an exception entry from the state with the latch cleared; the end of the frame follows it. -/
theorem hardwareErrorDelivery : Obligations.HardwareErrorDelivery := by
  intro s t
  refine ⟨deliverHwError_waits, fun hw hr hfull => ?full, fun hw hr hroom => ?room, fun hf hT => ⟨fun ht => ?_, fun ht => ?_,
    fun hL hime hei => afterInstruction_quiet hf hT hL hime hei⟩⟩
  case full =>
    exact (deliverHwError_enters hw hr).trans
      (State.takeException_full (State.stackFull_iff { s with hwError := false } |>.2 hfull))
  case room =>
    have hentry := takeException_entry .hardwareError (s := { s with hwError := false }) hroom
    rw [← deliverHwError_enters hw hr] at hentry
    exact hentry
  · rw [afterInstruction_delivers hf hT, if_pos ht]
  · rw [afterInstruction_delivers hf hT, if_neg (by simp [show s.deliverHwError.faulted = false from ht])]

/-! ## `DI`, `EI`, `STOP`, `HALT` -/

section

variable (s : State)

theorem exec_di : exec .di s = .next { s with ime := false } := rfl

theorem exec_ei : exec .ei s = .next { s with ei := true } := rfl

theorem exec_stop : exec .stop s = .next { s with f := putBit s.f 0 true } := rfl

theorem exec_halt : exec .halt s = .next { s with f := putBit s.f 1 true } := rfl

end

/-- R349: a running frame whose instruction left the latch set ends with `IME` set and the latch clear, unless it ends
`Faulted`. -/
theorem endFrame_commits {s : State} (hei : s.ei = true) (hf : s.endFrame.faulted = false) :
    s.endFrame.ime = true ∧ s.endFrame.ei = false := by
  have hwake : s.haltWake.ei = true := by
    unfold State.haltWake
    split <;> simpa using hei
  have hserve : s.haltWake.serviceInterrupt.ei = true := by
    rcases s.haltWake.serviceInterrupt_cases with h | ⟨k, -, -, -, -, h⟩ <;> rw [h]
    · exact hwake
    · exact (takeInterrupt_ei _ k).trans hwake
  rw [endFrame_of_service rfl, commitEi_set hserve] at hf ⊢
  split at hf
  case isTrue hfault => rw [hfault] at hf; cases hf
  case isFalse hno => rw [if_neg hno]; exact ⟨rfl, rfl⟩

/-- Settles O15: after `DI` the interrupt test sees `IME` clear; after `EI` it still sees the old `IME`, and the commit follows. -/
theorem diAtOnceEiAtTheFramesEnd : Obligations.DiAtOnceEiAtTheFramesEnd := by
  intro s
  refine ⟨⟨_, exec_di s, fun _ => rfl, rfl⟩, ⟨_, exec_ei s, fun _ => rfl, rfl⟩, fun hf hw hT hL =>
    ⟨fun hei => ?di, fun hime => ?ei, ({ s with ei := true } : State).endFrame, ?commit, fun hno => endFrame_commits rfl hno⟩⟩
  case di =>
    rw [exec_di, finishFrame, afterInstruction_of_no_error (s := { s with ime := false }) hf hT hw]
    exact congrArg _ (endFrame_quiet (s := { s with ime := false }) hL rfl hei)
  case ei =>
    rw [exec_ei, finishFrame, afterInstruction_of_no_error (s := { s with ei := true }) hf hT hw, endFrame_of_service
      (t := { s with ei := true }) (by rw [haltWake_awake (s := { s with ei := true }) (.inl hL),
        serviceInterrupt_none (s := { s with ei := true }) (.inl hime)])]
    simp [hf, commitEi_set]
  case commit => rw [exec_ei, finishFrame, afterInstruction_of_no_error (s := { s with ei := true }) hf hT hw]

/-- Settles O16: each writes one bit of `F`; the bit `STOP` writes is what the rest of the frame asks. -/
theorem stopAndHaltSetTheirFlag : Obligations.StopAndHaltSetTheirFlag := by
  intro s
  have hbit (n : Nat) (hn : n < 32) : bitReplaced n true s.f (putBit s.f n true) :=
    fun i _ => putBit_getLsbD s.f n true i hn
  refine ⟨⟨_, exec_stop s, hbit 0 (by omega), fun _ => rfl, rfl, ?_⟩,
    ⟨_, exec_halt s, hbit 1 (by omega), fun _ => rfl, rfl⟩⟩
  have hT : ({ s with f := putBit s.f 0 true } : State).flag .T = true := hbit 0 (by omega) 0 (by omega)
  rw [exec_stop, finishFrame, afterInstruction_skips (.inr hT)]

/-! ## Frames without an instruction -/

theorem step_of_stopped {s : State} (hf : s.faulted = false) (hT : s.flag .T = true) : step s = .next s.stoppedFrame := by
  simp [step, State.beginFrame, hf, hT]

theorem step_of_halted {s : State} (hf : s.faulted = false) (hT : s.flag .T = false) (hL : s.flag .L = true) :
    step s = .next s.clock.endFrame := by
  simp [step, State.beginFrame, State.haltedFrame, hf, hT, hL]

/-- Settles O54: a stopped frame takes the next entry of the schedule of stopped frames, and does what it says. -/
theorem stoppedFrame : Obligations.StoppedFrame := by
  intro s hf hT
  obtain ⟨hrest, -⟩ := s.stoppedFrame_keeps
  refine ⟨_, step_of_stopped hf hT, ?_, fun hnone => ?_, fun now later hnow => ⟨fun k => ?_, fun hw => ?_, fun hw i hi => ?_⟩⟩
  · conv_lhs => rw [hrest]
    conv_rhs => rw [hrest]
  · simp only [State.stoppedFrame, hnone, List.headD_nil, List.tail_nil, Bool.false_eq_true, if_false]
    rw [← hnone, show s.intFlags ||| 0 = s.intFlags from BitVec.or_zero]
  · rw [hrest]
    simp [hnow]
  · simp [State.stoppedFrame, hnow, hw]
  · simp only [State.stoppedFrame, hnow, List.headD_cons, hw, if_true]
    exact putBit_getLsbD s.f 0 false i (by omega)

/-- Settles O53: the frame is a cycle and then its end, of which the halt-wake and the interrupt test may do something. -/
theorem haltedFrame : Obligations.HaltedFrame := by
  intro s hf hei hT hL p
  have hbus : OnBus 1 s p := s.clock_onBus
  have hpL : p.flag .L = true := (hbus.low 1 (by omega)).trans hL
  have hpei : p.ei = false := hbus.ei.trans hei
  rw [step_of_halted hf hT hL]
  refine ⟨hbus, s.clock_spared, fun hnone => ?_, fun hsome => ⟨p.setFlag .L false, ?_, rfl, fun hquiet => ?_,
    fun k hime hflag henable hlow => ?_⟩⟩
  · refine congrArg _ (endFrame_of_service_clear ?_ hpei)
    rw [haltWake_awake (.inr hnone), serviceInterrupt_none (.inr (by rw [show p.intFlags = 0 from hnone]; simp))]
  · exact fun i hi => putBit_getLsbD p.f 1 false i (by omega)
  · refine congrArg _ (endFrame_of_service_clear ?_ hpei)
    rw [haltWake_wakes hpL hsome]
    exact serviceInterrupt_none hquiet
  · refine congrArg _ (endFrame_of_service_clear ?_ ((takeInterrupt_ei _ k).trans hpei))
    rw [haltWake_wakes hpL hsome]
    exact serviceInterrupt_lowest hime hflag henable hlow

/-! ## Fetch and decode (R118) -/

@[simp] theorem opcodeFetched_cfg (s : State) (op : Half) : (EncodingFamily.opcodeFetched s op).cfg = s.cfg :=
  (s.clocks_onBus 2).cfg

/-- The opcode's fetch leaves the permissions as they were. -/
theorem opcodeFetched_allowsAll (s : State) (op : Half) (k : Access) (n : Nat) (adr : Addr) :
    (EncodingFamily.opcodeFetched s op).allowsAll k n adr = s.allowsAll k n adr :=
  State.allowsAll_congr (opcodeFetched_cfg s op) k n adr

/-- R118: once the opcode has been fetched and matches a row, the immediate is fetched. -/
theorem fetchDecode_of_row {s : State} (hexec : s.allowsAll .execute 2 s.pc = true)
    (hrow : Instr.ofOpcode s.cfg.strictZeroNibble (s.clock.byte (s.pc + 1) ++ s.byte s.pc) 0 ≠ none) :
    s.fetchDecode = (EncodingFamily.opcodeFetched s (s.clock.byte (s.pc + 1) ++ s.byte s.pc)).fetchImmediate
      (s.clock.byte (s.pc + 1) ++ s.byte s.pc) := by
  obtain ⟨w, t, hfetch, hw, rfl⟩ := State.fetch_opcode hexec
  rw [← (s.clocks_onBus 2).cfg] at hrow
  obtain ⟨i, hi⟩ := Option.ne_none_iff_exists'.1 hrow
  simp only [State.fetchDecode, hfetch, hw, hi]
  rfl

/-- R79, D6: a refused immediate. -/
theorem fetchImmediate_refused {s : State} {op : Half} (h : s.allowsAll .execute (immBytes op) s.pc = false) :
    s.fetchImmediate op = .raised .invalidExecute s := by
  rw [State.fetchImmediate, State.fetch_refused h]

/-- R118: an immediate that may be fetched. -/
theorem fetchImmediate_allowed {s : State} {op : Half} {i : Instr} (h : s.allowsAll .execute (immBytes op) s.pc = true)
    (hrow : Instr.ofOpcode s.cfg.strictZeroNibble op (leValue (s.bytesSeen s.pc (immBytes op))) = some i) :
    s.fetchImmediate op = .ready i
      (({ s.clocks (immBytes op) with pc := s.pc + BitVec.ofNat 32 (immBytes op) } : State).latchImmediate i) := by
  simp only [State.fetchImmediate, State.fetch_allowed h, hrow]

/-- R330: a frame whose fetch or decode raises. -/
theorem step_of_raised {s u : State} {e : Exc} (hf : s.faulted = false) (hT : s.flag .T = false) (hL : s.flag .L = false)
    (h : s.fetchDecode = .raised e u) : step s = .next (u.takeException e).afterInstruction := by
  simp [step, State.beginFrame, hf, hT, hL, h]

/-- R330: a frame whose fetch and decode answer an instruction. -/
theorem step_of_ready {s u : State} {i : Instr} (hf : s.faulted = false) (hT : s.flag .T = false) (hL : s.flag .L = false)
    (h : s.fetchDecode = .ready i u) : step s = finishFrame (exec i u) := by
  simp [step, State.beginFrame, hf, hT, hL, h]

/-- Settles O50: the opcode's fetch is refused at the start of the instruction, the immediate's when the opcode's two cycles are
over. -/
theorem refusedFetchesRaise : Obligations.RefusedFetchesRaise := by
  intro s
  refine ⟨fun h => ⟨?_, rfl, rfl⟩, fun op hexec hop hrow himm => ?_, fun hf hT hL e u h => step_of_raised hf hT hL h⟩
  · have hrefused : s.beginInstruction.allowsAll .execute 2 s.beginInstruction.pc = false := by
      rw [State.allowsAll_congr (t := s.beginInstruction) (s := s) rfl]; exact h
    simp only [State.fetchDecode, State.fetch_refused hrefused]
  · subst hop
    refine ⟨_, (fetchDecode_of_row hexec hrow).trans (fetchImmediate_refused ?_), rfl, rfl, rfl, (s.clocks_onBus 2).cycles⟩
    rw [opcodeFetched_allowsAll]
    exact himm

/-- Latching an immediate writes `SD` and `XD` at most. -/
theorem latchImmediate_eq (s : State) (i : Instr) :
    s.latchImmediate i = { s with sd := (s.latchImmediate i).sd, xd := (s.latchImmediate i).xd } := by
  cases i <;> rfl

/-- R118: bytes that may be executed and decode to `i` are fetched as `i`. -/
theorem fetchDecode_of_decode {s : State} {i : Instr} (hexec : s.allowsAll .execute i.length s.pc = true)
    (hdec : decode s.cfg.strictZeroNibble (s.bytesSeen s.pc i.length) = .ok (i, [])) :
    s.fetchDecode = .ready i (s.fetched i) := by
  obtain ⟨b0, b1, imm, hbytes, hlen, hrow⟩ := RoundTrip.decode_ok hdec
  obtain ⟨hexec2, hexecImm⟩ := (s.allowsAll_add .execute 2 i.immediate.1 s.pc).1 hexec
  rw [Instr.length, State.bytesSeen_add, State.bytesSeen_succ, State.bytesSeen_succ, List.append_nil] at hbytes
  simp only [List.cons_append, List.cons.injEq] at hbytes
  obtain ⟨h0, h1, himm⟩ := hbytes
  change (s.clocks 2).bytesSeen (s.pc + 2) i.immediate.1 = imm at himm
  subst h0 h1
  have hcount : immBytes (s.clock.byte (s.pc + 1) ++ s.byte s.pc : Half) = i.immediate.1 := by
    rw [← hlen, ← himm, State.bytesSeen_length]
  rw [fetchDecode_of_row hexec2 (ofOpcode_ne_none hrow), fetchImmediate_allowed (i := i)]
  · rw [hcount, State.fetched, EncodingFamily.opcodeFetched, State.clocks_latches, ← State.clocks_add, Instr.length,
      BitVec.ofNat_add, ← BitVec.add_assoc]
    rfl
  · rw [hcount, opcodeFetched_allowsAll]
    exact hexecImm
  · rw [hcount, opcodeFetched_cfg, EncodingFamily.opcodeFetched, State.bytesSeen_latches, himm]
    exact hrow

/-- Settles O49: fetch and decode answer `i` and the state of `fetched`, which is the platform's cycles and the latches. -/
theorem stepRunsTheDecodedInstruction : Obligations.StepRunsTheDecodedInstruction := by
  intro s i hf hT hL _ hexec hdec u
  have hbus := s.clocks_onBus i.length
  refine ⟨step_of_ready hf hT hL (fetchDecode_of_decode hexec hdec), fun k hk => s.clocks_spared k _ hk, ?_, ?_, ?_, ?_, ?_⟩
  · simp [u, State.fetched]
  · simp [u, State.fetched]
  · simp [u, State.fetched]
  · intro adr hadr
    rw [show u.byte adr = (s.clocks i.length).byte adr by simp [u, State.fetched, State.byte]]
    exact s.clocks_spared i.length adr hadr
  · have hu : u = { s.clocks i.length with
        pc := u.pc, ip := u.ip, sa := 0, da := 0, sd := u.sd, ci := u.ci, xd := u.xd, raised := false } := by
      simp only [u, State.fetched]
      rw [latchImmediate_eq]
    rw [hu]
    exact hbus.latches _ _ _ _ _ _ _ _

end Sys2Proof.Proofs.FrameFamily
end

section
/-! PROOFS. The families 41_data_transfer.md (R170 to R186) and 42_control_transfer.md (R115, R200 to R208): loads, stores, moves,
the stack, jumps, calls and returns. -/

namespace Sys2Proof.Proofs.TransferFamily

open Sys2Proof Sys2Proof.Machine

/-! ## Loads and stores -/

/-- R22: what a register write leaves of the state it starts from. -/
theorem writeReg_post (u : State) (x : Reg) (v : BitVec x.bits) :
    u.regsAfter (u.writeReg x v) x v ∧ u.bytesKept (u.writeReg x v) ∧
      u.writeReg x v = { u with
        a := (u.writeReg x v).a, b := (u.writeReg x v).b, c := (u.writeReg x v).c, d := (u.writeReg x v).d } :=
  ⟨State.regsAfter_of_full fun _ => rfl, u.writeReg_byte x v, u.writeReg_eq x v⟩

/-- R170: an instruction that is a load completes where every byte may be read. -/
theorem completes_of_loadFrom {i : Instr} {s : State} {x : Reg} {adr : Addr} (hexec : exec i s = loadFrom x adr s)
    (hallow : s.allowsAll .read x.bytes adr = true) :
    completes i s fun t => ∃ v u, s.reads adr x.bytes v u ∧
      u.regsAfter t x (v.setWidth x.bits) ∧ u.bytesKept t ∧ t = { u with a := t.a, b := t.b, c := t.c, d := t.d } :=
  ⟨_, hexec.trans (loadFrom_allowed hallow), _, _, s.dataRead_reads adr x.bytes (reg_bytes_le x), writeReg_post _ x _⟩

/-- R170: an instruction that is a store completes where every byte may be written. -/
theorem completes_of_storeTo {i : Instr} {s : State} {y : Reg} {adr : Addr} (hexec : exec i s = storeTo adr y s)
    (hallow : s.allowsAll .write y.bytes adr = true) :
    completes i s fun t => t = s.dataWrite adr y.bytes ((s.readReg y).setWidth 32) ∧ OnBus y.bytes { s with da := adr } t ∧
      s.stored t y.bytes adr y.bytes ((s.readReg y).setWidth 32) :=
  ⟨_, hexec.trans (storeTo_allowed hallow), rfl, s.dataWrite_onBus adr y.bytes _,
    s.dataWrite_stored adr y.bytes _ ((reg_bytes_le y).trans (by omega))⟩

section

variable (x y : Reg) (s : State)

/-! R172 to R183: what each load and each store is, once its argument check has passed. -/

theorem exec_ldAbs (adr : Addr) : exec (.ldAbs x adr) s = loadFrom x adr s := rfl

theorem exec_ldInd (hy : y.bits = 32) : exec (.ldInd x y) s = loadFrom x (s.address y) s := by
  rw [show exec (.ldInd x y) s = execLdInd x y s from rfl, execLdInd, hy]; rfl

theorem exec_ldhAbs (h : Half) : exec (.ldhAbs x h) s = loadFrom x (highPage h) s := rfl

theorem exec_ldhInd (hy : y.bits = 16) : exec (.ldhInd x y) s = loadFrom x (highPage (s.readReg y)) s := by
  rw [show exec (.ldhInd x y) s = execLdhInd x y s from rfl, execLdhInd, beq_iff_eq.2 hy]; rfl

theorem exec_ldpAbs (hx : x.bits = 8) (b : Byte) : exec (.ldpAbs x b) s = loadFrom x (portPage b) s := by
  rw [show exec (.ldpAbs x b) s = execLdpAbs x b s from rfl, execLdpAbs, hx]; rfl

theorem exec_ldpInd (hx : x.bits = 8) (hy : y.bits = 8) :
    exec (.ldpInd x y) s = loadFrom x (portPage (s.readReg y)) s := by
  rw [show exec (.ldpInd x y) s = execLdpInd x y s from rfl, execLdpInd, beq_iff_eq.2 hx, beq_iff_eq.2 hy]; rfl

theorem exec_stAbs (adr : Addr) : exec (.stAbs adr y) s = storeTo adr y s := rfl

theorem exec_stInd (hx : x.bits = 32) : exec (.stInd x y) s = storeTo (s.address x) y s := by
  rw [show exec (.stInd x y) s = execStInd x y s from rfl, execStInd, hx]; rfl

theorem exec_sthAbs (h : Half) : exec (.sthAbs h y) s = storeTo (highPage h) y s := rfl

theorem exec_sthInd (hx : x.bits = 16) : exec (.sthInd x y) s = storeTo (highPage (s.readReg x)) y s := by
  rw [show exec (.sthInd x y) s = execSthInd x y s from rfl, execSthInd, beq_iff_eq.2 hx]; rfl

theorem exec_stpAbs (hy : y.bits = 8) (b : Byte) : exec (.stpAbs b y) s = storeTo (portPage b) y s := by
  rw [show exec (.stpAbs b y) s = execStpAbs b y s from rfl, execStpAbs, hy]; rfl

theorem exec_stpInd (hx : x.bits = 8) (hy : y.bits = 8) :
    exec (.stpInd x y) s = storeTo (portPage (s.readReg x)) y s := by
  rw [show exec (.stpInd x y) s = execStpInd x y s from rfl, execStpInd, beq_iff_eq.2 hx, beq_iff_eq.2 hy]; rfl

end

/-- Settles O19: each load is `loadFrom` at its form's address. -/
theorem loadsFromMemory : Obligations.LoadsFromMemory := by
  unfold Obligations.LoadsFromMemory
  intro loads x y s
  exact ⟨fun adr => completes_of_loadFrom (exec_ldAbs x s adr), fun hy => completes_of_loadFrom (exec_ldInd x y s hy),
    fun h => completes_of_loadFrom (exec_ldhAbs x s h), fun hy => completes_of_loadFrom (exec_ldhInd x y s hy),
    fun hx b => completes_of_loadFrom (exec_ldpAbs x s hx b),
    fun hx hy => completes_of_loadFrom (exec_ldpInd x y s hx hy)⟩

/-- Settles O20: each store is `storeTo` at its form's address. -/
theorem storesToMemory : Obligations.StoresToMemory := by
  unfold Obligations.StoresToMemory
  intro stores x y s
  exact ⟨fun adr => completes_of_storeTo (exec_stAbs y s adr), fun hx => completes_of_storeTo (exec_stInd x y s hx),
    fun h => completes_of_storeTo (exec_sthAbs y s h), fun hx => completes_of_storeTo (exec_sthInd x y s hx),
    fun hy b => completes_of_storeTo (exec_stpAbs y s hy b),
    fun hx hy => completes_of_storeTo (exec_stpInd x y s hx hy)⟩

/-! ## Moves and the stack -/

/-- R184: the two cases in which a move is a move. -/
theorem exec_mv {x y : Reg} {s : State} (h : x.bits = y.bits ∨ s.cfg.mvMixedWidth = .zeroExtendTruncate) :
    exec (.mv x y) s = .next (s.writeReg x ((s.readReg y).setWidth x.bits)) := by
  have hok : (x.bits == y.bits || s.cfg.mvMixedWidth == .zeroExtendTruncate) = true := by simpa using h
  rw [show exec (.mv x y) s = execMv x y s from rfl, execMv, hok, requireArg_true]

/-- Settles O22: the value moved is the source modulo the destination's width. -/
theorem mvCopies : Obligations.MvCopies := by
  intro x y s h
  rw [BitVec.ofNat_toNat]
  exact DataTransferFamily.completes_of_writeReg (exec_mv h)

theorem exec_push {x : Reg} {s : State} (hx : x.bits = 32) (hroom : s.stackFull = false) :
    exec (.push x) s = .next (s.pushWord (s.address x)) := by
  rw [show exec (.push x) s = execPush x s from rfl, execPush, beq_iff_eq.2 hx, requireArg_true, withPush_room _ hroom]

theorem exec_pop {x : Reg} {s : State} (hx : x.bits = 32) (hsome : s.stackEmpty = false) :
    exec (.pop x) s = .next (s.popWord.2.writeReg x (s.popWord.1.setWidth x.bits)) := by
  rw [show exec (.pop x) s = execPop x s from rfl, execPop, beq_iff_eq.2 hx, requireArg_true, withPop_some _ hsome]

/-- Settles O23: a push is `pushWord`, a pop `popWord` and a register write. -/
theorem pushAndPop : Obligations.PushAndPop := fun x s hx =>
  ⟨fun hroom => ⟨_, exec_push hx (s.stackFull_false_iff.2 hroom), s.pushWord_pushed _⟩,
    fun hsome => ⟨_, exec_pop hx (s.stackEmpty_false_iff.2 hsome), _, _, s.popWord_popped, writeReg_post _ x _⟩⟩

/-! ## Conditions (R115, R200) -/

section

variable (z : Cond) (s : State)

/-! What each conditional instruction asks before it acts. -/

theorem exec_jmpImm (target : Addr) : exec (.jmpImm z target) s =
    requireArg z.assigned s (if s.cond z then .next (s.jump target) else .next s) := rfl

theorem exec_jmpReg (y : Reg) : exec (.jmpReg z y) s =
    requireArg (z.assigned && y.bits == 32) s (if s.cond z then .next (s.jump (s.address y)) else .next s) := rfl

theorem exec_jpb (disp : Half) : exec (.jpb z disp) s =
    requireArg z.assigned s (if s.cond z then .next (s.jump (s.pc + disp.signExtend 32)) else .next s) := rfl

theorem exec_call (target : Addr) : exec (.call z target) s =
    requireArg z.assigned s (if s.cond z then withPush s.pc s fun t => .next (t.jump target) else .next s) := rfl

theorem exec_ret : exec (.ret z) s = requireArg z.assigned s (if s.cond z then returnFrom s else .next s) := rfl

end

/-- R122, D11: an unassigned condition is an invalid argument of each of the five. -/
theorem exec_unassigned {z : Cond} (h : z.assigned = false) (s : State) (target : Addr) (y : Reg) (disp : Half) :
    exec (.jmpImm z target) s = .next (s.takeException .invalidArgument) ∧
    exec (.jmpReg z y) s = .next (s.takeException .invalidArgument) ∧
    exec (.jpb z disp) s = .next (s.takeException .invalidArgument) ∧
    exec (.call z target) s = .next (s.takeException .invalidArgument) ∧
    exec (.ret z) s = .next (s.takeException .invalidArgument) := by
  simp only [exec_jmpImm, exec_jmpReg, exec_jpb, exec_call, exec_ret, h, Bool.false_and, requireArg_false, and_self]

/-- R200: a condition that does not hold makes each of the five a no-op. -/
theorem exec_not_taken {z : Cond} {s : State} (h : z.assigned = true) (hc : s.cond z = false) (target : Addr) (y : Reg)
    (disp : Half) :
    exec (.jmpImm z target) s = .next s ∧ (y.bits = 32 → exec (.jmpReg z y) s = .next s) ∧
    exec (.jpb z disp) s = .next s ∧ exec (.call z target) s = .next s ∧ exec (.ret z) s = .next s := by
  refine ⟨?_, fun hy => ?_, ?_, ?_, ?_⟩
  · simp [exec_jmpImm, h, hc]
  · simp [exec_jmpReg, h, hc, hy]
  · simp [exec_jpb, h, hc]
  · simp [exec_call, h, hc]
  · simp [exec_ret, h, hc]

/-- R115: the seven codes without a meaning. -/
theorem assigned_ofCode (n : BitVec 4) :
    (Cond.ofCode n).assigned = decide (n ∉ [0x5, 0x6, 0x7, 0x8, 0xD, 0xE, 0xF]) := by
  revert n; decide

/-- Settles O7: the condition's code is the field `X` of the opcode; the nine conditions are the table's; the five instructions
check the code before they ask the condition. -/
theorem conditionsReadTheFlags : Obligations.ConditionsReadTheFlags := by
  intro s
  refine ⟨fun z y target disp => ?encodings, rfl, rfl, rfl, rfl, rfl, rfl, rfl, rfl, rfl, fun n target y disp hn => ?unassigned,
    fun n target y disp hn hc => ?notTaken⟩
  case encodings =>
    have hcode (o : Byte) (y : BitVec 4) : opcodeXY o (Cond.ofCode z).code y = opcodeXY o z y := by rw [code_ofCode_cond]
    exact ⟨DataTransferFamily.encode_eq_opcodeXY_append (hcode 0x20 0), GeneralFamily.encode_of_opcodeXY (hcode 0x21 y.code) rfl,
      DataTransferFamily.encode_eq_opcodeXY_append (hcode 0x22 0), DataTransferFamily.encode_eq_opcodeXY_append (hcode 0x23 0),
      GeneralFamily.encode_of_opcodeXY (hcode 0x25 0) rfl⟩
  case unassigned => exact exec_unassigned ((assigned_ofCode n).trans (decide_eq_false (not_not.2 hn))) s target y disp
  case notTaken => exact exec_not_taken ((assigned_ofCode n).trans (decide_eq_true hn)) hc target y disp

/-! ## Jumps -/

/-- R201: a jump completes with the platform's one cycle. -/
theorem completes_of_jump {i : Instr} {s : State} {target : Addr} (hexec : exec i s = .next (s.jump target)) :
    completes i s fun t => t = s.jump target ∧ OnBus 1 { s with pc := target } t ∧ s.bytesSpared t 1 :=
  ⟨_, hexec, rfl, s.jump_onBus target, s.jump_spared target⟩

/-- An instruction that does nothing. -/
theorem completes_of_pass {i : Instr} {s : State} (hexec : exec i s = .next s) :
    completes i s fun t => s.bytesKept t ∧ t = s :=
  ⟨s, hexec, fun _ => rfl, rfl⟩

/-- Settles O24: the argument check, then the condition, then the jump. -/
theorem jmpGoesToItsTarget : Obligations.JmpGoesToItsTarget := by
  unfold Obligations.JmpGoesToItsTarget
  intro jumps passes z target y s
  refine ⟨DataTransferFamily.encode_eq_opcodeXY_append rfl, GeneralFamily.encode_of_opcodeXY rfl rfl,
    GeneralFamily.takesBytes_length (.jmpImm z target) s, GeneralFamily.takesBytes_length (.jmpReg z y) s,
    fun hz => (exec_unassigned hz s target y 0).1, fun hzy => ?invalid, fun hz => ?imm, fun hz hy => ?reg⟩
  case invalid =>
    have hargs : (z.assigned && y.bits == 32) = false := by
      rcases hzy with hz | hy
      · simp [hz]
      · simp [hy]
    rw [exec_jmpReg, hargs, requireArg_false]
  case imm =>
    cases hc : s.cond z
    · exact completes_of_pass (exec_not_taken hz hc target y 0).1
    · exact completes_of_jump (by simp [exec_jmpImm, hz, hc])
  case reg =>
    cases hc : s.cond z
    · exact completes_of_pass ((exec_not_taken hz hc target y 0).2.1 hy)
    · exact completes_of_jump (by simp [exec_jmpReg, hz, hc, hy])

/-- R203: a sign-extended displacement is added as the signed number it is, modulo `2^32`. -/
theorem add_signExtend_toNat (p : Word) (disp : Half) :
    ((p + disp.signExtend 32).toNat : Int) = ((p.toNat : Int) + disp.toInt) % 2 ^ 32 := by
  have hp := p.isLt
  have hd := disp.isLt
  rw [BitVec.toNat_add, BitVec.toNat_signExtend, BitVec.toInt_eq_toNat_cond, BitVec.msb_eq_decide]
  simp only [BitVec.toNat_setWidth, decide_eq_true_eq]
  split_ifs <;> omega

/-- Settles O25: the jump goes to `pc` plus the displacement. -/
theorem jpbIsRelative : Obligations.JpbIsRelative := by
  intro z disp s hz
  refine ⟨fun hc => completes_of_pass (exec_not_taken hz hc 0 ⟨.A, .full⟩ disp).2.2.1, fun hc => ?_⟩
  have hexec : exec (.jpb z disp) s = .next (s.jump (s.pc + disp.signExtend 32)) := by simp [exec_jpb, hz, hc]
  refine ⟨_, hexec, ?_, ?_⟩
  · rw [State.jump_pc]
    exact add_signExtend_toNat s.pc disp
  · rw [State.jump_pc]
    exact ⟨rfl, s.jump_onBus _, s.jump_spared _⟩

/-! ## Calls and returns -/

/-- R204: a call on a stack with room pushes `pc` and jumps. -/
theorem exec_call_taken {z : Cond} {s : State} (hz : z.assigned = true) (hc : s.cond z = true) (hroom : s.stackFull = false)
    (target : Addr) : exec (.call z target) s = .next ((s.pushWord s.pc).jump target) := by
  rw [exec_call, hz, requireArg_true, if_pos hc, withPush_room _ hroom]

/-- R205: `INT XX` on a stack with room is an entry at its vector. -/
theorem exec_intVec_room {xx : Byte} {s : State} (hxx : xx.toNat ≤ 0x1F) (hroom : s.stackFull = false) :
    exec (.intVec xx) s = .next ((s.pushWord s.pc).enterByInt.jump (vectorAddress xx.toNat)) := by
  rw [show exec (.intVec xx) s = execIntVec xx s from rfl, execIntVec, decide_eq_true hxx, requireArg_true,
    withPush_room _ hroom]

/-- R205, R352: what an entry by `INT` leaves. -/
theorem enterByInt_post (s : State) (v : Word) {k : Nat} (hk : k < 32) :
    let t := (s.pushWord v).enterByInt.jump (vectorAddress k)
    (∃ u, s.pushed v u ∧ t = ({ u with ime := t.ime } : State).jump t.pc) ∧ t.pc.toNat = 0x1000 + 0x100 * k ∧
      (s.cfg.intClearsIme = false → t.ime = s.ime) ∧ (s.cfg.intClearsIme = true → t.ime = false) ∧
      OnBus 6 { s with sp := s.sp - 4, pc := t.pc, ime := t.ime } t ∧ s.stored t 6 (s.sp - 4) 4 v := by
  obtain ⟨hbus, hstored⟩ := s.enterByInt_onBus v (vectorAddress k)
  obtain ⟨hkeep, hclear⟩ := FrameFamily.ime_of_intClearsIme hbus.ime
  refine ⟨⟨_, s.pushWord_pushed v, ?_⟩, ?_, hkeep, hclear, ?_, hstored⟩
  · rw [hbus.pc, hbus.ime, State.pushWord_enterByInt]
  · rw [hbus.pc]
    exact FrameFamily.vectorAddress_toNat hk
  · rw [hbus.pc, hbus.ime]
    exact hbus

/-- Settles O26: a call is a push and a jump; `INT` lets the parameter act on `IME` between them. -/
theorem callAndInt : Obligations.CallAndInt := by
  intro z target xx s
  refine ⟨fun hz hc => completes_of_pass (exec_not_taken hz hc target ⟨.A, .full⟩ 0).2.2.2.1, fun hz hc hroom => ?_,
    fun hxx hroom => ?_⟩
  · exact ⟨_, exec_call_taken hz hc (s.stackFull_false_iff.2 hroom) target, ⟨_, s.pushWord_pushed s.pc, rfl⟩,
      s.entry_onBus s.pc target⟩
  · exact ⟨_, exec_intVec_room hxx (s.stackFull_false_iff.2 hroom), enterByInt_post s s.pc (by omega)⟩

/-- R206, R207: a return on a stack that is not empty. -/
theorem returnFrom_some {s : State} (h : s.stackEmpty = false) : returnFrom s = .next (s.popWord.2.jump s.popWord.1) := by
  rw [returnFrom, withPop_some _ h]

/-- R206: what a return leaves. -/
theorem returnFrom_post (s : State) :
    let t := s.popWord.2.jump s.popWord.1
    (∃ u, s.popped t.pc u ∧ t = u.jump t.pc) ∧ OnBus 6 { s with pc := t.pc, sp := s.sp + 4 } t ∧ s.bytesSpared t 6 := by
  simp only [State.jump_pc]
  exact ⟨⟨_, s.popWord_popped, rfl⟩, (s.popWord_onBus.setPc _).trans (State.jump_onBus _ _),
    State.bytesSpared.trans (s := { s with sp := s.sp + 4 }) s.popWord_spared s.popWord_onBus (State.jump_spared _ _)⟩

theorem exec_ret_taken {z : Cond} {s : State} (hz : z.assigned = true) (hc : s.cond z = true) (hsome : s.stackEmpty = false) :
    exec (.ret z) s = .next (s.popWord.2.jump s.popWord.1) := by
  rw [exec_ret, hz, requireArg_true, if_pos hc, returnFrom_some hsome]

/-- R207: `RETI` sets `IME` before it pops; the stack's test is the same. -/
theorem exec_reti_some {s : State} (hsome : s.stackEmpty = false) :
    exec .reti s =
      .next (({ s with ime := true } : State).popWord.2.jump ({ s with ime := true } : State).popWord.1) := by
  rw [show exec .reti s = execReti s from rfl, execReti, if_neg (by simp [hsome])]
  exact returnFrom_some (s := { s with ime := true }) hsome

/-- Settles O27: both returns are a pop and a jump to the double-word popped. -/
theorem retAndReti : Obligations.RetAndReti := fun _ s =>
  ⟨fun hz hc => completes_of_pass (exec_not_taken hz hc 0 ⟨.A, .full⟩ 0).2.2.2.2,
    fun hz hc hsome => ⟨_, exec_ret_taken hz hc (s.stackEmpty_false_iff.2 hsome), returnFrom_post s⟩,
    fun hsome => ⟨_, exec_reti_some (s.stackEmpty_false_iff.2 hsome), returnFrom_post { s with ime := true }⟩⟩

end Sys2Proof.Proofs.TransferFamily
end

section
/-! PROOFS. The families 43_arithmetic.md to 47_bit_ops.md (R220 to R318) and `DAA` (R157): each instruction is one of the shared
cores, whose result and flags are brought to the plain arithmetic, or the bits, of its statement. -/

namespace Sys2Proof.Proofs.AluFamily

open Sys2Proof Sys2Proof.Machine

/-! ## Flags of a result -/

/-- R38: `Z` of a result. -/
theorem fits_zeroOf {w : Nat} (r : BitVec w) : (FlagEffect.is (decide (r = 0))).fits (some (zeroOf r)) := by
  rw [zeroOf_eq]; rfl

/-- R38: `P` of a result. -/
theorem fits_parityOf {w : Nat} (r : BitVec w) : (FlagEffect.is (evenParity r)).fits (some (parityOf r)) := by
  rw [parityOf_eq]; rfl

/-- An entry that is the value the statement names. -/
theorem fits_of_eq {b b' : Bool} (h : b' = b) : (FlagEffect.is b).fits (some b') := by
  rw [h]; rfl

/-! ## Operands -/

/-- The width of a register is not so small that 1 or its half-carry would wrap. -/
theorem one_toNat (x : Reg) : (1 : BitVec x.bits).toNat = 1 := by
  obtain ⟨_, v⟩ := x; cases v <;> rfl

theorem one_mod_half (x : Reg) : 1 % 2 ^ (x.bits - 4) = 1 := by
  obtain ⟨_, v⟩ := x; cases v <;> rfl

/-- R220(b): the form `[ADDR32]` with a readable operand runs on the value read. -/
theorem withAbs_reads {x : Reg} {adr : Addr} {s : State} {v : Word} {u : State} (k : BitVec x.bits → State → Result)
    (hallow : s.allowsAll .read x.bytes adr = true) (hvu : (v, u) = s.dataRead adr x.bytes) :
    withAbs x adr s k = k (v.setWidth x.bits) u := by
  rw [withAbs_allowed k hallow, ← hvu]

/-- R220(b): the form `[Y32]` with a readable operand runs on the value read. -/
theorem withInd_reads {x y : Reg} {adr : Addr} {s : State} {v : Word} {u : State} (k : BitVec x.bits → State → Result)
    (hallow : s.allowsAll .read x.bytes adr = true) (hvu : (v, u) = s.dataRead adr x.bytes) (hy : y.bits = 32)
    (hadr : s.address y = adr) : withInd x y s k = k (v.setWidth x.bits) u := by
  rw [withInd_wide k hy, hadr, withAbs_reads k hallow hvu]

/-- Reading the operand leaves `X`. -/
theorem readReg_of_dataRead {s u : State} {adr : Addr} {n : Nat} {v : Word} (hvu : (v, u) = s.dataRead adr n) (x : Reg) :
    u.readReg x = s.readReg x := by
  rw [show u = (s.dataRead adr n).2 by rw [← hvu], State.dataRead_readReg]

/-! ## Addition -/

/-- What `AddOp` leaves in `t`, from `u` on, of the operands `v` and `y` and the carry `c` (R220(d)). -/
def AddPost (x : Reg) (v y : BitVec x.bits) (c : Bool) (u t : State) : Prop :=
  let w := x.bits
  let sum := v.toNat + y.toNat + c.toNat
  let r := BitVec.ofNat w sum
  let half := v.toNat % 2 ^ (w - 4) + y.toNat % 2 ^ (w - 4) + c.toNat
  u.regsAfter t x r ∧
  u.flagsAfter t (.is (decide (r = 0))) (.is false) (halfEffect w (decide (2 ^ (w - 4) ≤ half)))
    (.is (decide (2 ^ w ≤ sum))) (.is false) (.is (evenParity r)) ∧
  u.bytesKept t ∧ t = { u with a := t.a, b := t.b, c := t.c, d := t.d, f := t.f, draws := t.draws }

theorem completes_of_addInto {i : Instr} {s u : State} {x : Reg} {y : BitVec x.bits} {c : Bool}
    (hexec : exec i s = addInto x y c u) (hv : u.readReg x = s.readReg x) :
    completes i s (AddPost x (s.readReg x) y c u) := by
  rw [← hv]
  exact ⟨_, hexec, u.alu_post x _ _ _ (fits_zeroOf _) rfl (halfAdd_fits _ _ _ _ _ rfl) (fits_of_eq (carryAdd_eq _ _ _)) rfl
    (fits_parityOf _)⟩

/-- Settles O30: `ADD` and `ADC` are `AddOp` on the operand of their form. -/
theorem addAndAdc : Obligations.AddAndAdc := by
  unfold Obligations.AddAndAdc
  intro adds x y imm adr s
  refine ⟨completes_of_addInto rfl rfl, completes_of_addInto rfl rfl, fun hallow => ?_⟩
  have hreads := s.dataRead_reads adr x.bytes (reg_bytes_le x)
  have hv := readReg_of_dataRead hreads.1 x
  exact ⟨_, _, hreads, completes_of_addInto (withAbs_reads (fun v t => addInto x v false t) hallow hreads.1) hv,
    completes_of_addInto (withAbs_reads (fun v t => addInto x v (s.flag .C) t) hallow hreads.1) hv, fun hy hadr =>
    ⟨completes_of_addInto (withInd_reads (fun v t => addInto x v false t) hallow hreads.1 hy hadr) hv,
      completes_of_addInto (withInd_reads (fun v t => addInto x v (s.flag .C) t) hallow hreads.1 hy hadr) hv⟩⟩

/-! ## Subtraction and comparison -/

/-- R47: a borrow, in integers. -/
theorem borrow_iff (x y c : Nat) : decide (x < y + c) = decide ((x : Int) - y - c < 0) := by
  simp only [decide_eq_decide]; omega

/-- What `SubOp` leaves in `t`, from `u` on, of the operands `v` and `y` and the borrow `c` (R220(d)). -/
def SubPost (x : Reg) (v y : BitVec x.bits) (c : Bool) (u t : State) : Prop :=
  let w := x.bits
  let r := BitVec.ofInt w ((v.toNat : Int) - y.toNat - c.toNat)
  let half : Int := (v.toNat % 2 ^ (w - 4) : Nat) - (y.toNat % 2 ^ (w - 4) : Nat) - c.toNat
  u.regsAfter t x r ∧
  u.flagsAfter t (.is (decide (r = 0))) (.is true) (halfEffect w (decide (half < 0)))
    (.is (decide ((v.toNat : Int) - y.toNat - c.toNat < 0))) (.is (decide (r.toInt < 0))) (.is (evenParity r)) ∧
  u.bytesKept t ∧ t = { u with a := t.a, b := t.b, c := t.c, d := t.d, f := t.f, draws := t.draws }

theorem completes_of_subInto {i : Instr} {s u : State} {x : Reg} {y : BitVec x.bits} {c : Bool}
    (hexec : exec i s = subInto x y c u) (hv : u.readReg x = s.readReg x) :
    completes i s (SubPost x (s.readReg x) y c u) := by
  rw [← hv]
  refine ⟨_, hexec, ?_⟩
  simp only [SubPost, ← subValue_eq]
  exact u.alu_post x _ _ _ (fits_zeroOf _) rfl (halfSub_fits _ _ _ _ _ (borrow_iff _ _ _).symm)
    (fits_of_eq (borrow_iff _ _ _)) (fits_of_eq (signOf_eq _)) (fits_parityOf _)

/-- Settles O31: `SUB` and `SBC` are `SubOp` on the operand of their form. -/
theorem subAndSbc : Obligations.SubAndSbc := by
  unfold Obligations.SubAndSbc
  intro subs x y imm adr s
  refine ⟨completes_of_subInto rfl rfl, completes_of_subInto rfl rfl, fun hallow => ?_⟩
  have hreads := s.dataRead_reads adr x.bytes (reg_bytes_le x)
  have hv := readReg_of_dataRead hreads.1 x
  exact ⟨_, _, hreads, completes_of_subInto (withAbs_reads (fun v t => subInto x v false t) hallow hreads.1) hv,
    completes_of_subInto (withAbs_reads (fun v t => subInto x v (s.flag .C) t) hallow hreads.1) hv, fun hy hadr =>
    ⟨completes_of_subInto (withInd_reads (fun v t => subInto x v false t) hallow hreads.1 hy hadr) hv,
      completes_of_subInto (withInd_reads (fun v t => subInto x v (s.flag .C) t) hallow hreads.1 hy hadr) hv⟩⟩

/-- A subtraction without a borrow in. -/
theorem subValue_false {w : Nat} (v y : BitVec w) : subValue v y false = v - y := by
  simp [subValue]

/-- R273: what `CMP` leaves in `t`, from `u` on, of the operands `v` and `y`. -/
def CmpPost (x : Reg) (v y : BitVec x.bits) (u t : State) : Prop :=
  let w := x.bits
  u.flagsAfter t (.is (decide (v = y))) (.is true)
    (halfEffect w (decide (v.toNat % 2 ^ (w - 4) < y.toNat % 2 ^ (w - 4)))) (.is (decide (v < y)))
    (.is ((v - y).getLsbD (w - 1))) .kept ∧
  u.bytesKept t ∧ t = { u with f := t.f, draws := t.draws }

/-- Only a draw follows the column. -/
theorem drawH_putColumn_eq (u : State) (k : Column) (w : Nat) :
    (u.putColumn k).drawH w = { u with f := ((u.putColumn k).drawH w).f, draws := ((u.putColumn k).drawH w).draws } := by
  apply State.eq_of_fields <;> simp

theorem completes_of_compareWith {i : Instr} {s u : State} {x : Reg} {y : BitVec x.bits}
    (hexec : exec i s = compareWith x y u) (hv : u.readReg x = s.readReg x) :
    completes i s (CmpPost x (s.readReg x) y u) := by
  rw [← hv]
  have hz : zeroOf (subValue (u.readReg x) y false) = decide (u.readReg x = y) := by
    rw [zeroOf_eq, subValue_false]
    exact decide_eq_decide.2 sub_eq_zero
  have hs : signOf (subValue (u.readReg x) y false) = (u.readReg x - y).getLsbD (x.bits - 1) := by
    rw [subValue_false]; rfl
  refine ⟨_, hexec, ?_, fun adr => by simp [State.byte], drawH_putColumn_eq u _ _⟩
  rw [State.flagsAfter_congr (State.drawH_f _ _)]
  exact State.flagsAfter_putColumn u _ rfl (fits_of_eq hz) rfl (halfSub_fits _ _ _ _ _ rfl) (fits_of_eq rfl) (fits_of_eq hs) rfl

/-- Settles O34: `CMP` is the column of a subtraction without `P`. -/
theorem cmpCompares : Obligations.CmpCompares := by
  unfold Obligations.CmpCompares
  intro compares x y imm adr s
  refine ⟨completes_of_compareWith rfl rfl, fun hallow => ?_⟩
  have hreads := s.dataRead_reads adr x.bytes (reg_bytes_le x)
  have hv := readReg_of_dataRead hreads.1 x
  exact ⟨_, _, hreads, completes_of_compareWith (withAbs_reads (fun v t => compareWith x v t) hallow hreads.1) hv, fun hy hadr =>
    completes_of_compareWith (withInd_reads (fun v t => compareWith x v t) hallow hreads.1 hy hadr) hv⟩

/-! ## Increment and decrement -/

/-- R223: one less, as a sum modulo `2^w`. -/
theorem subValue_one {w : Nat} (v : BitVec w) (h1 : (1 : BitVec w).toNat = 1) :
    subValue v 1 false = BitVec.ofNat w (2 ^ w + v.toNat - 1) := by
  apply BitVec.eq_of_toNat_eq
  have hpos := Nat.two_pow_pos w
  rw [subValue_false, BitVec.toNat_sub, h1, BitVec.toNat_ofNat]
  congr 1
  omega

/-- R221: one more. -/
theorem addValue_one {w : Nat} (v : BitVec w) (h1 : (1 : BitVec w).toNat = 1) :
    addValue v 1 false = BitVec.ofNat w (v.toNat + 1) := by
  rw [addValue, h1]; rfl

/-- Settles O28: the cores of addition and subtraction with the operand 1, `C` and `S` left alone. -/
theorem incAndDecRegisters : Obligations.IncAndDecRegisters := by
  intro x s w v steps
  refine ⟨?inc, ?dec⟩
  case inc =>
    have hr : addValue (s.readReg x) 1 false = BitVec.ofNat w (v + 1) := addValue_one _ (one_toNat x)
    refine ⟨_, rfl, ?_⟩
    rw [← hr]
    refine s.alu_post x _ _ _ (fits_zeroOf _) rfl (halfAdd_fits _ _ _ _ _ ?_) rfl rfl (fits_parityOf _)
    rw [one_toNat, one_mod_half]; rfl
  case dec =>
    have hr : subValue (s.readReg x) 1 false = BitVec.ofNat w (2 ^ w + v - 1) := subValue_one _ (one_toNat x)
    refine ⟨_, rfl, ?_⟩
    rw [← hr]
    refine s.alu_post x _ _ _ (fits_zeroOf _) rfl (halfSub_fits _ _ _ _ _ ?_) rfl rfl (fits_parityOf _)
    rw [one_toNat, one_mod_half]; rfl

/-- R82: an instruction that is a read-modify-write of an allowed byte. -/
theorem completes_of_modifyByte {i : Instr} {s : State} {x : Reg} {g : Byte → Byte} {col : Byte → Column}
    (hexec : exec i s = modifyByte x g col s) (hx : x.bits = 32) (hr : s.allows .read (s.address x) = true)
    (hw : s.allows .write (s.address x) = true) {z n h c sg p : Byte → FlagEffect}
    (hcol : ∀ b, (z b).fits (col b).z ∧ (n b).fits (col b).n ∧ (h b).fits (col b).h ∧ (c b).fits (col b).c ∧
      (sg b).fits (col b).s ∧ (p b).fits (col b).p) :
    completes i s fun t => ∃ b u, s.modifies (s.address x) b (g b) u ∧ u.flagsAfter t (z b) (n b) (h b) (c b) (sg b) (p b) ∧
      t = { u with f := t.f } := by
  obtain ⟨t, u, hanswer, hmod, hflags, hrest⟩ := modifyByte_post hx hr hw (hcol (s.modified (s.address x)))
  exact ⟨t, hexec.trans hanswer, _, u, hmod, hflags, hrest⟩

theorem exec_incMem (x : Reg) (s : State) :
    exec (.incMem x) s = modifyByte x (fun v => addValue v 1 false) (fun v => incColumn v false) s := by
  rw [show exec (.incMem x) s = execIncMem x s from rfl, execIncMem]

theorem exec_decMem (x : Reg) (s : State) :
    exec (.decMem x) s = modifyByte x (fun v => subValue v 1 false) (fun v => decColumn v false) s := by
  rw [show exec (.decMem x) s = execDecMem x s from rfl, execDecMem]

/-- R221: the low digit carries when it is 15. -/
theorem lowDigit_carry (b : Byte) :
    decide (b.toNat % 16 = 15) = decide (2 ^ 4 ≤ b.toNat % 2 ^ 4 + 1 % 2 ^ 4 + (false : Bool).toNat) := by
  rw [decide_eq_decide, Bool.toNat_false]; omega

/-- R223: the low digit borrows when it is 0. -/
theorem lowDigit_borrow (b : Byte) :
    decide (b.toNat % 16 = 0) = decide (b.toNat % 2 ^ 4 < 1 % 2 ^ 4 + (false : Bool).toNat) := by
  rw [decide_eq_decide, Bool.toNat_false]; omega

/-- Settles O29: the read-modify-write of the byte with the cores of O28 at eight bits. -/
theorem incAndDecMemory : Obligations.IncAndDecMemory := by
  intro x s hx hr hw steps
  have hinc (b : Byte) : addValue b 1 false = BitVec.ofNat 8 (b.toNat + 1) := addValue_one b rfl
  have hdec (b : Byte) : subValue b 1 false = BitVec.ofNat 8 (b.toNat + 255) :=
    (subValue_one b rfl).trans (congrArg _ (by omega))
  refine ⟨?up, ?down⟩
  case up =>
    have h := completes_of_modifyByte (exec_incMem x s) hx hr hw
      (z := fun b => .is (decide (addValue b 1 false = 0))) (n := fun _ => .is false)
      (h := fun b => .is (decide (b.toNat % 16 = 15))) (c := fun _ => .kept) (sg := fun _ => .kept)
      (p := fun b => .is (evenParity (addValue b 1 false)))
      fun b => ⟨fits_zeroOf _, rfl, halfAdd_fits (w := 8) _ _ _ _ _ (lowDigit_carry b), rfl, rfl, fits_parityOf _⟩
    simpa only [hinc] using h
  case down =>
    have h := completes_of_modifyByte (exec_decMem x s) hx hr hw
      (z := fun b => .is (decide (subValue b 1 false = 0))) (n := fun _ => .is true)
      (h := fun b => .is (decide (b.toNat % 16 = 0))) (c := fun _ => .kept) (sg := fun _ => .kept)
      (p := fun b => .is (evenParity (subValue b 1 false)))
      fun b => ⟨fits_zeroOf _, rfl, halfSub_fits (w := 8) _ _ _ _ _ (lowDigit_borrow b), rfl, rfl, fits_parityOf _⟩
    simpa only [hdec] using h

/-! ## Logic -/

/-- What a bitwise operation `op` leaves in `t`, from `u` on, of the operands `v` and `y` (R250). -/
def LogicPost (op : Bool → Bool → Bool) (x : Reg) (v y : BitVec x.bits) (h : Bool) (u t : State) : Prop :=
  ∃ r : BitVec x.bits, (∀ k, k < x.bits → r.getLsbD k = op (v.getLsbD k) (y.getLsbD k)) ∧
    u.regsAfter t x r ∧
    u.flagsAfter t (.is (decide (r = 0))) (.is false) (.is h) (.is false) (.is false) (.is (evenParity r)) ∧
    u.bytesKept t ∧ t = { u with a := t.a, b := t.b, c := t.c, d := t.d, f := t.f }

theorem completes_of_logicInto {i : Instr} {s u : State} {x : Reg} {y r : BitVec x.bits} {h : Bool}
    {op : Bool → Bool → Bool} (hexec : exec i s = logicInto x r h u)
    (hop : ∀ k, r.getLsbD k = op ((u.readReg x).getLsbD k) (y.getLsbD k)) (hv : u.readReg x = s.readReg x) :
    completes i s (LogicPost op x (s.readReg x) y h u) := by
  rw [← hv]
  exact ⟨_, hexec, r, fun k _ => hop k, u.logic_post x r _ (fits_zeroOf _) rfl rfl rfl rfl (fits_parityOf _)⟩

/-- Settles O32: `AND`, `OR` and `XOR` are `LogicOp` on the operand of their form, and their operators act bit by bit. -/
theorem andOrXor : Obligations.AndOrXor := by
  unfold Obligations.AndOrXor
  intro combines x y imm adr s
  refine ⟨completes_of_logicInto rfl (fun _ => BitVec.getLsbD_and) rfl,
    completes_of_logicInto rfl (fun _ => BitVec.getLsbD_or) rfl,
    completes_of_logicInto rfl (fun _ => BitVec.getLsbD_xor) rfl, fun hallow => ?_⟩
  have hreads := s.dataRead_reads adr x.bytes (reg_bytes_le x)
  have hv := readReg_of_dataRead hreads.1 x
  exact ⟨_, _, hreads,
    completes_of_logicInto (withAbs_reads (fun v t => logicInto x (t.readReg x &&& v) true t) hallow hreads.1)
      (fun _ => BitVec.getLsbD_and) hv,
    completes_of_logicInto (withAbs_reads (fun v t => logicInto x (t.readReg x ||| v) false t) hallow hreads.1)
      (fun _ => BitVec.getLsbD_or) hv,
    completes_of_logicInto (withAbs_reads (fun v t => logicInto x (t.readReg x ^^^ v) false t) hallow hreads.1)
      (fun _ => BitVec.getLsbD_xor) hv, fun hy hadr =>
    ⟨completes_of_logicInto (withInd_reads (fun v t => logicInto x (t.readReg x &&& v) true t) hallow hreads.1 hy hadr)
       (fun _ => BitVec.getLsbD_and) hv,
      completes_of_logicInto (withInd_reads (fun v t => logicInto x (t.readReg x ||| v) false t) hallow hreads.1 hy hadr)
        (fun _ => BitVec.getLsbD_or) hv,
      completes_of_logicInto (withInd_reads (fun v t => logicInto x (t.readReg x ^^^ v) false t) hallow hreads.1 hy hadr)
        (fun _ => BitVec.getLsbD_xor) hv⟩⟩

theorem not_bit {w : Nat} (v : BitVec w) {k : Nat} (hk : k < w) : (~~~v).getLsbD k = !v.getLsbD k := by
  simp [hk]

theorem exec_notMem (x : Reg) (s : State) :
    exec (.notMem x) s = modifyByte x (fun v => ~~~v) (fun _ => notColumn) s := by
  rw [show exec (.notMem x) s = execNotMem x s from rfl, execNotMem]

/-- Settles O33: both forms write the complement and the column `-11---`. -/
theorem notComplements : Obligations.NotComplements := by
  intro x s
  refine ⟨⟨_, rfl, ~~~s.readReg x, fun k hk => not_bit _ hk, s.logic_post x _ _ rfl rfl rfl rfl rfl rfl⟩,
    fun hx hr hw => ?_⟩
  obtain ⟨t, hexec, b, u, hmod, hflags, hrest⟩ := completes_of_modifyByte (exec_notMem x s) hx hr hw
    (z := fun _ => .kept) (n := fun _ => .is true) (h := fun _ => .is true) (c := fun _ => .kept) (sg := fun _ => .kept)
    (p := fun _ => .kept) fun _ => ⟨rfl, rfl, rfl, rfl, rfl, rfl⟩
  exact ⟨t, hexec, b, _, u, hmod, fun k hk => not_bit b hk, hflags, hrest⟩

/-! ## Shifts and rotates -/

/-- R280(d): the direction of a shift. -/
def shiftsLeft : Shift → Bool
  | .sla | .rl | .rlc => true
  | .sra | .srl | .rr | .rrc => false

/-- R280(d): the bit that enters at the empty end. -/
def shiftEnters {w : Nat} (k : Shift) (v : BitVec w) (cin : Bool) : Bool :=
  match k with
  | .sla | .srl => false
  | .rl | .rr => cin
  | .sra | .rlc => v.getLsbD (w - 1)
  | .rrc => v.getLsbD 0

/-- R280(d): a shift moves its operand one place, the entering bit at the end it leaves empty. -/
theorem shiftValue_moves {w : Nat} (k : Shift) (v : BitVec w) (cin : Bool) :
    shiftedIn (shiftsLeft k) (shiftEnters k v cin) v (shiftValue k v cin) := by
  cases k with
  | sla | rl | rlc => exact shiftLeftIn_moves v _
  | sra | srl | rr | rrc => exact shiftRightIn_moves v _

theorem completes_of_shiftReg {i : Instr} {s : State} {x : Reg} {k : Shift} (hexec : exec i s = shiftReg k x s) :
    completes i s fun t =>
      ∃ r : BitVec x.bits, shiftedIn (shiftsLeft k) (shiftEnters k (s.readReg x) (s.flag .C)) (s.readReg x) r ∧
        s.regsAfter t x r ∧
        s.flagsAfter t (.is (decide (r = 0))) (.is false) (.is false) (.is (shiftCarry k (s.readReg x))) .kept
          (.is (evenParity r)) ∧
        s.bytesKept t ∧ t = { s with a := t.a, b := t.b, c := t.c, d := t.d, f := t.f } :=
  ⟨_, hexec, _, shiftValue_moves k _ _, s.logic_post x _ _ (fits_zeroOf _) rfl rfl rfl rfl (fits_parityOf _)⟩

/-- Settles O35: each register form is `shiftReg`; the direction and the two bits are the table's. -/
theorem shiftsOfRegisters : Obligations.ShiftsOfRegisters := fun _ _ =>
  ⟨completes_of_shiftReg (k := .sla) rfl, completes_of_shiftReg (k := .sra) rfl, completes_of_shiftReg (k := .srl) rfl,
    completes_of_shiftReg (k := .rl) rfl, completes_of_shiftReg (k := .rlc) rfl, completes_of_shiftReg (k := .rr) rfl,
    completes_of_shiftReg (k := .rrc) rfl⟩

theorem completes_of_shiftMem {i : Instr} {s : State} {x : Reg} {k : Shift} (hexec : exec i s = shiftMem k x s)
    (hx : x.bits = 32) (hr : s.allows .read (s.address x) = true) (hw : s.allows .write (s.address x) = true) :
    completes i s fun t => ∃ b r u, s.modifies (s.address x) b r u ∧
      shiftedIn (shiftsLeft k) (shiftEnters k b (s.flag .C)) b r ∧
      u.flagsAfter t (.is (decide (r = 0))) (.is false) (.is false) (.is (shiftCarry k b)) .kept (.is (evenParity r)) ∧
      t = { u with f := t.f } := by
  obtain ⟨t, hanswer, b, u, hmod, hflags, hrest⟩ := completes_of_modifyByte hexec hx hr hw
    (z := fun b => .is (decide (shiftValue k b (s.flag .C) = 0))) (n := fun _ => .is false) (h := fun _ => .is false)
    (c := fun b => .is (shiftCarry k b)) (sg := fun _ => .kept)
    (p := fun b => .is (evenParity (shiftValue k b (s.flag .C))))
    fun _ => ⟨fits_zeroOf _, rfl, rfl, rfl, rfl, fits_parityOf _⟩
  exact ⟨t, hanswer, b, _, u, hmod, shiftValue_moves k b _, hflags, hrest⟩

section

variable (x : Reg) (s : State)

/-! R282 to R294, the even rules: each memory form is `shiftMem`. -/

theorem exec_slaMem : exec (.slaMem x) s = shiftMem .sla x s := by
  rw [show exec (.slaMem x) s = execSlaMem x s from rfl, execSlaMem]

theorem exec_sraMem : exec (.sraMem x) s = shiftMem .sra x s := by
  rw [show exec (.sraMem x) s = execSraMem x s from rfl, execSraMem]

theorem exec_srlMem : exec (.srlMem x) s = shiftMem .srl x s := by
  rw [show exec (.srlMem x) s = execSrlMem x s from rfl, execSrlMem]

theorem exec_rlMem : exec (.rlMem x) s = shiftMem .rl x s := by
  rw [show exec (.rlMem x) s = execRlMem x s from rfl, execRlMem]

theorem exec_rlcMem : exec (.rlcMem x) s = shiftMem .rlc x s := by
  rw [show exec (.rlcMem x) s = execRlcMem x s from rfl, execRlcMem]

theorem exec_rrMem : exec (.rrMem x) s = shiftMem .rr x s := by
  rw [show exec (.rrMem x) s = execRrMem x s from rfl, execRrMem]

theorem exec_rrcMem : exec (.rrcMem x) s = shiftMem .rrc x s := by
  rw [show exec (.rrcMem x) s = execRrcMem x s from rfl, execRrcMem]

end

/-- Settles O36: each memory form is the read-modify-write of the byte with the shift of O35 at eight bits. -/
theorem shiftsOfMemory : Obligations.ShiftsOfMemory := by
  intro x s hx hr hw top bottom moves
  exact ⟨completes_of_shiftMem (exec_slaMem x s) hx hr hw, completes_of_shiftMem (exec_sraMem x s) hx hr hw,
    completes_of_shiftMem (exec_srlMem x s) hx hr hw, completes_of_shiftMem (exec_rlMem x s) hx hr hw,
    completes_of_shiftMem (exec_rlcMem x s) hx hr hw, completes_of_shiftMem (exec_rrMem x s) hx hr hw,
    completes_of_shiftMem (exec_rrcMem x s) hx hr hw⟩

/-! ## Bits -/

theorem bitInRange_of_lt {xd : Byte} {w : Nat} (h : xd.toNat < w) : bitInRange xd w = true := decide_eq_true h

theorem exec_bitReg {xd : Byte} {x : Reg} (h : xd.toNat < x.bits) (s : State) :
    exec (.bitReg xd x) s = .next (s.putColumn (bitColumn ((s.readReg x).getLsbD xd.toNat))) := by
  rw [show exec (.bitReg xd x) s = execBitReg xd x s from rfl, execBitReg, bitInRange_of_lt h, requireArg_true]

theorem exec_bitMem {xd : Byte} {x : Reg} {s : State} (h : xd.toNat < 8) (hx : x.bits = 32)
    (hr : s.allows .read (s.address x) = true) :
    exec (.bitMem xd x) s =
      .next ((s.dataRead (s.address x) 1).2.putColumn (bitColumn ((s.dataRead (s.address x) 1).1.getLsbD xd.toNat))) := by
  rw [show exec (.bitMem xd x) s = execBitMem xd x s from rfl, execBitMem, bitInRange_of_lt h, beq_iff_eq.2 hx, Bool.and_self,
    requireArg_true, withRead_allowed _ (by rw [State.allowsAll_one]; exact hr)]

/-- What a flags column leaves besides. -/
theorem putColumn_post (u : State) (k : Column) :
    u.bytesKept (u.putColumn k) ∧ u.putColumn k = { u with f := (u.putColumn k).f } :=
  ⟨u.putColumn_byte k, u.putColumn_eq k⟩

/-- Settles O37: `BIT` is the column of the tested bit, of `X` or of the byte read. -/
theorem bitTests : Obligations.BitTests := fun xd x s =>
  ⟨fun h => ⟨_, exec_bitReg h s, State.flagsAfter_putColumn s _ rfl rfl rfl rfl rfl rfl rfl, putColumn_post s _⟩,
    fun h hx hr => ⟨_, exec_bitMem h hx hr, _, _, s.dataRead_reads (s.address x) 1 (by omega),
      State.flagsAfter_putColumn _ _ rfl rfl rfl rfl rfl rfl rfl, putColumn_post _ _⟩⟩

/-- R313, R315, R317: the bit that a bit operation puts in place of the bit `b`. -/
def changedBit (k : BitOp) (b : Bool) : Bool :=
  match k with
  | .tog => !b
  | .set => true
  | .res => false

/-- The table's operations replace that one bit. -/
theorem bitValue_changes {w : Nat} (k : BitOp) (v : BitVec w) (n : Nat) :
    bitReplaced n (changedBit k (v.getLsbD n)) v (bitValue k v n) := by
  cases k <;> exact bitValue_replaces _ v n

/-- R313, R315, R317: the register form with its bit number in range. -/
theorem changeBitReg_in_range {k : BitOp} {xd : Byte} {x : Reg} (h : xd.toNat < x.bits) (s : State) :
    changeBitReg k xd x s = .next (s.writeReg x (bitValue k (s.readReg x) xd.toNat)) := by
  rw [changeBitReg, bitInRange_of_lt h, requireArg_true]

theorem completes_of_changeBitReg {i : Instr} {s : State} {k : BitOp} {xd : Byte} {x : Reg}
    (hexec : exec i s = changeBitReg k xd x s) (h : xd.toNat < x.bits) :
    completes i s fun t => ∃ r : BitVec x.bits,
      bitReplaced xd.toNat (changedBit k ((s.readReg x).getLsbD xd.toNat)) (s.readReg x) r ∧
      s.regsAfter t x r ∧ s.bytesKept t ∧ t = { s with a := t.a, b := t.b, c := t.c, d := t.d } :=
  ⟨_, hexec.trans (changeBitReg_in_range h s), _, bitValue_changes k _ _, TransferFamily.writeReg_post s x _⟩

/-- Settles O38: each of the three is `changeBitReg`. -/
theorem bitChangesOfRegisters : Obligations.BitChangesOfRegisters := fun _ _ _ h =>
  ⟨completes_of_changeBitReg (k := .tog) rfl h, completes_of_changeBitReg (k := .set) rfl h,
    completes_of_changeBitReg (k := .res) rfl h⟩

/-- R314, R316, R318: the memory form with its bit number in range is a read-modify-write that writes no flag. -/
theorem changeBitMem_in_range {k : BitOp} {xd : Byte} {x : Reg} (h : xd.toNat < 8) (hx : x.bits = 32) (s : State) :
    changeBitMem k xd x s = modifyByte x (fun v => bitValue k v xd.toNat) (fun _ => blankColumn) s := by
  rw [changeBitMem, bitInRange_of_lt h, beq_iff_eq.2 hx, Bool.and_self, requireArg_true]

theorem completes_of_changeBitMem {i : Instr} {s : State} {k : BitOp} {xd : Byte} {x : Reg}
    (hexec : exec i s = changeBitMem k xd x s) (h : xd.toNat < 8) (hx : x.bits = 32)
    (hr : s.allows .read (s.address x) = true) (hw : s.allows .write (s.address x) = true) :
    completes i s fun t => ∃ b r, s.modifies (s.address x) b r t ∧
      bitReplaced xd.toNat (changedBit k (b.getLsbD xd.toNat)) b r :=
  ⟨_, hexec.trans ((changeBitMem_in_range h hx s).trans (modifyByte_allowed hx hr hw)), _, _, s.modifies_data _ _,
    bitValue_changes k _ _⟩

section

variable (xd : Byte) (x : Reg) (s : State)

theorem exec_togMem : exec (.togMem xd x) s = changeBitMem .tog xd x s := by
  rw [show exec (.togMem xd x) s = execTogMem xd x s from rfl, execTogMem]

theorem exec_setMem : exec (.setMem xd x) s = changeBitMem .set xd x s := by
  rw [show exec (.setMem xd x) s = execSetMem xd x s from rfl, execSetMem]

theorem exec_resMem : exec (.resMem xd x) s = changeBitMem .res xd x s := by
  rw [show exec (.resMem xd x) s = execResMem xd x s from rfl, execResMem]

end

/-- Settles O39: each of the three is `changeBitMem`. -/
theorem bitChangesOfMemory : Obligations.BitChangesOfMemory := fun xd x s h hx hr hw =>
  ⟨completes_of_changeBitMem (exec_togMem xd x s) h hx hr hw, completes_of_changeBitMem (exec_setMem xd x s) h hx hr hw,
    completes_of_changeBitMem (exec_resMem xd x s) h hx hr hw⟩

/-! ## Decimal adjust (R157) -/

/-- The low digit of a byte above 9. -/
theorem lowDigit_gt_nine (al : Byte) : decide ((al &&& 0x0F) > 0x09) = decide (9 < al.toNat % 16) := by
  rw [decide_eq_decide, GT.gt, BitVec.lt_def, BitVec.toNat_and, show (0x0F : Byte).toNat = 2 ^ 4 - 1 from rfl,
    Nat.and_two_pow_sub_one_eq_mod]
  exact Iff.rfl

/-- The two adjustments touch different bits: together they are their sum. -/
theorem adjustments_add (lower upper : Bool) :
    ((if lower then 0x06 else 0x00 : Byte) ||| (if upper then 0x60 else 0x00)) =
      BitVec.ofNat 8 ((if lower then 0x06 else 0) + (if upper then 0x60 else 0)) := by
  cases lower <;> cases upper <;> rfl

/-- R157: the adjusted byte in plain arithmetic. -/
theorem daaValue_eq (al : Byte) (n h c : Bool) :
    let up : Bool := c || (!n && decide (0x99 < al.toNat))
    let adj := (if h || (!n && decide (9 < al.toNat % 16)) then 0x06 else 0) + (if up then 0x60 else 0)
    daaValue al n h c = if n then BitVec.ofNat 8 (256 + al.toNat - adj) else BitVec.ofNat 8 (al.toNat + adj) := by
  intro up adj
  have hadj : daaAdjustment al n h c = BitVec.ofNat 8 adj := by
    rw [daaAdjustment, adjustments_add, lowDigit_gt_nine]
    rfl
  have hle : adj ≤ 0x66 := by
    simp only [adj]
    split_ifs <;> omega
  rw [daaValue, hadj]
  cases n
  · apply BitVec.eq_of_toNat_eq
    simp
  · apply BitVec.eq_of_toNat_eq
    simp only [if_true, BitVec.toNat_sub, BitVec.toNat_ofNat]
    omega

/-- Settles O17: `DAA` writes the adjusted byte to `AL` and its column. -/
theorem daaAdjustsAl : Obligations.DaaAdjustsAl := by
  intro s al v n up adj r
  have hr : daaValue (s.readReg alReg) (s.flag .N) (s.flag .H) (s.flag .C) = r := daaValue_eq _ _ _ _
  refine ⟨_, rfl, ?_⟩
  rw [← hr]
  exact s.logic_post al _ _ (fits_zeroOf _) rfl rfl (fits_of_eq rfl) rfl (fits_parityOf _)

end Sys2Proof.Proofs.AluFamily
end

section
/-! PROOFS. The statements that speak of all 88 instructions: which arguments, data accesses and stack accesses each makes, with
the exceptions they raise (R122, R334, R335, R337, R338), what an instruction that raises leaves (R343), who writes the control
state (R51), and the cycles (R392, R393). -/

namespace Sys2Proof.Proofs.InstructionFamily

open Sys2Proof Sys2Proof.Machine

/-! ## Arguments (R122) -/

/-- R122: every instruction checks its arguments first. -/
theorem exec_guarded (i : Instr) (s : State) : ∃ k, exec i s = requireArg i.argsValid s k := by
  cases i <;> exact ⟨_, rfl⟩

/-- An instruction with valid arguments runs past the check. -/
theorem exec_past_check {i : Instr} {s : State} {k : Result} (hexec : exec i s = requireArg i.argsValid s k)
    (hargs : i.argsValid = true) : exec i s = k := by
  rw [hexec, hargs, requireArg_true]

/-- Settles O40: every instruction checks its arguments first; the mixed-width `MV` is checked by the parameter. -/
theorem invalidArgumentsTrap : Obligations.InvalidArgumentsTrap := by
  refine ⟨fun i s hargs => ?_, fun x y s hne hcfg => ?_⟩
  · obtain ⟨k, hexec⟩ := exec_guarded i s
    rw [hexec, hargs, requireArg_false]
  · have hbad : (x.bits == y.bits || s.cfg.mvMixedWidth == .zeroExtendTruncate) = false := by
      rw [hcfg, beq_eq_false_iff_ne.2 hne]; rfl
    rw [show exec (.mv x y) s = execMv x y s from rfl, execMv, hbad, requireArg_false]

/-! ## Data accesses (R82, R87) -/

/-- What `i` does first, once its arguments are valid, by the site it reads and the site it writes. -/
inductive Accesses (i : Instr) (s : State) : Option (Addr × Nat) → Option (Addr × Nat) → Prop
  | neither : Accesses i s none none
  | load {adr : Addr} {n : Nat} (k : Word → State → Result) (h : exec i s = withRead adr n s k) :
    Accesses i s (some (adr, n)) none
  | store {adr : Addr} {n : Nat} (v : Word) (k : State → Result) (h : exec i s = withWrite adr n v s k) :
    Accesses i s none (some (adr, n))
  | modify {x : Reg} (g : Byte → Byte) (col : Byte → Column) (hx : x.bits = 32) (h : exec i s = modifyByte x g col s) :
    Accesses i s (some (s.address x, 1)) (some (s.address x, 1))

/-- An 8-bit view is one byte. -/
theorem bytes_of_bits_eq_eight {x : Reg} (h : x.bits = 8) : x.bytes = 1 := by rw [Reg.bytes, h]

/-- R314 to R318: the three memory forms with valid arguments. -/
theorem changeBitMem_past_check {k : BitOp} {xd : Byte} {x : Reg} (h : (x.bits == 32 && bitInRange xd 8) = true) (s : State) :
    changeBitMem k xd x s = modifyByte x (fun v => bitValue k v xd.toNat) (fun _ => blankColumn) s := by
  rw [changeBitMem, h, requireArg_true]

section

variable {i : Instr} {s : State} {x : Reg} {adr : Addr}

theorem Accesses.ofAbs {k : BitVec x.bits → State → Result} (h : exec i s = withAbs x adr s k) :
    Accesses i s (some (adr, x.bytes)) none := .load _ h

theorem Accesses.ofLoad (h : exec i s = loadFrom x adr s) : Accesses i s (some (adr, x.bytes)) none := .ofAbs h

theorem Accesses.ofStore (h : exec i s = storeTo adr x s) : Accesses i s none (some (adr, x.bytes)) := .store _ _ h

theorem Accesses.ofLoadByte (hx : x.bits = 8) (h : exec i s = loadFrom x adr s) : Accesses i s (some (adr, 1)) none :=
  bytes_of_bits_eq_eight hx ▸ .ofLoad h

theorem Accesses.ofStoreByte (hx : x.bits = 8) (h : exec i s = storeTo adr x s) : Accesses i s none (some (adr, 1)) :=
  bytes_of_bits_eq_eight hx ▸ .ofStore h

end

/-- R82: the sites are the ones of the tables. -/
theorem exec_accesses {i : Instr} (s : State) (hargs : i.argsValid = true) :
    Accesses i s (readSite i s) (writeSite i s) := by
  cases i with
  | addAbs | adcAbs | subAbs | sbcAbs | andAbs | orAbs | xorAbs | cmpAbs =>
    apply Accesses.ofAbs
    unfold exec
    exact rfl
  | addInd | adcInd | subInd | sbcInd | andInd | orInd | xorInd | cmpInd => exact .ofAbs (exec_past_check rfl hargs)
  | bitMem => exact .load _ (exec_past_check rfl hargs)
  | ldAbs | ldhAbs => exact .ofLoad rfl
  | ldInd | ldhInd => exact .ofLoad (exec_past_check rfl hargs)
  | ldpAbs => exact .ofLoadByte (beq_iff_eq.1 hargs) (exec_past_check rfl hargs)
  | ldpInd => exact .ofLoadByte (beq_iff_eq.1 (Bool.and_eq_true_iff.1 hargs).1) (exec_past_check rfl hargs)
  | stAbs | sthAbs => exact .ofStore rfl
  | stInd | sthInd => exact .ofStore (exec_past_check rfl hargs)
  | stpAbs => exact .ofStoreByte (beq_iff_eq.1 hargs) (exec_past_check rfl hargs)
  | stpInd => exact .ofStoreByte (beq_iff_eq.1 (Bool.and_eq_true_iff.1 hargs).2) (exec_past_check rfl hargs)
  | incMem => exact .modify _ _ (beq_iff_eq.1 hargs) (AluFamily.exec_incMem _ s)
  | decMem => exact .modify _ _ (beq_iff_eq.1 hargs) (AluFamily.exec_decMem _ s)
  | notMem => exact .modify _ _ (beq_iff_eq.1 hargs) (AluFamily.exec_notMem _ s)
  | slaMem => exact .modify _ _ (beq_iff_eq.1 hargs) (AluFamily.exec_slaMem _ s)
  | sraMem => exact .modify _ _ (beq_iff_eq.1 hargs) (AluFamily.exec_sraMem _ s)
  | srlMem => exact .modify _ _ (beq_iff_eq.1 hargs) (AluFamily.exec_srlMem _ s)
  | rlMem => exact .modify _ _ (beq_iff_eq.1 hargs) (AluFamily.exec_rlMem _ s)
  | rlcMem => exact .modify _ _ (beq_iff_eq.1 hargs) (AluFamily.exec_rlcMem _ s)
  | rrMem => exact .modify _ _ (beq_iff_eq.1 hargs) (AluFamily.exec_rrMem _ s)
  | rrcMem => exact .modify _ _ (beq_iff_eq.1 hargs) (AluFamily.exec_rrcMem _ s)
  | togMem xd x =>
    exact .modify _ _ (beq_iff_eq.1 (Bool.and_eq_true_iff.1 hargs).1)
      ((AluFamily.exec_togMem xd x s).trans (changeBitMem_past_check hargs s))
  | setMem xd x =>
    exact .modify _ _ (beq_iff_eq.1 (Bool.and_eq_true_iff.1 hargs).1)
      ((AluFamily.exec_setMem xd x s).trans (changeBitMem_past_check hargs s))
  | resMem xd x =>
    exact .modify _ _ (beq_iff_eq.1 (Bool.and_eq_true_iff.1 hargs).1)
      ((AluFamily.exec_resMem xd x s).trans (changeBitMem_past_check hargs s))
  | _ => exact .neither

/-- Settles O41: a load, or the read of a read-modify-write, is checked before its first byte. -/
theorem refusedReadsTrap : Obligations.RefusedReadsTrap := by
  intro i s adr n hargs hread hrefused
  have hacc := exec_accesses s hargs
  rw [hread] at hacc
  generalize writeSite i s = site at hacc
  cases hacc with
  | load k hexec => rw [hexec, withRead_refused k hrefused]; rfl
  | modify g col hx hexec => rw [hexec, modifyByte_unreadable hx (by simpa using hrefused)]; rfl

/-- Settles O42: a store is checked before its first byte, the write of a read-modify-write after its read. -/
theorem refusedWritesTrap : Obligations.RefusedWritesTrap := by
  intro i s adr n hargs hwrite hrefused
  have hacc := exec_accesses s hargs
  rw [hwrite] at hacc
  generalize readSite i s = site at hacc
  cases hacc with
  | store v k hexec => exact ⟨fun _ => by rw [hexec, withWrite_refused k hrefused], fun h => nomatch h⟩
  | modify g col hx hexec =>
    refine ⟨fun h => (nomatch h), fun _ hallow => ?_⟩
    rw [hexec, modifyByte_unwritable hx (by simpa using hallow) (by simpa using hrefused)]
    rfl

/-! ## The stack (R80, R87) -/

/-- R337: `PUSH`, `INT` and a taken `CALL` start with a push. -/
theorem exec_pushes {i : Instr} {s : State} (hargs : i.argsValid = true) (hpush : pushes i s = true) :
    ∃ v k, exec i s = withPush v s k := by
  cases i with
  | push | intVec => exact ⟨_, _, exec_past_check rfl hargs⟩
  | call z target =>
    have hcond : s.cond z = true := hpush
    refine ⟨s.pc, fun t => .next (t.jump target), ?_⟩
    rw [TransferFamily.exec_call, show z.assigned = true from hargs, requireArg_true, if_pos hcond]
  | _ => exact nomatch hpush

/-- R338: `POP`, a taken `RET` and `RETI` find an empty stack before they do anything. -/
theorem exec_pops_empty {i : Instr} {s : State} (hargs : i.argsValid = true) (hpop : pops i s = true)
    (hempty : s.stackEmpty = true) : exec i s = .next (s.takeException .stackUnderflow) := by
  cases i with
  | pop x => rw [exec_past_check (i := .pop x) rfl hargs]; exact withPop_empty _ hempty
  | ret z =>
    rw [TransferFamily.exec_ret, show z.assigned = true from hargs, requireArg_true, if_pos (show s.cond z = true from hpop),
      returnFrom, withPop_empty _ hempty]
  | reti => rw [show exec .reti s = execReti s from rfl, execReti, if_pos hempty, raise]
  | _ => exact nomatch hpop

/-- Settles O43: the stack is tested before anything is done; the overflow finds no room for its own entry either. -/
theorem stackRefusalsTrap : Obligations.StackRefusalsTrap := by
  refine fun i s hargs => ⟨fun hpush hsp => ?_, fun hpop hsp => exec_pops_empty hargs hpop (s.stackEmpty_iff.2 hsp)⟩
  obtain ⟨v, k, hexec⟩ := exec_pushes hargs hpush
  have hfull := s.stackFull_iff.2 hsp
  rw [hexec, withPush_full k hfull, State.takeException_full hfull]

/-! ## What an instruction that raises leaves (R343) -/

/-- Settles O47: every instruction ends, with its exception or completed. -/
theorem everyInstructionAnswers : Obligations.EveryInstructionAnswers := by
  intro i s
  obtain ⟨t, hexec, -⟩ := exec_ends i s
  exact ⟨t, hexec⟩

/-- R343, with the cycles `n`: what is left of `s` in `t`, once `s` has raised. -/
def RaisedIn (n : Nat) (s t : State) : Prop :=
  OnBus n { s with
      pc := t.pc, sp := t.sp, sa := t.sa, da := t.da, sd := t.sd, ec := t.ec, ime := t.ime, faulted := t.faulted
      raised := true } t ∧
    ((s.sp ≤ 0xFFFE0000 ∧ t.faulted = true ∧ t.ec = 0x06 ∧ t.ime = s.ime ∧ t.sp = s.sp ∧ t.pc = s.pc ∧
        s.bytesSpared t n) ∨
      (0xFFFE0000 < s.sp ∧ t.faulted = s.faulted ∧ t.ime = (s.ime && !s.cfg.intClearsIme) ∧ t.sp = s.sp - 4 ∧
        t.pc = 0x00001000 ∧ s.stored t n (s.sp - 4) 4 s.pc))

/-- The fields an entry writes, taken from the state it leaves. -/
theorem OnBus_fields {n : Nat} {s t : State} {pc sp sa da sd : Word} {ec : Byte} {ime faulted : Bool}
    (h : OnBus n { s with
      pc := pc, sp := sp, sa := sa, da := da, sd := sd, ec := ec, ime := ime, faulted := faulted, raised := true } t) :
    OnBus n { s with
      pc := t.pc, sp := t.sp, sa := t.sa, da := t.da, sd := t.sd, ec := t.ec, ime := t.ime, faulted := t.faulted
      raised := true } t := by
  rw [h.pc, h.sp, h.sa, h.da, h.sd, h.ec, h.ime, h.faulted]
  exact h

/-- R343: the instruction's own cycles wrote no byte, so the entry finds `pc`, `sp` and memory as they were. -/
theorem raisedIn_of_abandoned {s t : State} (h : Abandoned s t) : ∃ n, RaisedIn n s t := by
  obtain ⟨e, n, u, rfl, hbus, hspared, -⟩ := h
  cases hfull : u.stackFull with
  | true =>
    rw [State.takeException_full hfull]
    refine ⟨n, OnBus_fields (hbus.entry u.pc u.sp 0x06 u.ime true true), .inl ?_⟩
    have hsp := u.stackFull_iff.1 hfull
    rw [hbus.sp] at hsp
    exact ⟨hsp, rfl, rfl, hbus.ime, hbus.sp, hbus.pc, hspared⟩
  | false =>
    obtain ⟨hentry, hstored⟩ := u.takeException_onBus e hfull
    have hsp := u.stackFull_false_iff.1 hfull
    rw [hbus.sp] at hsp
    rw [hbus.sp, hbus.pc] at hstored
    refine ⟨n + 6, OnBus_fields
      ((hbus.entry 0x00001000 (u.sp - 4) e.code (u.ime && !u.cfg.intClearsIme) u.faulted true).trans hentry), .inr ?_⟩
    refine ⟨hsp, hentry.faulted.trans hbus.faulted, ?_, ?_, hentry.pc,
      State.stored.after (s := { s with sa := u.sa, da := u.da, sd := u.sd }) hbus hspared hstored⟩
    · rw [hentry.ime, hbus.ime, hbus.cfg]
    · rw [hentry.sp, hbus.sp]

/-- An instruction that completes raises nothing. -/
theorem raised_of_completed {i : Instr} {s t : State} (h : Completed i s t) : t.raised = s.raised := by
  obtain ⟨n, u, hmoved, ht, -⟩ := h
  rw [ht]
  exact hmoved.bus.raised

/-- Settles O46: an instruction either completes, and then raised nothing, or is abandoned. -/
theorem exceptionsArePrecise : Obligations.ExceptionsArePrecise := by
  intro i s t hs hexec ht
  obtain habandoned | hcompleted := exec_next hexec
  · exact raisedIn_of_abandoned habandoned
  · rw [raised_of_completed hcompleted, hs] at ht
    exact nomatch ht

/-! ## The writers of the control state (R51) -/

section

variable {n : Nat} {s u : State} (h : OnBus n s u)
include h

/-- R45: a bit of `F` outside the six condition flags, over bus cycles and an instruction's writes. -/
theorem controlFlag_writers {i : Instr} {t : State} (hwrites : FlagWrites i u t) {k : Nat} (hk : k < 2 ∨ 8 ≤ k)
    (hlow : k < 16) : t.f.getLsbD k = s.f.getLsbD k ∨ (k = 0 ∧ i = .stop) ∨ (k = 1 ∧ i = .halt) := by
  obtain hsame | hstop | hhalt | ⟨j, rfl, -⟩ := hwrites k hk
  · exact .inl (hsame.trans (h.low k hlow))
  · exact .inr (.inl hstop)
  · exact .inr (.inr hhalt)
  · omega

/-- R45: the software flags. -/
theorem softFlag_writers {i : Instr} {t : State} (hwrites : FlagWrites i u t) (k : BitVec 4) :
    t.f.getLsbD (16 + k.toNat) = s.f.getLsbD (16 + k.toNat) ∨ i = .stf k ∨ i = .clf k ∨
      ∃ v, .writeSoftFlags v ∈ s.actsWithin n := by
  obtain hsame | ⟨hk, -⟩ | ⟨hk, -⟩ | ⟨j, hj, hi⟩ := hwrites (16 + k.toNat) (by omega)
  · by_cases hacts : ∃ v, .writeSoftFlags v ∈ s.actsWithin n
    · exact .inr (.inr (.inr hacts))
    · rw [hsame, h.soft (not_exists.1 hacts)]
      exact .inl rfl
  · omega
  · omega
  · obtain rfl : k = j := BitVec.eq_of_toNat_eq (by omega)
    exact .inr (hi.imp_right .inl)

/-- R50: the enable register. -/
theorem intEnable_writers : u.intEnable = s.intEnable ∨ ∃ v, .writeEnable v ∈ s.actsWithin n := by
  by_cases hacts : ∃ v, .writeEnable v ∈ s.actsWithin n
  · exact .inr hacts
  · exact .inl (h.enable (not_exists.1 hacts))

/-- R50: the pending bits. -/
theorem intFlags_writers (k : BitVec 5) : u.intFlags.getLsbD k.toNat = s.intFlags.getLsbD k.toNat ∨
    .raiseInterrupt k ∈ s.actsWithin n ∨ .clearInterrupt k ∈ s.actsWithin n := by
  by_cases hset : .raiseInterrupt k ∈ s.actsWithin n
  · exact .inr (.inl hset)
  by_cases hclear : .clearInterrupt k ∈ s.actsWithin n
  · exact .inr (.inr hclear)
  exact .inl (Bool.eq_iff_iff.2 ⟨h.set k hset, h.cleared k hclear⟩)

end

/-- R51: the clauses of O48 that speak of `F`, `IF` and `IE`, in `n` cycles. -/
def PlatformSide (i : Instr) (n : Nat) (s t : State) : Prop :=
  (t.flag .T = s.flag .T ∨ i = .stop) ∧ (t.flag .L = s.flag .L ∨ i = .halt) ∧
  (∀ k : BitVec 4, t.f.getLsbD (16 + k.toNat) = s.f.getLsbD (16 + k.toNat) ∨ i = .stf k ∨ i = .clf k ∨
    ∃ v, .writeSoftFlags v ∈ s.actsWithin n) ∧
  t.f.extractLsb' 8 8 = s.f.extractLsb' 8 8 ∧ (t.intEnable = s.intEnable ∨ ∃ v, .writeEnable v ∈ s.actsWithin n) ∧
  (∀ k : BitVec 5, t.intFlags.getLsbD k.toNat = s.intFlags.getLsbD k.toNat ∨ .raiseInterrupt k ∈ s.actsWithin n ∨
    .clearInterrupt k ∈ s.actsWithin n)

/-- Bus cycles and then the flag writes of an instruction. -/
theorem platformSide_of_onBus {i : Instr} {n : Nat} {s u t : State} (h : OnBus n s u) (hwrites : FlagWrites i u t)
    (henable : t.intEnable = u.intEnable) (hflags : t.intFlags = u.intFlags) : PlatformSide i n s t := by
  refine ⟨?stop, ?halt, softFlag_writers h hwrites, ?reserved, ?enable, ?pending⟩
  case stop =>
    obtain hsame | ⟨-, hstop⟩ | ⟨hk, -⟩ := controlFlag_writers h hwrites (k := 0) (by omega) (by omega)
    · exact .inl hsame
    · exact .inr hstop
    · omega
  case halt =>
    obtain hsame | ⟨hk, -⟩ | ⟨-, hhalt⟩ := controlFlag_writers h hwrites (k := 1) (by omega) (by omega)
    · exact .inl hsame
    · omega
    · exact .inr hhalt
  case reserved =>
    apply BitVec.eq_of_getLsbD_eq
    intro k hk
    rw [BitVec.getLsbD_extractLsb', BitVec.getLsbD_extractLsb']
    obtain hsame | ⟨hk', -⟩ | ⟨hk', -⟩ := controlFlag_writers h hwrites (k := 8 + k) (by omega) (by omega)
    · rw [hsame]
    · omega
    · omega
  case enable => rw [henable]; exact intEnable_writers h
  case pending => rw [hflags]; exact intFlags_writers h

/-- Settles O48: an abandoned instruction is bus cycles and an entry, a completed one bus cycles and its own writes. -/
theorem controlStateHasFewWriters : Obligations.ControlStateHasFewWriters := by
  intro i s t hexec
  obtain habandoned | ⟨n, u, hmoved, ht, hwrites, hime, hei, hec⟩ := exec_next hexec
  · obtain ⟨n, hbus, hentry⟩ := raisedIn_of_abandoned habandoned
    have hcycles : t.cycles - s.cycles = n := by rw [hbus.cycles]; exact Nat.add_sub_cancel_left ..
    obtain ⟨hstop, hhalt, hsoft, hreserved, henable, hpending⟩ :=
      platformSide_of_onBus (i := i) hbus (fun _ _ => .inl rfl) rfl rfl
    have hime : t.ime = true → s.ime = true := fun h => by
      obtain ⟨-, -, -, hi, -⟩ | ⟨-, -, hi, -⟩ := hentry
      · rw [← hi]; exact h
      · rw [hi] at h; exact (Bool.and_eq_true_iff.1 h).1
    intro acts
    simp only [acts, hcycles]
    exact ⟨hstop, hhalt, hsoft, hreserved, henable, hpending, fun h => .inl (hime h), .inl hbus.ei, .inr (.inl hbus.raised)⟩
  · have hcycles : t.cycles - s.cycles = n := by
      rw [ht]
      exact (congrArg (· - s.cycles) hmoved.bus.cycles).trans (Nat.add_sub_cancel_left ..)
    obtain ⟨hstop, hhalt, hsoft, hreserved, henable, hpending⟩ :=
      platformSide_of_onBus hmoved.bus hwrites (by rw [ht]) (by rw [ht])
    intro acts
    simp only [acts, hcycles]
    exact ⟨hstop, hhalt, hsoft, hreserved, henable, hpending, fun h => hime (by rw [ht] at h; exact h), hei,
      hec.imp_right .inr⟩

/-! ## Cycles (R392, R393) -/

/-- The result takes `n` cycles from `s`, unless it is an exception's. -/
def Costs (n : Nat) (s : State) (r : Result) : Prop :=
  ∀ t, r = .next t → t.raised = false → t.cycles = s.cycles + n

section

variable {n : Nat} {s : State}

theorem Costs.next {t : State} (h : t.cycles = s.cycles + n) : Costs n s (.next t) := by
  rintro _ ⟨rfl⟩ -
  exact h

/-- An exception is not counted: the rule is for an instruction that raises nothing. -/
theorem Costs.raised (e : Exc) (u : State) : Costs n s (.next (u.takeException e)) := by
  rintro _ ⟨rfl⟩ hraised
  obtain ⟨-, -, -, -, h⟩ := u.takeException_keeps e
  rw [h] at hraised
  exact nomatch hraised

theorem Costs.arg {ok : Bool} {r : Result} (h : ok = true → Costs n s r) : Costs n s (requireArg ok s r) := by
  cases ok
  · exact Costs.raised .invalidArgument s
  · exact h rfl

theorem Costs.read {m : Nat} {adr : Addr} {k : Word → State → Result}
    (h : ∀ v, Costs n (s.dataRead adr m).2 (k v (s.dataRead adr m).2)) : Costs (m + n) s (withRead adr m s k) := by
  cases hallow : s.allowsAll .read m adr
  · rw [withRead_refused _ hallow]
    exact Costs.raised _ _
  · rw [withRead_allowed _ hallow]
    intro t hr hraised
    rw [h _ t hr hraised, (s.dataRead_onBus adr m).cycles, Nat.add_assoc]

theorem Costs.abs {x : Reg} {adr : Addr} {k : BitVec x.bits → State → Result}
    (h : ∀ v, Costs 0 (s.dataRead adr x.bytes).2 (k v (s.dataRead adr x.bytes).2)) :
    Costs x.bytes s (withAbs x adr s k) := Costs.read fun _ => h _

theorem Costs.ind {x y : Reg} {k : BitVec x.bits → State → Result}
    (h : ∀ v, Costs 0 (s.dataRead (s.address y) x.bytes).2 (k v (s.dataRead (s.address y) x.bytes).2)) :
    Costs x.bytes s (withInd x y s k) := Costs.arg fun _ => Costs.abs h

theorem Costs.load {x : Reg} {adr : Addr} : Costs x.bytes s (loadFrom x adr s) :=
  Costs.abs fun _ => Costs.next (by simp)

theorem Costs.store {y : Reg} {adr : Addr} : Costs y.bytes s (storeTo adr y s) := by
  cases hallow : s.allowsAll .write y.bytes adr
  · rw [storeTo_refused hallow]
    exact Costs.raised _ _
  · rw [storeTo_allowed hallow]
    exact Costs.next (s.dataWrite_onBus adr y.bytes _).cycles

theorem Costs.modify {x : Reg} {g : Byte → Byte} {col : Byte → Column} : Costs 2 s (modifyByte x g col s) := by
  by_cases hx : x.bits = 32
  swap
  · rw [modifyByte_narrow hx]
    exact Costs.raised _ _
  cases hr : s.allows .read (s.address x)
  · rw [modifyByte_unreadable hx hr]
    exact Costs.raised _ _
  cases hw : s.allows .write (s.address x)
  · rw [modifyByte_unwritable hx hr hw]
    exact Costs.raised _ _
  rw [modifyByte_allowed hx hr hw]
  obtain ⟨-, -, -, -, hbus, -⟩ := s.modifies_data (s.address x) (g (s.modified (s.address x)))
  exact Costs.next ((State.putColumn_cycles _ _).trans hbus.cycles)

theorem Costs.push {v : Word} {k : State → Result} (h : Costs n (s.pushWord v) (k (s.pushWord v))) :
    Costs (5 + n) s (withPush v s k) := by
  cases hfull : s.stackFull
  · rw [withPush_room _ hfull]
    intro t hr hraised
    rw [h t hr hraised, (s.pushWord_onBus v).cycles, Nat.add_assoc]
  · rw [withPush_full _ hfull]
    exact Costs.raised _ _

theorem Costs.pop {k : Word → State → Result} (h : Costs n s.popWord.2 (k s.popWord.1 s.popWord.2)) :
    Costs (5 + n) s (withPop s k) := by
  cases hempty : s.stackEmpty
  · rw [withPop_some _ hempty]
    intro t hr hraised
    rw [h t hr hraised, s.popWord_onBus.cycles, Nat.add_assoc]
  · rw [withPop_empty _ hempty]
    exact Costs.raised _ _

theorem Costs.jump (s : State) (target : Addr) : Costs 1 s (.next (s.jump target)) := Costs.next (s.jump_cycles target)

theorem Costs.popPc (s : State) : Costs (5 + 1) s (returnFrom s) := by
  unfold returnFrom
  exact Costs.pop (Costs.jump _ _)

theorem Costs.branch {taken : Bool} {r : Result} (h : Costs n s r) :
    Costs (if taken then n else 0) s (if taken then r else .next s) := by
  cases taken
  · exact Costs.next rfl
  · exact h

end

/-- A condition that costs `n` cycles when it holds. -/
theorem length_add_branch (m n : Nat) (taken : Bool) :
    m + (if taken then n else 0) = if taken then m + n else m := by
  cases taken <;> rfl

/-- R392: the fetch costs a cycle a byte, the execute stage the rest. -/
theorem exec_costs (i : Instr) (s : State) :
    ∃ n, i.length + n = tableCycles i (takes i s) ∧ Costs n s (exec i s) := by
  cases i with
  | nop | stop | halt | sec | cec | di | ei | scf | ccf | stf | clf | flg | ldImm | incReg | decReg | addImm | adcImm | subImm
  | sbcImm | andImm | orImm | xorImm | notReg | cmpImm | slaReg | sraReg | srlReg | rlReg | rlcReg | rrReg | rrcReg =>
    exact ⟨0, rfl, Costs.next (by simp)⟩
  | daa => exact ⟨0, rfl, Costs.next ((State.putColumn_cycles _ _).trans (State.writeReg_cycles _ _ _))⟩
  | mv | bitReg | togReg | setReg | resReg => exact ⟨0, rfl, Costs.arg fun _ => Costs.next (by simp)⟩
  | ldAbs x | ldhAbs x => exact ⟨x.bytes, rfl, Costs.load⟩
  | ldInd x | ldhInd x => exact ⟨x.bytes, rfl, Costs.arg fun _ => Costs.load⟩
  | ldpAbs x =>
    refine ⟨1, rfl, Costs.arg fun hx => ?_⟩
    rw [← bytes_of_bits_eq_eight (beq_iff_eq.1 hx)]
    exact Costs.load
  | ldpInd x =>
    refine ⟨1, rfl, Costs.arg fun hxy => ?_⟩
    rw [← bytes_of_bits_eq_eight (beq_iff_eq.1 (Bool.and_eq_true_iff.1 hxy).1)]
    exact Costs.load
  | stAbs _ y | sthAbs _ y => exact ⟨y.bytes, rfl, Costs.store⟩
  | stInd _ y | sthInd _ y => exact ⟨y.bytes, rfl, Costs.arg fun _ => Costs.store⟩
  | stpAbs _ y =>
    refine ⟨1, rfl, Costs.arg fun hy => ?_⟩
    rw [← bytes_of_bits_eq_eight (beq_iff_eq.1 hy)]
    exact Costs.store
  | stpInd _ y =>
    refine ⟨1, rfl, Costs.arg fun hxy => ?_⟩
    rw [← bytes_of_bits_eq_eight (beq_iff_eq.1 (Bool.and_eq_true_iff.1 hxy).2)]
    exact Costs.store
  | addAbs x | adcAbs x | subAbs x | sbcAbs x | andAbs x | orAbs x | xorAbs x | cmpAbs x =>
    refine ⟨x.bytes, rfl, ?_⟩
    unfold exec
    exact Costs.abs fun _ => Costs.next (by simp)
  | addInd x | adcInd x | subInd x | sbcInd x | andInd x | orInd x | xorInd x | cmpInd x =>
    refine ⟨x.bytes, rfl, ?_⟩
    unfold exec
    exact Costs.ind fun _ => Costs.next (by simp)
  | incMem => exact ⟨2, rfl, AluFamily.exec_incMem _ s ▸ Costs.modify⟩
  | decMem => exact ⟨2, rfl, AluFamily.exec_decMem _ s ▸ Costs.modify⟩
  | notMem => exact ⟨2, rfl, AluFamily.exec_notMem _ s ▸ Costs.modify⟩
  | slaMem => exact ⟨2, rfl, AluFamily.exec_slaMem _ s ▸ Costs.modify⟩
  | sraMem => exact ⟨2, rfl, AluFamily.exec_sraMem _ s ▸ Costs.modify⟩
  | srlMem => exact ⟨2, rfl, AluFamily.exec_srlMem _ s ▸ Costs.modify⟩
  | rlMem => exact ⟨2, rfl, AluFamily.exec_rlMem _ s ▸ Costs.modify⟩
  | rlcMem => exact ⟨2, rfl, AluFamily.exec_rlcMem _ s ▸ Costs.modify⟩
  | rrMem => exact ⟨2, rfl, AluFamily.exec_rrMem _ s ▸ Costs.modify⟩
  | rrcMem => exact ⟨2, rfl, AluFamily.exec_rrcMem _ s ▸ Costs.modify⟩
  | togMem => exact ⟨2, rfl, AluFamily.exec_togMem _ _ s ▸ Costs.arg fun _ => Costs.modify⟩
  | setMem => exact ⟨2, rfl, AluFamily.exec_setMem _ _ s ▸ Costs.arg fun _ => Costs.modify⟩
  | resMem => exact ⟨2, rfl, AluFamily.exec_resMem _ _ s ▸ Costs.arg fun _ => Costs.modify⟩
  | bitMem => exact ⟨1 + 0, rfl, Costs.arg fun _ => Costs.read fun _ => Costs.next (by simp)⟩
  | push => exact ⟨5 + 0, rfl, Costs.arg fun _ => Costs.push (Costs.next rfl)⟩
  | pop => exact ⟨5 + 0, rfl, Costs.arg fun _ => Costs.pop (Costs.next (by simp))⟩
  | intVec => exact ⟨5 + 1, rfl, Costs.arg fun _ => Costs.push (Costs.next (by simp))⟩
  | reti =>
    refine ⟨5 + 1, rfl, ?_⟩
    rw [show exec .reti s = execReti s from rfl, execReti]
    cases s.stackEmpty with
    | false => exact Costs.popPc { s with ime := true }
    | true => exact Costs.raised _ _
  | jmpImm z | jmpReg z | jpb z => exact ⟨_, length_add_branch _ 1 (s.cond z), Costs.arg fun _ => Costs.branch (Costs.jump _ _)⟩
  | call z => exact ⟨_, length_add_branch _ (5 + 1) (s.cond z), Costs.arg fun _ => Costs.branch (Costs.push (Costs.jump _ _))⟩
  | ret z => exact ⟨_, length_add_branch _ (5 + 1) (s.cond z), Costs.arg fun _ => Costs.branch (Costs.popPc s)⟩

/-- Settles O60: the cycles of the fetch and those of the execute stage are the table's. -/
theorem cyclesOfTheTable : Obligations.CyclesOfTheTable := by
  intro i s t _ hexec hraised
  obtain ⟨n, hn, hcosts⟩ := exec_costs i s
  rw [hcosts t hexec hraised, ← hn, Nat.add_assoc, Nat.add_comm n]

end Sys2Proof.Proofs.InstructionFamily
end
